-- ==== Sys2Proof/Word.lean ====
section
/-!
DEFINITION. The machine words of LICO-CORE and their plainest arithmetic (spec/00_scope.md rule R9).
-/

namespace Sys2Proof

/-- A `u8`: the unit of every memory (20_memory.md R30) and the width of CMD and STATUS. -/
abbrev Byte := BitVec 8

/-- A `u32`: the width of LEN, ZBASE, ZN, ZCAP and ZLEN (10_state.md R13 to R17). -/
abbrev Word := BitVec 32

/-- `as_i32(u)` of 00_scope.md R9: `u` if `u < 2^31`, else `u - 2^32`, for a `u32` given as a natural. -/
def asI32 (u : Nat) : Int := if u < 2147483648 then (u : Int) else (u : Int) - 4294967296

end Sys2Proof
end

