-- ==== Sys2Proof/Syntax.lean ====
section
/-!
DEFINITION. The commands of LICO-CORE, one constructor per row of spec/opcode_table.json
(spec/30_encoding.md rules R50 to R53), and the four bit fields of a command byte.
-/

namespace Sys2Proof

/-- The ZE word type T that WSEL selects (30_encoding.md R52). -/
inductive WordType where
  | u8   -- WSEL 0, suffix .B
  | u16  -- WSEL 1, suffix .H
  | u32  -- WSEL 2, suffix .W
  | u64  -- WSEL 3, suffix .D
  deriving DecidableEq, Repr

/-- A command. Operands other than CHK and WSEL are in registers and memories (R50, R55). -/
inductive Instr where
  | hdrn                                  -- B forward, R72
  | hdrr                                  -- B inverse, R74
  | rcdf                                  -- C forward, R83
  | rcdi                                  -- C inverse, R85
  | bmtf                                  -- D forward, R94
  | bmti                                  -- D inverse, R96
  | zenc (chk : Bool) (t : WordType)      -- E encode, R102
  | zdec (t : WordType)                   -- E decode, R105
  | enc                                   -- F forward, R110
  | dec                                   -- F inverse, R111
  deriving DecidableEq, Repr

/-- The fields of a command byte (30_encoding.md R50): bit 7 reserved, bit 6 CHK, bits 5:4 WSEL,
bits 3:0 OP. -/
structure CommandFields where
  reserved : BitVec 1
  chk      : BitVec 1
  wsel     : BitVec 2
  op       : BitVec 4
  deriving DecidableEq, Repr

/-- The value of WSEL that selects a word type (R52). -/
def WordType.wsel : WordType → BitVec 2
  | .u8  => 0#2
  | .u16 => 1#2
  | .u32 => 2#2
  | .u64 => 3#2

/-- The fields of each command (30_encoding.md R51 to R53). -/
def Instr.fields : Instr → CommandFields
  | .hdrn     => { reserved := 0#1, chk := 0#1, wsel := 0#2, op := 0x1#4 }
  | .hdrr     => { reserved := 0#1, chk := 0#1, wsel := 0#2, op := 0x2#4 }
  | .rcdf     => { reserved := 0#1, chk := 0#1, wsel := 0#2, op := 0x3#4 }
  | .rcdi     => { reserved := 0#1, chk := 0#1, wsel := 0#2, op := 0x4#4 }
  | .bmtf     => { reserved := 0#1, chk := 0#1, wsel := 0#2, op := 0x5#4 }
  | .bmti     => { reserved := 0#1, chk := 0#1, wsel := 0#2, op := 0x6#4 }
  | .zenc c t => { reserved := 0#1, chk := BitVec.ofBool c, wsel := t.wsel, op := 0x7#4 }
  | .zdec t   => { reserved := 0#1, chk := 0#1, wsel := t.wsel, op := 0x8#4 }
  | .enc      => { reserved := 0#1, chk := 0#1, wsel := 0#2, op := 0x9#4 }
  | .dec      => { reserved := 0#1, chk := 0#1, wsel := 0#2, op := 0xA#4 }

end Sys2Proof
end

