-- ==== Sys2Proof/WellFormed.lean ====
section
/-!
DEFINITION. When the fields of a command byte encode a command: the four checks of
spec/30_encoding.md rule R54, each under its own name.
-/

namespace Sys2Proof

/-- Bit 7 is 0 (R54: illegal when "bit 7 of c is 1"). -/
def CommandFields.reservedClear (f : CommandFields) : Bool := f.reserved == 0#1

/-- OP names a command (R54: illegal when "OP is 0x0 or 0xB to 0xF"). -/
def CommandFields.opDefined (f : CommandFields) : Bool := 0x1 ≤ f.op.toNat && f.op.toNat ≤ 0xA

/-- WSEL is 0 unless the command is ZENC or ZDEC (R52, R54). -/
def CommandFields.wselAllowed (f : CommandFields) : Bool :=
  f.wsel == 0#2 || f.op == 0x7#4 || f.op == 0x8#4

/-- CHK is 0 unless the command is ZENC (R53, R54). -/
def CommandFields.chkAllowed (f : CommandFields) : Bool := f.chk == 0#1 || f.op == 0x7#4

/-- The fields are those of a legal command byte: none of the four conditions of R54 holds. -/
def CommandFields.wellFormed (f : CommandFields) : Bool :=
  f.reservedClear && f.opDefined && f.wselAllowed && f.chkAllowed

/-- A command is well-formed when its fields are. The types of the constructors' operands admit only
what R52 and R53 admit, so that every command is (Laws/PerInstr.lean). -/
def Instr.wellFormed (i : Instr) : Bool := i.fields.wellFormed

end Sys2Proof
end

