-- ==== Sys2Proof/Decode.lean ====
section
/-!
DEFINITION. The decoder of the command byte, total on all 256 values, and the encoder after it
(spec/30_encoding.md rules R50 to R56).
-/

namespace Sys2Proof

/-- Why a command byte encodes no command: the four conditions of R54, by name. Each ends the command
with ILLEGAL_COMMAND (60_exceptions.md R120), a next state; safe. -/
inductive IllegalByte where
  | reservedBit      -- bit 7 is 1
  | undefinedOp      -- OP is 0x0 or 0xB to 0xF
  | wselNotAllowed   -- WSEL is not 0 on a command other than ZENC and ZDEC
  | chkNotAllowed    -- CHK is 1 on a command other than ZENC
  deriving DecidableEq, Repr

/-- The fields of a byte (R50). -/
def splitByte (c : Byte) : CommandFields :=
  { reserved := c.extractLsb' 7 1
    chk      := c.extractLsb' 6 1
    wsel     := c.extractLsb' 4 2
    op       := c.extractLsb' 0 4 }

/-- The byte with given fields (R50). -/
def packByte (f : CommandFields) : Byte := ((f.reserved ++ f.chk) ++ f.wsel) ++ f.op

/-- The word type a WSEL value selects (R52). -/
def decodeWordType (w : BitVec 2) : WordType :=
  match w.toNat with
  | 0 => .u8
  | 1 => .u16
  | 2 => .u32
  | _ => .u64

/-- The command of fields that pass the checks of R54 (the table of R51). -/
def decodeOp (f : CommandFields) : Except IllegalByte Instr :=
  match f.op.toNat with
  | 0x1 => .ok .hdrn
  | 0x2 => .ok .hdrr
  | 0x3 => .ok .rcdf
  | 0x4 => .ok .rcdi
  | 0x5 => .ok .bmtf
  | 0x6 => .ok .bmti
  | 0x7 => .ok (.zenc (f.chk == 1#1) (decodeWordType f.wsel))
  | 0x8 => .ok (.zdec (decodeWordType f.wsel))
  | 0x9 => .ok .enc
  | 0xA => .ok .dec
  | _   => .error .undefinedOp

/-- The decoder: "total on all 256 values" (R54). -/
def decode (c : Byte) : Except IllegalByte Instr :=
  let f := splitByte c
  if !f.reservedClear then .error .reservedBit
  else if !f.opDefined then .error .undefinedOp
  else if !f.wselAllowed then .error .wselNotAllowed
  else if !f.chkAllowed then .error .chkNotAllowed
  else decodeOp f

/-- The command byte of a command. -/
def encode (i : Instr) : Byte := packByte i.fields

/-- The command that the decoder reads from a table word: its bits are bits 7:0 of `w`, the only
byte a command has (R50, R56). -/
def decodeTableWord (nbits w : Nat) : Option Instr :=
  match decode (BitVec.ofNat 8 (w % 2 ^ nbits)) with
  | .ok i => some i
  | .error _ => none

end Sys2Proof
end

