-- ==== Sys2Proof/Config.lean ====
section
/-!
DEFINITION. What an implementation fixes (the OPEN parameters of spec/00_scope.md rule R7) and the
free values: what the spec leaves unspecified (spec/93_implementation_defined.md U1 and U2).
-/

namespace Sys2Proof

/-- The four byte memories (10_state.md R19 to R22). They share no offset. -/
inductive MemId where
  | buf   -- the byte buffer, R19
  | tmp   -- the scratch of components C and D, R20
  | dns   -- the dense stream of the ZE codec, R21
  | bmap  -- the bitmap of the ZE codec, R22
  deriving DecidableEq, Repr

namespace Config

/-- The OPEN implementation parameters of 00_scope.md R7 with R7's constraints on the capacities and the
constraint `LANES >= 1` of 92_eei_decisions.md section 2 (60_exceptions.md R132). The constraints are
carried as proofs, so that a configuration that violates one cannot be built: "not a LICO-CORE at
all (it refuses to build), not ... a state of the machine" (60_exceptions.md R126). -/
structure Params where
  bufCap  : Nat
  tmpCap  : Nat
  dnsCap  : Nat
  bmapCap : Nat
  /-- Number of internal workers; no rule's result depends on it (20_memory.md R44). -/
  lanes   : Nat
  bufCap_ge  : 54 ≤ bufCap := by decide
  bufCap_le  : bufCap ≤ 2147483647 := by decide
  tmpCap_ge  : 8 * ((bufCap - 54 + 7) / 8) ≤ tmpCap := by decide
  dnsCap_ge  : bufCap ≤ dnsCap := by decide
  bmapCap_ge : (bufCap + 7) / 8 + 8 ≤ bmapCap := by decide
  lanes_ge   : 1 ≤ lanes := by decide
  deriving DecidableEq, Repr

/-- The capacity of each memory in bytes. -/
def Params.cap (p : Params) : MemId → Nat
  | .buf  => p.bufCap
  | .tmp  => p.tmpCap
  | .dns  => p.dnsCap
  | .bmap => p.bmapCap

/-- DESIGN CHOICE, unsafe (notes/assumptions/1.md): the parameters State.reset carries. BUF_CAP = 4096 is
the value of the vectors of 95_test_vectors.md; the other capacities are R7's defaults. -/
def defaultParams : Params :=
  { bufCap := 4096, tmpCap := 4048, dnsCap := 4096, bmapCap := 520, lanes := 1 }

/-- FREE VALUE, safe (notes/assumptions/2.md): what a memory byte holds that nothing has written since
the reset numbered by the first argument: "unspecified: every byte may hold any value, and the value
need not be the same after two resets" (10_state.md R27, U2). -/
opaque unwritten : Nat → MemId → Nat → Byte

/-- FREE VALUE, safe (notes/assumptions/3.md): the byte that a ZENC ending with CAPACITY_EXCEEDED leaves at
an offset of DNS or BMAP that 43_zero_elimination.md R103 (U1) calls unspecified; the first argument
is the draw, fresh for each such end. -/
opaque overflowByte : Nat → MemId → Nat → Byte

/-- FREE VALUE, safe (notes/assumptions/3.md): what such a ZENC leaves in ZLEN (R103, U1). -/
opaque overflowZlen : Nat → Word

end Config

end Sys2Proof
end

