-- ==== Sys2Proof/Machine/State.lean ====
section
/-!
DEFINITION. The state of LICO-CORE as plain data (spec/10_state.md rules R10 to R22), the accesses a host
can make, the reasons a step can stop, and the state after reset (rule R27).
-/

namespace Sys2Proof.Machine

/-- One access of the host (00_scope.md R8, 10_state.md R28). The statements of the host script of
30_encoding.md R57 are sequences of these. -/
inductive HostAccess where
  /-- Write a byte to CMD (register 0); the command executes (R11). -/
  | writeCmd (c : Byte)
  /-- Write 32 bits to the register with a number (R13 to R18). -/
  | writeReg (n : Nat) (v : Word)
  /-- Read the register with a number, whole (R11 to R18). -/
  | readReg (n : Nat)
  /-- Write one byte of a memory (R28). -/
  | writeMem (m : MemId) (a : Nat) (b : Byte)
  /-- Read one byte of a memory (R28). -/
  | readMem (m : MemId) (a : Nat)
  /-- Reset the engine between commands (70_reset_and_hazards.md R140). -/
  | reset
  deriving DecidableEq, Repr

/-- Reasons a step stops with a fault. No command raises one. -/
inductive Fault where
  /-- Raised by a host read or write of a memory at an offset at or above its capacity: the spec says no such
  byte exists (20_memory.md R30). Safe: the model stops (notes/assumptions/7.md). -/
  | noSuchOffset (m : MemId) (a : Nat)
  deriving DecidableEq, Repr

/-- Reasons a step is refused. No command raises one. -/
inductive Refusal where
  /-- Raised by an arm of `exec` whose instruction has no meaning yet; no arm does. Safe. -/
  | notModelled (mnemonic : String)
  /-- Raised by a host write of 32 bits to the 8-bit register CMD: "partial-width register access is
  not defined and a model need not offer it" (10_state.md R18, U9). Safe (notes/assumptions/6.md). -/
  | notWholeRegister (n : Nat)
  deriving DecidableEq, Repr

/-- The whole machine. The first group is the architectural state of 10_state.md R10; the second group
is the model's own (INVENTORY.md, heading State). -/
structure State where
  /-- Register 0, 8 bits, host read/write (R11). -/
  cmd    : Byte
  /-- Register 1, 8 bits, host read-only: CODE in bits 2:0 (R12). -/
  status : Byte
  /-- Register 2: the length in bytes of the buffer in BUF (R13). -/
  len    : Word
  /-- Register 3: the offset in BUF of word 0 of the ZE word stream (R14). -/
  zbase  : Word
  /-- Register 4: the ZE word count (R15). -/
  zn     : Word
  /-- Register 5: the most dense words a checked ZENC may append (R16). -/
  zcap   : Word
  /-- Register 6, host read-only: the dense length of the last ZENC (R17). -/
  zlen   : Word
  /-- The byte buffer (R19): the bytes written since reset, in the canonical form of `Memory.wf`. -/
  buf    : List Host.Cell
  /-- The scratch of components C and D (R20). -/
  tmp    : List Host.Cell
  /-- The dense stream (R21). -/
  dns    : List Host.Cell
  /-- The bitmap (R22). -/
  bmap   : List Host.Cell
  /-- The model's own: the implementation's parameters (00_scope.md R7), changed by no step. -/
  params   : Config.Params
  /-- The model's own: the accesses the host is still going to make, the next one first. -/
  pending  : List HostAccess
  /-- The model's own: what the host's last read access delivered. -/
  hostData : Word
  /-- The model's own: the number of resets applied, which numbers the unwritten contents of memory. -/
  epoch    : Nat
  /-- The model's own: how often free values were drawn for a CAPACITY_EXCEEDED. -/
  draws    : Nat
  deriving DecidableEq, Repr

/-- The machine right after reset (10_state.md R27, 70_reset_and_hazards.md R140): every register 0, no
memory byte specified, no command executed. The model's own fields: notes/assumptions/1.md to 5.md. -/
def State.reset : State :=
  { cmd := 0#8, status := 0#8, len := 0#32, zbase := 0#32, zn := 0#32, zcap := 0#32, zlen := 0#32
    buf := [], tmp := [], dns := [], bmap := []
    params := Config.defaultParams, pending := [], hostData := 0#32, epoch := 0, draws := 0 }

end Sys2Proof.Machine
end

