-- ==== Sys2Proof/Machine/Flags.lean ====
section
/-!
DEFINITION. The one condition code of LICO-CORE: STATUS.CODE (spec/10_state.md rules R12 and R24,
spec/60_exceptions.md rule R120).
-/

namespace Sys2Proof.Machine

/-- The outcomes of a command (R12, R120). Codes 6 and 7 are never produced. -/
inductive Code where
  | ok
  | inputTooSmall
  | unsupportedFormat
  | capacityExceeded
  | paramError
  | illegalCommand
  deriving DecidableEq, Repr

/-- The number of each code (R12). -/
def Code.bits : Code → BitVec 3
  | .ok                => 0#3
  | .inputTooSmall     => 1#3
  | .unsupportedFormat => 2#3
  | .capacityExceeded  => 3#3
  | .paramError        => 4#3
  | .illegalCommand    => 5#3

/-- STATUS holding a code: CODE in bits 2:0, bits 7:3 zero (R12). -/
def statusOf (c : Code) : Byte := 0#5 ++ c.bits

/-- `reg.STATUS.CODE <- c` (R12, R124). -/
def State.setCode (s : State) (c : Code) : State := { s with status := statusOf c }

/-- The field CODE of STATUS. -/
def State.code (s : State) : BitVec 3 := s.status.extractLsb' 0 3

/-- STATUS as the host reads it: "bits 7:3 always read 0" (R12). -/
def State.statusRead (s : State) : Byte := 0#5 ++ s.code

end Sys2Proof.Machine
end

