-- ==== Sys2Proof/Machine/Ops.lean ====
section
/-!
DEFINITION. The named operations over loops, memories and registers that the meanings share: bounded
loops, byte access, little-endian access (spec/20_memory.md rules R30 to R32, R37), the one way a command
ends in an error (spec/60_exceptions.md rule R122), and the checks that open a command (rule R123).
-/

namespace Sys2Proof.Machine

/-- `for i in 0 .. n-1`: the body is run for 0 first. The bound is fixed before the loop starts
(70_reset_and_hazards.md R147). -/
def loop {σ : Type} (n : Nat) (body : Nat → σ → σ) (start : σ) : σ :=
  match n with
  | 0     => start
  | k + 1 => body k (loop k body start)

/-- A memory's contents: the bytes written since reset, in one canonical form (`Memory.wf`). -/
abbrev Memory := List Host.Cell

/-- The canonical form: offsets strictly rising. No listed byte is "what an unlisted offset reads as",
since that is no particular byte (notes/assumptions/2.md). -/
def Memory.wf : Memory → Bool
  | [] => true
  | [_] => true
  | (a, _) :: (a', b') :: rest => a < a' && Memory.wf ((a', b') :: rest)

/-- Every listed offset lies below a capacity (20_memory.md R30: "the largest offset is the memory's
capacity minus one"). -/
def Memory.below (cap : Nat) (m : Memory) : Bool := m.all (fun c => c.1 < cap)

/-- The byte written at an offset since reset, if any. -/
def Memory.lookup (m : Memory) (a : Nat) : Option Byte :=
  match m with
  | [] => none
  | (k, v) :: rest => if k = a then some v else Memory.lookup rest a

/-- `M[a]`, with the given contents for the offsets that nothing has written. -/
def Memory.read (unwritten : Nat → Byte) (m : Memory) (a : Nat) : Byte :=
  match Memory.lookup m a with
  | some v => v
  | none   => unwritten a

/-- `M[a] <- b`, keeping the canonical form. -/
def Memory.write (m : Memory) (a : Nat) (b : Byte) : Memory :=
  match m with
  | [] => [(a, b)]
  | (k, v) :: rest =>
    if a < k then (a, b) :: (k, v) :: rest
    else if a = k then (a, b) :: rest
    else (k, v) :: Memory.write rest a b

/-- `MemRead(M, a, n)` of 20_memory.md R31, over the bytes of a memory: the byte at the lowest offset is
the least significant. -/
def readLE (rd : Nat → Byte) (a : Nat) : Nat → Nat
  | 0     => 0
  | n + 1 => (rd a).toNat + 256 * readLE rd (a + 1) n

/-- `MemWrite(M, a, n, v)` of 20_memory.md R32, for any integer `v`: byte `k` is `(v >> (8*k)) & 0xFF`, and
"overflow bits are discarded". -/
def writeLE (m : Memory) (a : Nat) (n : Nat) (v : Int) : Memory :=
  match n with
  | 0     => m
  | k + 1 => writeLE (Memory.write m a (BitVec.ofInt 8 v)) (a + 1) k (v / 256)

/-- The contents of one of the four memories. -/
def State.mem (s : State) : MemId → Memory
  | .buf  => s.buf
  | .tmp  => s.tmp
  | .dns  => s.dns
  | .bmap => s.bmap

/-- Replace the contents of one of the four memories. -/
def State.setMem (s : State) (m : MemId) (c : Memory) : State :=
  match m with
  | .buf  => { s with buf := c }
  | .tmp  => { s with tmp := c }
  | .dns  => { s with dns := c }
  | .bmap => { s with bmap := c }

/-- What the unwritten bytes of a memory hold in this epoch: any value (10_state.md R27). -/
def State.unwritten (s : State) (m : MemId) : Nat → Byte := Config.unwritten s.epoch m

/-- `M[a]`: one byte of one memory (00_scope.md R9). -/
def State.byte (s : State) (m : MemId) (a : Nat) : Byte := Memory.read (s.unwritten m) (s.mem m) a

/-- `M[a] <- b` (00_scope.md R9). -/
def State.setByte (s : State) (m : MemId) (a : Nat) (b : Byte) : State :=
  s.setMem m (Memory.write (s.mem m) a b)

/-- `reg.CMD <- c` (10_state.md R11). -/
def State.setCmd (s : State) (c : Byte) : State := { s with cmd := c }

/-- `reg.ZLEN <- v` (10_state.md R17). -/
def State.setZlen (s : State) (v : Word) : State := { s with zlen := v }

/-- The value of the host's read, delivered (10_state.md R11, R28). -/
def State.deliver (s : State) (v : Word) : State := { s with hostData := v }

/-- `raise Err(CODE)` (60_exceptions.md R122): the command ends, STATUS.CODE takes the code, nothing else
changes. LICO-CORE's counterpart of taking an exception; there is no return (R128). -/
def raiseErr (c : Code) (s : State) : Host.Outcome State Fault Refusal := .next (s.setCode c)

/-- A command that has run its transform ends with OK (60_exceptions.md R124). -/
def finish (s : State) : Host.Outcome State Fault Refusal := .next (s.setCode .ok)

/-- The checks of the header, stage and pipeline commands, in the order of 60_exceptions.md R123, and then
the transform. `accept` is what the command requires of the header. -/
def guarded (accept : State → Bool) (transform : State → State) (s : State) :
    Host.Outcome State Fault Refusal :=
  if s.params.bufCap < s.len.toNat then raiseErr .paramError s
  else if s.len.toNat < 54 then raiseErr .inputTooSmall s
  else if !accept s then raiseErr .unsupportedFormat s
  else finish (transform s)

/-- Reset between commands (70_reset_and_hazards.md R140, 10_state.md R27): registers to 0, memories
unspecified, no command executed. The host's remaining accesses and what it has read are its own. -/
def State.applyReset (s : State) : State :=
  { s with
    cmd := 0#8, status := 0#8, len := 0#32, zbase := 0#32, zn := 0#32, zcap := 0#32, zlen := 0#32
    buf := [], tmp := [], dns := [], bmap := [], epoch := s.epoch + 1 }

end Sys2Proof.Machine
end

