-- ==== Sys2Proof/Machine/Operands.lean ====
section
/-!
DEFINITION. What commands compute from their operands: component A's helpers (spec/20_memory.md rules R33
to R36), the image geometry (spec/40_header.md rule R70, spec/42_bit_transpose.md rule R90,
spec/20_memory.md rules R40 and R41), and the quantities of the ZE codec (spec/43_zero_elimination.md
rule R100).
-/

namespace Sys2Proof.Machine

/-- `get16(M, a)` (20_memory.md R33): never negative. -/
def get16 (rd : Nat → Byte) (a : Nat) : Int := (readLE rd a 2 : Int)

/-- `get32(M, a)` (20_memory.md R34): signed. -/
def get32 (rd : Nat → Byte) (a : Nat) : Int := asI32 (readLE rd a 4)

/-- `set16(M, a, v)` (20_memory.md R35). -/
def set16 (m : Memory) (a : Nat) (v : Int) : Memory := writeLE m a 2 v

/-- `set32(M, a, v)` (20_memory.md R36). -/
def set32 (m : Memory) (a : Nat) (v : Int) : Memory := writeLE m a 4 v

/-- The header field W (30_encoding.md R58, 40_header.md R70). -/
def State.widthField (s : State) : Int := get32 (s.byte .buf) 18

/-- The header field H (30_encoding.md R58, 40_header.md R70). -/
def State.heightField (s : State) : Int := get32 (s.byte .buf) 22

/-- The geometry of an image with W >= 1 and H >= 1. -/
structure Geom where
  w : Nat
  h : Nat
  deriving DecidableEq, Repr

/-- The row stride `S = ((3*W + 3) & ~3)`: the least multiple of 4 that is `>= 3*W` (30_encoding.md R59). -/
def Geom.stride (g : Geom) : Nat := (3 * g.w + 3) / 4 * 4

/-- `n3 = 3*W*H`, the residual byte count (00_scope.md R9). -/
def Geom.n3 (g : Geom) : Nat := 3 * g.w * g.h

/-- `extra = n3 mod 8` (42_bit_transpose.md R90). -/
def Geom.extra (g : Geom) : Nat := g.n3 % 8

/-- `esize = n3 - extra` (42_bit_transpose.md R90). -/
def Geom.esize (g : Geom) : Nat := g.n3 - g.extra

/-- `groups = esize / 8` (42_bit_transpose.md R90). -/
def Geom.groups (g : Geom) : Nat := g.esize / 8

/-- The offset in BUF of channel 0 of the pixel in row `y`, column `x` (20_memory.md R40). -/
def Geom.pixelAddr (g : Geom) (y x : Nat) : Nat := 54 + y * g.stride + 3 * x

/-- The offset in TMP of the residual of channel `k` of the pixel in row `y`, column `x`
(20_memory.md R41). -/
def Geom.planeAddr (g : Geom) (k y x : Nat) : Nat := k * (g.w * g.h) + y + x * g.h

/-- The offset in BUF of byte `g` of bit-plane slab `j` (30_encoding.md R62). -/
def Geom.slabAddr (g : Geom) (j i : Nat) : Nat := 54 + i + j * g.groups

/-- The geometry in the header, for fields that are at least 1 (`geomOK` checks that first). -/
def State.geom (s : State) : Geom := { w := s.widthField.toNat, h := s.heightField.toNat }

/-- `GeomOK` (40_header.md R70). -/
def geomOK (s : State) : Bool :=
  decide (54 ≤ s.len.toNat) && decide (1 ≤ s.widthField) && decide (1 ≤ s.heightField)
    && decide (54 + s.geom.h * s.geom.stride = s.len.toNat)

/-- The word size in bytes, `s = 2^WSEL` (30_encoding.md R52). -/
def wordBytes : WordType → Nat
  | .u8  => 1
  | .u16 => 2
  | .u32 => 4
  | .u64 => 8

/-- The word width in bits, `b = 8*s` (30_encoding.md R52). -/
def wordBits (t : WordType) : Nat := 8 * wordBytes t

/-- `num = ceil(N / b)`, the number of bitmap words (43_zero_elimination.md R100). -/
def bitmapWords (t : WordType) (n : Nat) : Nat := (n + wordBits t - 1) / wordBits t

/-- `in[k]`: word `k` of the ZE word stream in BUF (43_zero_elimination.md R100). -/
def State.zeWord (s : State) (t : WordType) (k : Nat) : Nat :=
  readLE (s.byte .buf) (s.zbase.toNat + k * wordBytes t) (wordBytes t)

/-- `dense[p]` (43_zero_elimination.md R100). -/
def State.denseWord (s : State) (t : WordType) (p : Nat) : Nat :=
  readLE (s.byte .dns) (p * wordBytes t) (wordBytes t)

/-- `bitmap[i]` (43_zero_elimination.md R100). -/
def State.bitmapWord (s : State) (t : WordType) (i : Nat) : Nat :=
  readLE (s.byte .bmap) (i * wordBytes t) (wordBytes t)

/-- `ZeRangeOK` (43_zero_elimination.md R100), on mathematical integers. -/
def zeRangeOK (t : WordType) (s : State) : Bool :=
  decide (s.zbase.toNat + s.zn.toNat * wordBytes t ≤ s.params.bufCap)

end Sys2Proof.Machine
end

