-- ==== Sys2Proof/Machine/BitTranspose.lean ====
section
/-!
DEFINITION. Component D, the 8×8 bit-matrix transposer: BMTF and BMTI (spec/42_bit_transpose.md).
-/

namespace Sys2Proof.Machine

/-- One layer of the butterfly: exchange the bits under the mask with those `k` places above. -/
def swapLayer (k : Nat) (mask x : BitVec 64) : BitVec 64 :=
  let t := (x ^^^ (x >>> k)) &&& mask
  x ^^^ t ^^^ (t <<< k)

/-- `Transpose8(x)` by the three-layer butterfly (42_bit_transpose.md R91). -/
def transpose8 (x : BitVec 64) : BitVec 64 :=
  swapLayer 28 0x00000000F0F0F0F0#64
    (swapLayer 14 0x0000CCCC0000CCCC#64
      (swapLayer 7 0x00AA00AA00AA00AA#64 x))

/-- Byte `j` of a 64-bit word: bits `8*j+7 : 8*j`. -/
def wordByte (z : BitVec 64) (j : Nat) : Byte := z.extractLsb' (8 * j) 8

/-- The 64-bit word of TMP that group `i` reads (42_bit_transpose.md R92). -/
def groupWord (rd : Nat → Byte) (i : Nat) : BitVec 64 := BitVec.ofNat 64 (readLE rd (8 * i) 8)

/-- The 64-bit word that group `i` gathers from the slabs (42_bit_transpose.md R95): byte `j` is the byte
of slab `j`. -/
def slabWord (g : Geom) (rd : Nat → Byte) (i : Nat) : BitVec 64 :=
  BitVec.ofNat 64 (readLE (fun j => rd (g.slabAddr j i)) 0 8)

/-- One group of `BitTransposeForward` (42_bit_transpose.md R92). -/
def groupForward (g : Geom) (rd : Nat → Byte) (i : Nat) (buf : Memory) : Memory :=
  let z := transpose8 (groupWord rd i)
  loop 8 (fun j m => Memory.write m (g.slabAddr j i) (wordByte z j)) buf

/-- `BitTransposeForward` (42_bit_transpose.md R92): from TMP, read by `rd`, into the pixel region of BUF. -/
def bitTransposeForward (g : Geom) (rd : Nat → Byte) (buf : Memory) : Memory :=
  loop g.extra (fun k m => Memory.write m (54 + g.esize + k) (rd (g.esize + k)))
    (loop g.groups (groupForward g rd) buf)

/-- The tail (42_bit_transpose.md R93): `BUF[a] <- 0x00` for `a` in `54 + n3 .. LEN-1`. -/
def zeroTail (g : Geom) (len : Nat) (buf : Memory) : Memory :=
  loop (len - (54 + g.n3)) (fun k m => Memory.write m (54 + g.n3 + k) 0#8) buf

/-- `BitTransposeInverse` (42_bit_transpose.md R95): from the pixel region of BUF, read by `rd`, into TMP. -/
def bitTransposeInverse (g : Geom) (rd : Nat → Byte) (tmp : Memory) : Memory :=
  loop g.extra (fun k m => Memory.write m (g.esize + k) (rd (54 + g.esize + k)))
    (loop g.groups (fun i m => writeLE m (8 * i) 8 (transpose8 (slabWord g rd i)).toNat) tmp)

/-- Component D forward on the machine, with the tail. -/
def stageBitTranspose (s : State) : State :=
  s.setMem .buf (zeroTail s.geom s.len.toNat (bitTransposeForward s.geom (s.byte .tmp) s.buf))

/-- Component D inverse on the machine. -/
def stageBitTransposeInv (s : State) : State :=
  s.setMem .tmp (bitTransposeInverse s.geom (s.byte .buf) s.tmp)

/-- BMTF (42_bit_transpose.md R94). -/
def execBmtf (s : State) : Host.Outcome State Fault Refusal := guarded geomOK stageBitTranspose s

/-- BMTI (42_bit_transpose.md R96). -/
def execBmti (s : State) : Host.Outcome State Fault Refusal := guarded geomOK stageBitTransposeInv s

end Sys2Proof.Machine
end

