-- ==== Sys2Proof/Machine/Header.lean ====
section
/-!
DEFINITION. Component B, the header validator and neutraliser: HDRN and HDRR (spec/40_header.md).
-/

namespace Sys2Proof.Machine

/-- `AcceptFwd`, the validator (40_header.md R71). -/
def acceptFwd (s : State) : Bool :=
  let rd := s.byte .buf
  let g := s.geom
  decide (54 ≤ s.len.toNat)
    && rd 0 == 0x42#8 && rd 1 == 0x4D#8
    && get32 rd 6 == 0
    && get32 rd 10 == 54
    && get32 rd 14 == 40
    && get16 rd 26 == 1
    && get16 rd 28 == 24
    && get32 rd 30 == 0
    && get32 rd 46 == 0
    && get32 rd 50 == 0
    && decide (1 ≤ s.widthField) && decide (1 ≤ s.heightField)
    && get32 rd 2 == ((54 + g.h * g.stride : Nat) : Int)
    && get32 rd 34 == ((g.h * g.stride : Nat) : Int)
    && get32 rd 2 == (s.len.toNat : Int)

/-- `AcceptInv`, the check of the inverse direction (40_header.md R73). -/
def acceptInv (s : State) : Bool :=
  let rd := s.byte .buf
  decide (54 ≤ s.len.toNat)
    && rd 0 == 0#8 && rd 1 == 0#8
    && get32 rd 2 == 0
    && get32 rd 6 == 0
    && get32 rd 10 == 0
    && get32 rd 14 == 0
    && get16 rd 26 == 0
    && get16 rd 28 == 0
    && get32 rd 30 == 0
    && get32 rd 34 == 0
    && get32 rd 46 == 0
    && get32 rd 50 == 0
    && geomOK s

/-- Add an integer to a one-byte field, modulo 256. -/
def addByte (unwritten : Nat → Byte) (a : Nat) (d : Int) (m : Memory) : Memory :=
  Memory.write m a (BitVec.ofInt 8 ((Memory.read unwritten m a).toNat + d))

/-- Add an integer to a 16-bit field: `set16(M, a, get16(M, a) + d)`. -/
def add16 (unwritten : Nat → Byte) (a : Nat) (d : Int) (m : Memory) : Memory :=
  set16 m a (get16 (Memory.read unwritten m) a + d)

/-- Add an integer to a 32-bit field: `set32(M, a, get32(M, a) + d)`. -/
def add32 (unwritten : Nat → Byte) (a : Nat) (d : Int) (m : Memory) : Memory :=
  set32 m a (get32 (Memory.read unwritten m) a + d)

/-- `NeutraliseHeader` (40_header.md R75): the nine writes, in the rule's order. `u` is what the unwritten
bytes of BUF hold; `g` is read before the first write. -/
def neutraliseHeader (u : Nat → Byte) (g : Geom) (m : Memory) : Memory :=
  let m := addByte u 0 (-0x42) m
  let m := addByte u 1 (-0x4D) m
  let m := add32 u 2 (-((g.h * g.stride + 54 : Nat) : Int)) m
  let m := add32 u 10 (-54) m
  let m := add32 u 14 (-40) m
  let m := add16 u 26 (-1) m
  let m := add16 u 28 (-24) m
  let m := add32 u 34 (-((g.h * g.stride : Nat) : Int)) m
  add32 u 42 (-(get32 (Memory.read u m) 38)) m

/-- `RestoreHeader` (40_header.md R76): "exactly the opposite additions against the same formulas". -/
def restoreHeader (u : Nat → Byte) (g : Geom) (m : Memory) : Memory :=
  let m := addByte u 0 0x42 m
  let m := addByte u 1 0x4D m
  let m := add32 u 2 ((g.h * g.stride + 54 : Nat) : Int) m
  let m := add32 u 10 54 m
  let m := add32 u 14 40 m
  let m := add16 u 26 1 m
  let m := add16 u 28 24 m
  let m := add32 u 34 ((g.h * g.stride : Nat) : Int) m
  add32 u 42 (get32 (Memory.read u m) 38) m

/-- Component B forward on the machine: `NeutraliseHeader` on BUF. -/
def stageNeutralise (s : State) : State :=
  s.setMem .buf (neutraliseHeader (s.unwritten .buf) s.geom s.buf)

/-- Component B inverse on the machine: `RestoreHeader` on BUF. -/
def stageRestore (s : State) : State :=
  s.setMem .buf (restoreHeader (s.unwritten .buf) s.geom s.buf)

/-- HDRN (40_header.md R72). -/
def execHdrn (s : State) : Host.Outcome State Fault Refusal := guarded acceptFwd stageNeutralise s

/-- HDRR (40_header.md R74). -/
def execHdrr (s : State) : Host.Outcome State Fault Refusal := guarded acceptInv stageRestore s

end Sys2Proof.Machine
end

