-- ==== Sys2Proof/Machine/RowDiff.lean ====
section
/-!
DEFINITION. Component C, the row/channel differencer, TCMS mapper, deinterleaver and transposer: RCDF and
RCDI (spec/41_rowdiff_tcms.md).
-/

namespace Sys2Proof.Machine

/-- `TCMS(s)` on the 32-bit pattern of its argument (41_rowdiff_tcms.md R80, the first formula). -/
def tcms (p : BitVec 32) : Byte :=
  let a := p <<< 1
  let m := if (p <<< 24).getLsbD 31 then 0xFFFFFFFF#32 else 0#32
  (a ^^^ m).setWidth 8

/-- `ITCMS(u)` (41_rowdiff_tcms.md R81). -/
def itcms (u : Byte) : Byte := (u >>> 1) ^^^ (if u.getLsbD 0 then 0xFF#8 else 0#8)

/-- Three bytes, one per channel: a pixel, a predictor, or the residuals of a pixel. -/
structure Triple where
  c0 : Byte
  c1 : Byte
  c2 : Byte
  deriving DecidableEq, Repr

/-- The pixel in row `y`, column `x` of the pixel region (20_memory.md R40). -/
def pixelAt (g : Geom) (rd : Nat → Byte) (y x : Nat) : Triple :=
  { c0 := rd (g.pixelAddr y x), c1 := rd (g.pixelAddr y x + 1), c2 := rd (g.pixelAddr y x + 2) }

/-- Write the pixel in row `y`, column `x`. -/
def storePixel (g : Geom) (y x : Nat) (p : Triple) (m : Memory) : Memory :=
  let m := Memory.write m (g.pixelAddr y x) p.c0
  let m := Memory.write m (g.pixelAddr y x + 1) p.c1
  Memory.write m (g.pixelAddr y x + 2) p.c2

/-- The residuals in TMP of the pixel in row `y`, column `x` (20_memory.md R41). -/
def residualAt (g : Geom) (rd : Nat → Byte) (y x : Nat) : Triple :=
  { c0 := rd (g.planeAddr 0 y x), c1 := rd (g.planeAddr 1 y x), c2 := rd (g.planeAddr 2 y x) }

/-- Write the residuals of the pixel in row `y`, column `x`. -/
def storeResidual (g : Geom) (y x : Nat) (r : Triple) (m : Memory) : Memory :=
  let m := Memory.write m (g.planeAddr 0 y x) r.c0
  let m := Memory.write m (g.planeAddr 1 y x) r.c1
  Memory.write m (g.planeAddr 2 y x) r.c2

/-- The predictor of the first column: zero in row 0, else the pixel in column 0 of the row before
(41_rowdiff_tcms.md R82 step 1, R84). -/
def firstPredictor (g : Geom) (rd : Nat → Byte) (y : Nat) : Triple :=
  if y = 0 then { c0 := 0#8, c1 := 0#8, c2 := 0#8 } else pixelAt g rd (y - 1) 0

/-- The residuals of a pixel `n` with predictor `p` (41_rowdiff_tcms.md R82 step 2), in 32-bit
two's complement. -/
def residual (n p : Triple) : Triple :=
  let v0 := n.c0.setWidth 32 - p.c0.setWidth 32
  let v1 := n.c1.setWidth 32 - p.c1.setWidth 32
  let v2 := n.c2.setWidth 32 - p.c2.setWidth 32
  { c0 := tcms (v0 - v1), c1 := tcms v1, c2 := tcms (v2 - v1) }

/-- The pixel whose residuals with predictor `p` are `u` (41_rowdiff_tcms.md R84), modulo 256. -/
def rebuild (u p : Triple) : Triple :=
  let r0 := itcms u.c0
  let r1 := itcms u.c1
  let r2 := itcms u.c2
  { c0 := p.c0 + (r0 + r1), c1 := p.c1 + r1, c2 := p.c2 + (r2 + r1) }

/-- One row of `RowDiffForward` (41_rowdiff_tcms.md R82): columns left to right, the predictor carried. `rd`
reads BUF, which is not written. -/
def rowForward (g : Geom) (rd : Nat → Byte) (y : Nat) (tmp : Memory) : Memory :=
  (loop g.w
    (fun x acc =>
      let n := pixelAt g rd y x
      (storeResidual g y x (residual n acc.2) acc.1, n))
    (tmp, firstPredictor g rd y)).1

/-- `RowDiffForward` (41_rowdiff_tcms.md R82): from BUF, read by `rd`, into TMP. -/
def rowDiffForward (g : Geom) (rd : Nat → Byte) (tmp : Memory) : Memory :=
  loop g.h (rowForward g rd) tmp

/-- The pixels of one row of `RowDiffInverse` (41_rowdiff_tcms.md R84), left to right. -/
def rowPixels (g : Geom) (rd u : Nat → Byte) (y : Nat) (buf : Memory) : Memory :=
  (loop g.w
    (fun x acc =>
      let n := rebuild (residualAt g rd y x) acc.2
      (storePixel g y x n acc.1, n))
    (buf, firstPredictor g (Memory.read u buf) y)).1

/-- The padding bytes of one row are written with zero (41_rowdiff_tcms.md R84). -/
def rowPadding (g : Geom) (y : Nat) (buf : Memory) : Memory :=
  loop (g.stride - 3 * g.w) (fun i m => Memory.write m (54 + y * g.stride + (3 * g.w + i)) 0#8) buf

/-- `RowDiffInverse` (41_rowdiff_tcms.md R84, R87): from TMP, read by `rd`, into BUF, whose unwritten bytes
hold `u`; rows in increasing order, each completely. -/
def rowDiffInverse (g : Geom) (rd u : Nat → Byte) (buf : Memory) : Memory :=
  loop g.h (fun y m => rowPadding g y (rowPixels g rd u y m)) buf

/-- Component C forward on the machine. -/
def stageRowDiff (s : State) : State :=
  s.setMem .tmp (rowDiffForward s.geom (s.byte .buf) s.tmp)

/-- Component C inverse on the machine. -/
def stageRowDiffInv (s : State) : State :=
  s.setMem .buf (rowDiffInverse s.geom (s.byte .tmp) (s.unwritten .buf) s.buf)

/-- RCDF (41_rowdiff_tcms.md R83). -/
def execRcdf (s : State) : Host.Outcome State Fault Refusal := guarded geomOK stageRowDiff s

/-- RCDI (41_rowdiff_tcms.md R85). -/
def execRcdi (s : State) : Host.Outcome State Fault Refusal := guarded geomOK stageRowDiffInv s

end Sys2Proof.Machine
end

