-- ==== Sys2Proof/Machine/Pipeline.lean ====
section
/-!
DEFINITION. Component F, the pipeline driver: ENC and DEC (spec/44_pipeline.md). Each stage reads W and H
from the header in BUF, which no stage changes (rules R110 and R111).
-/

namespace Sys2Proof.Machine

/-- The stages of ENC in order: B, C, D and the tail (44_pipeline.md R110). -/
def stagesEncode (s : State) : State := stageBitTranspose (stageRowDiff (stageNeutralise s))

/-- The stages of DEC in order: the inverses of D, C and B (44_pipeline.md R111). -/
def stagesDecode (s : State) : State := stageRestore (stageRowDiffInv (stageBitTransposeInv s))

/-- ENC (44_pipeline.md R110). -/
def execEnc (s : State) : Host.Outcome State Fault Refusal := guarded acceptFwd stagesEncode s

/-- DEC (44_pipeline.md R111): `AcceptInv` is evaluated before any write. -/
def execDec (s : State) : Host.Outcome State Fault Refusal := guarded acceptInv stagesDecode s

end Sys2Proof.Machine
end

