-- ==== Sys2Proof/Machine/ZeroElim.lean ====
section
/-!
DEFINITION. Component E, the zero-elimination word compactor with its bitmap encoder: ZENC and ZDEC
(spec/43_zero_elimination.md).
-/

namespace Sys2Proof.Machine

/-- The working values of `ZeEncode` (43_zero_elimination.md R101): the two output memories, the dense
position `pos` and the bitmap word `bm` of the group. -/
structure EncodeAcc where
  dns  : Memory
  bmap : Memory
  pos  : Nat
  bm   : Nat
  deriving DecidableEq, Repr

/-- `ZeEncode` at bit `j` of group `i`, for a word stream `word` of `n` words and the capacity `cap?` of a
checked encode; `none` is the capacity failure (43_zero_elimination.md R101, R103). -/
def encodeWord (t : WordType) (word : Nat → Nat) (n : Nat) (cap? : Option Nat) (i j : Nat)
    (acc : EncodeAcc) : Option EncodeAcc :=
  let k := i * wordBits t + j
  if k < n then
    if word k = 0 then some acc
    else if cap?.any (fun cap => cap ≤ acc.pos) then none
    else some { acc with
      dns := writeLE acc.dns (acc.pos * wordBytes t) (wordBytes t) (word k)
      pos := acc.pos + 1
      bm  := acc.bm ||| (1 <<< j) }
  else some acc

/-- Group `i` of `ZeEncode`: scan its words, then write its bitmap word (43_zero_elimination.md R101). -/
def encodeGroup (t : WordType) (word : Nat → Nat) (n : Nat) (cap? : Option Nat) (i : Nat)
    (acc : EncodeAcc) : Option EncodeAcc :=
  (loop (wordBits t) (fun j o => o.bind (encodeWord t word n cap? i j)) (some { acc with bm := 0 })).map
    (fun a => { a with bmap := writeLE a.bmap (i * wordBytes t) (wordBytes t) a.bm })

/-- `ZeEncode` (43_zero_elimination.md R101): the memories DNS and BMAP after it and the dense length, or
`none` on a capacity failure. -/
def zeEncode (t : WordType) (word : Nat → Nat) (n : Nat) (cap? : Option Nat) (dns bmap : Memory) :
    Option EncodeAcc :=
  loop (bitmapWords t n) (fun i o => o.bind (encodeGroup t word n cap? i))
    (some { dns := dns, bmap := bmap, pos := 0, bm := 0 })

/-- Overwrite the first `n` bytes of a memory. -/
def fillFirst (n : Nat) (v : Nat → Byte) (m : Memory) : Memory :=
  loop n (fun a m => Memory.write m a (v a)) m

/-- The state a capacity failure leaves (43_zero_elimination.md R103): `DNS[0 .. ZCAP*s)`,
`BMAP[0 .. num*s)` and ZLEN hold free values (notes/assumptions/3.md), everything else is as before. -/
def overflowState (t : WordType) (s : State) : State :=
  { s with
    dns  := fillFirst (s.zcap.toNat * wordBytes t) (Config.overflowByte s.draws .dns) s.dns
    bmap := fillFirst (bitmapWords t s.zn.toNat * wordBytes t) (Config.overflowByte s.draws .bmap) s.bmap
    zlen := Config.overflowZlen s.draws
    draws := s.draws + 1 }

/-- The `cap` argument of Encode: ZCAP when CHK = 1; "unchecked mode trusts its cap" (10_state.md R16). -/
def State.capOf (s : State) (chk : Bool) : Option Nat := if chk then some s.zcap.toNat else none

/-- ZENC (43_zero_elimination.md R102). -/
def execZenc (chk : Bool) (t : WordType) (s : State) : Host.Outcome State Fault Refusal :=
  if !zeRangeOK t s then raiseErr .paramError s
  else
    match zeEncode t (s.zeWord t) s.zn.toNat (s.capOf chk) s.dns s.bmap with
    | none => raiseErr .capacityExceeded (overflowState t s)
    | some r => finish { s with dns := r.dns, bmap := r.bmap, zlen := BitVec.ofNat 32 r.pos }

/-- `bitmap[i][j]` for the word with index `k` (43_zero_elimination.md R104). -/
def bitmapBit (t : WordType) (bitmap : Nat → Nat) (k : Nat) : Bool :=
  (bitmap (k / wordBits t)).testBit (k % wordBits t)

/-- `ZeDecode` (43_zero_elimination.md R104) into BUF from `base`: the memory after it and the dense position. -/
def zeDecode (t : WordType) (bitmap dense : Nat → Nat) (n base : Nat) (buf : Memory) : Memory × Nat :=
  loop n
    (fun k acc =>
      let a := base + k * wordBytes t
      if bitmapBit t bitmap k then (writeLE acc.1 a (wordBytes t) (dense acc.2), acc.2 + 1)
      else (writeLE acc.1 a (wordBytes t) 0, acc.2))
    (buf, 0)

/-- Component E decode on the machine. -/
def stageZeDecode (t : WordType) (s : State) : State :=
  s.setMem .buf (zeDecode t (s.bitmapWord t) (s.denseWord t) s.zn.toNat s.zbase.toNat s.buf).1

/-- ZDEC (43_zero_elimination.md R105). -/
def execZdec (t : WordType) (s : State) : Host.Outcome State Fault Refusal :=
  if !zeRangeOK t s then raiseErr .paramError s else finish (stageZeDecode t s)

end Sys2Proof.Machine
end

