-- ==== Sys2Proof/Machine/Dispatch.lean ====
section
/-!
DEFINITION. The meaning of every command, one arm per constructor of `Instr` (spec/30_encoding.md rule R51).
-/

namespace Sys2Proof.Machine

def exec (i : Instr) (s : State) : Host.Outcome State Fault Refusal :=
  match i with
  | .hdrn => Sys2Proof.Machine.execHdrn s
  | .hdrr => Sys2Proof.Machine.execHdrr s
  | .rcdf => Sys2Proof.Machine.execRcdf s
  | .rcdi => Sys2Proof.Machine.execRcdi s
  | .bmtf => Sys2Proof.Machine.execBmtf s
  | .bmti => Sys2Proof.Machine.execBmti s
  | .zenc chk t => Sys2Proof.Machine.execZenc chk t s
  | .zdec t => Sys2Proof.Machine.execZdec t s
  | .enc => Sys2Proof.Machine.execEnc s
  | .dec => Sys2Proof.Machine.execDec s

end Sys2Proof.Machine
end

