-- ==== Sys2Proof/Machine/HostPort.lean ====
section
/-!
DEFINITION. The host's side of LICO-CORE: register and memory access between commands, the write of CMD that
runs a command, reset (spec/10_state.md rules R11 to R18 and R28, spec/70_reset_and_hazards.md rule R140),
and the statements of the host script (spec/30_encoding.md rule R57) as sequences of accesses.
-/

namespace Sys2Proof.Machine

/-- The value of the register with a number, as the host reads it: 0 for the numbers that do not exist
(10_state.md R11 to R18). -/
def State.readReg (s : State) (n : Nat) : Word :=
  match n with
  | 0 => s.cmd.setWidth 32
  | 1 => s.statusRead.setWidth 32
  | 2 => s.len
  | 3 => s.zbase
  | 4 => s.zn
  | 5 => s.zcap
  | 6 => s.zlen
  | _ => 0#32

/-- A host write of 32 bits to the register with a number: ignored by STATUS, ZLEN and the numbers that do
not exist (10_state.md R12 to R18); CMD is 8 bits wide and is not written this way (R18, U9,
notes/assumptions/6.md). -/
def writeReg (n : Nat) (v : Word) (s : State) : Host.Outcome State Fault Refusal :=
  match n with
  | 0 => .refused (.notWholeRegister 0)
  | 2 => .next { s with len := v }
  | 3 => .next { s with zbase := v }
  | 4 => .next { s with zn := v }
  | 5 => .next { s with zcap := v }
  | _ => .next s

/-- A host write of one byte of a memory (10_state.md R28). -/
def hostWriteMem (m : MemId) (a : Nat) (b : Byte) (s : State) : Host.Outcome State Fault Refusal :=
  if a < s.params.cap m then .next (s.setByte m a b) else .fault (.noSuchOffset m a)

/-- A host read of one byte of a memory (10_state.md R28). -/
def hostReadMem (m : MemId) (a : Nat) (s : State) : Host.Outcome State Fault Refusal :=
  if a < s.params.cap m then .next (s.deliver ((s.byte m a).setWidth 32))
  else .fault (.noSuchOffset m a)

/-- A host write of a byte to CMD (10_state.md R11): `reg.CMD <- c`, then the command that `c` encodes; an
illegal byte ends with ILLEGAL_COMMAND (30_encoding.md R54). -/
def runCommand (c : Byte) (s : State) : Host.Outcome State Fault Refusal :=
  match decode c with
  | .ok i => exec i (s.setCmd c)
  | .error _ => raiseErr .illegalCommand (s.setCmd c)

/-- Serve one access of the host. -/
def serve (a : HostAccess) (s : State) : Host.Outcome State Fault Refusal :=
  match a with
  | .writeCmd c => runCommand c s
  | .writeReg n v => writeReg n v s
  | .readReg n => .next (s.deliver (s.readReg n))
  | .writeMem m a b => hostWriteMem m a b s
  | .readMem m a => hostReadMem m a s
  | .reset => .next s.applyReset

/-- The command byte of a table word (opcode_table.json): its bits above `nbits` are zero. -/
def tableByte (nbits w : Nat) : Byte := BitVec.ofNat 8 (w % 2 ^ nbits)

/-- `FILL M, a, count, byte` (30_encoding.md R57). -/
def scriptFill (m : MemId) (a count : Nat) (b : Byte) : List HostAccess :=
  (List.range count).map (fun k => .writeMem m (a + k) b)

/-- `LOAD M, a, b0 b1 b2 ...` (30_encoding.md R57). -/
def scriptLoad (m : MemId) (a : Nat) : List Byte → List HostAccess
  | [] => []
  | b :: bs => .writeMem m a b :: scriptLoad m (a + 1) bs

/-- `CMD mnemonic` (30_encoding.md R57): the host writes the command's byte to CMD. -/
def scriptCmd (i : Instr) : List HostAccess := [.writeCmd (encode i)]

/-- `DUMP M, a, count` (30_encoding.md R57). -/
def scriptDump (m : MemId) (a count : Nat) : List HostAccess :=
  (List.range count).map (fun k => .readMem m (a + k))

end Sys2Proof.Machine
end

