-- ==== Sys2Proof/Machine/Step.lean ====
section
/-!
DEFINITION. One step of the machine: the next access of the host is served, a command being one access
(spec/00_scope.md rule R8, spec/10_state.md rule R11).
-/

namespace Sys2Proof.Machine

/-- With no access pending the engine is idle, which "has no architectural content" (60_exceptions.md R131,
notes/assumptions/9.md). -/
def step (s : State) : Host.Outcome State Fault Refusal :=
  match s.pending with
  | [] => .next s
  | a :: rest => serve a { s with pending := rest }

/-- The host's next access is the write of the word's byte to CMD (notes/assumptions/4.md). -/
def State.withFetchWord (s : State) (nbits w : Nat) : State :=
  { s with pending := .writeCmd (tableByte nbits w) :: s.pending }

end Sys2Proof.Machine
end

