-- ==== Sys2Proof/Safety.lean ====
section
/-!
DEFINITION. What a good state is (spec/10_state.md rules R10 to R22, spec/20_memory.md rule R38), and the
words in which statements say what a command does: reads of single bytes of the state before (`s`) and
after (`t`), spelled from the spec's layouts and formulas, not from the machine's loops.
-/

namespace Sys2Proof.Machine

/-! ### Good states -/

/-- The four memories are in canonical form. -/
def State.canonical (s : State) : Bool :=
  Memory.wf s.buf && Memory.wf s.tmp && Memory.wf s.dns && Memory.wf s.bmap

/-- No memory holds a byte at an offset that does not exist (20_memory.md R30, R38). -/
def State.withinCapacity (s : State) : Bool :=
  Memory.below s.params.bufCap s.buf && Memory.below s.params.tmpCap s.tmp
    && Memory.below s.params.dnsCap s.dns && Memory.below s.params.bmapCap s.bmap

/-- STATUS holds one of the six outcomes, its bits 7:3 zero (10_state.md R12: codes 6 and 7 are never
produced). -/
def State.statusLegal (s : State) : Bool := decide (s.status.toNat ≤ 5)

/-- The invariant of the machine. -/
def State.good (s : State) : Bool := s.canonical && s.withinCapacity && s.statusLegal

/-! ### Frames -/

/-- A memory reads as before outside the offsets `lo .. hi-1`. -/
def KeptOutside (m : MemId) (lo hi : Nat) (s t : State) : Prop :=
  ∀ a, a < lo ∨ hi ≤ a → t.byte m a = s.byte m a

/-- What the eight header, stage and pipeline commands require of the header (60_exceptions.md R120, R123);
`none` for the two ZE commands, which require nothing of it. -/
def acceptOf : Instr → Option (State → Bool)
  | .hdrn | .enc => some acceptFwd
  | .hdrr | .dec => some acceptInv
  | .rcdf | .rcdi | .bmtf | .bmti => some geomOK
  | .zenc _ _ | .zdec _ => none

/-- The codes with which each command can end (60_exceptions.md R121). -/
def codesOf : Instr → List Code
  | .zenc false _ | .zdec _ => [.ok, .paramError]
  | .zenc true _ => [.ok, .capacityExceeded, .paramError]
  | _ => [.ok, .inputTooSmall, .unsupportedFormat, .paramError]

/-! ### Component B -/

/-- The offsets of the four header fields with no required value: W, H and the two resolutions
(30_encoding.md R58). -/
def freeField (a : Nat) : Prop := (18 ≤ a ∧ a < 26) ∨ (38 ≤ a ∧ a < 46)

/-- The required header bytes of a buffer of `len` bytes (30_encoding.md R58). -/
def rawHeader (len a : Nat) : Byte :=
  if a = 0 then 0x42#8
  else if a = 1 then 0x4D#8
  else if 2 ≤ a ∧ a < 6 then BitVec.ofNat 8 (len / 256 ^ (a - 2))
  else if a = 10 then 54#8
  else if a = 14 then 40#8
  else if a = 26 then 1#8
  else if a = 28 then 24#8
  else if 34 ≤ a ∧ a < 38 then BitVec.ofNat 8 ((len - 54) / 256 ^ (a - 34))
  else 0#8

/-- The 54 bytes that HDRN and ENC leave: the neutralised form (30_encoding.md R60). -/
def HeaderNeutralised (s t : State) : Prop :=
  (∀ a, a < 54 → ¬ freeField a → t.byte .buf a = 0#8)
  ∧ (∀ a, 18 ≤ a → a < 26 → t.byte .buf a = s.byte .buf a)
  ∧ (∀ a, 38 ≤ a → a < 42 → t.byte .buf a = s.byte .buf a)
  ∧ readLE (t.byte .buf) 42 4
      = (readLE (s.byte .buf) 42 4 + 2 ^ 32 - readLE (s.byte .buf) 38 4) % 2 ^ 32

/-- The 54 bytes that HDRR and DEC leave (40_header.md R76). -/
def HeaderRestored (s t : State) : Prop :=
  (∀ a, a < 54 → ¬ freeField a → t.byte .buf a = rawHeader s.len.toNat a)
  ∧ (∀ a, 18 ≤ a → a < 26 → t.byte .buf a = s.byte .buf a)
  ∧ (∀ a, 38 ≤ a → a < 42 → t.byte .buf a = s.byte .buf a)
  ∧ readLE (t.byte .buf) 42 4
      = (readLE (s.byte .buf) 42 4 + readLE (s.byte .buf) 38 4) % 2 ^ 32

/-! ### Component C -/

/-- Channel `c` of the pixel in row `y`, column `x` (20_memory.md R40). -/
def pixelByte (g : Geom) (s : State) (y x c : Nat) : Byte := s.byte .buf (54 + y * g.stride + 3 * x + c)

/-- The predictor of that pixel: its left neighbour, in column 0 the pixel of column 0 of the row before,
in row 0 zero (41_rowdiff_tcms.md R82). -/
def predictorByte (g : Geom) (s : State) (y x c : Nat) : Byte :=
  if 0 < x then pixelByte g s y (x - 1) c
  else if 0 < y then pixelByte g s (y - 1) 0 c
  else 0#8

/-- The inter-row delta of a channel, modulo 256 (41_rowdiff_tcms.md R86). -/
def deltaByte (g : Geom) (s : State) (y x c : Nat) : Byte :=
  pixelByte g s y x c - predictorByte g s y x c

/-- The TCMS fold of a low byte (41_rowdiff_tcms.md R80, R86). -/
def fold8 (t : Byte) : Byte := (t <<< 1) ^^^ (if t.getLsbD 7 then 0xFF#8 else 0#8)

/-- TMP of `t` holds the residuals of the pixels in BUF of `s` (41_rowdiff_tcms.md R82, R86). -/
def PlanesOf (g : Geom) (s t : State) : Prop :=
  ∀ y x, y < g.h → x < g.w →
    t.byte .tmp (y + x * g.h) = fold8 (deltaByte g s y x 0 - deltaByte g s y x 1)
    ∧ t.byte .tmp (g.w * g.h + y + x * g.h) = fold8 (deltaByte g s y x 1)
    ∧ t.byte .tmp (2 * (g.w * g.h) + y + x * g.h) = fold8 (deltaByte g s y x 2 - deltaByte g s y x 1)

/-- The unfolded residual in TMP (41_rowdiff_tcms.md R81). -/
def unfolded (g : Geom) (s : State) (k y x : Nat) : Byte :=
  itcms (s.byte .tmp (k * (g.w * g.h) + y + x * g.h))

/-- BUF of `t` holds the pixels whose residuals are in TMP of `s`, each rebuilt from the rebuilt pixel
before it, and zero padding (41_rowdiff_tcms.md R84, R87). -/
def PixelsOf (g : Geom) (s t : State) : Prop :=
  (∀ y x, y < g.h → x < g.w →
    pixelByte g t y x 0 = predictorByte g t y x 0 + (unfolded g s 0 y x + unfolded g s 1 y x)
    ∧ pixelByte g t y x 1 = predictorByte g t y x 1 + unfolded g s 1 y x
    ∧ pixelByte g t y x 2 = predictorByte g t y x 2 + (unfolded g s 2 y x + unfolded g s 1 y x))
  ∧ (∀ y i, y < g.h → 3 * g.w ≤ i → i < g.stride → t.byte .buf (54 + y * g.stride + i) = 0#8)

/-- Every padding byte of the image is zero (44_pipeline.md R114). -/
def PaddingZero (g : Geom) (s : State) : Prop :=
  ∀ y, y < g.h → ∀ i, i < g.stride → 3 * g.w ≤ i → s.byte .buf (54 + y * g.stride + i) = 0#8

/-! ### Component D -/

/-- BUF of `t` holds the bit-plane slabs and the remainder of TMP of `s` (30_encoding.md R62). -/
def SlabsOf (g : Geom) (s t : State) : Prop :=
  (∀ i j b, i < g.groups → j < 8 → b < 8 →
    (t.byte .buf (54 + j * g.groups + i)).getLsbD b = (s.byte .tmp (8 * i + b)).getLsbD j)
  ∧ (∀ k, k < g.extra → t.byte .buf (54 + g.esize + k) = s.byte .tmp (g.esize + k))

/-- The tail of the pixel region is zero (42_bit_transpose.md R93). -/
def TailZero (g : Geom) (t : State) : Prop :=
  ∀ a, a < t.len.toNat → 54 + g.n3 ≤ a → t.byte .buf a = 0#8

/-- TMP of `t` holds the residual bytes whose slabs and remainder are in BUF of `s` (42_bit_transpose.md
R95). -/
def ScratchOf (g : Geom) (s t : State) : Prop :=
  (∀ i j b, i < g.groups → j < 8 → b < 8 →
    (t.byte .tmp (8 * i + b)).getLsbD j = (s.byte .buf (54 + j * g.groups + i)).getLsbD b)
  ∧ (∀ k, k < g.extra → t.byte .tmp (g.esize + k) = s.byte .buf (54 + g.esize + k))

/-- The number of 1 bits of a byte. -/
def ones (b : Byte) : Nat := (List.range 8).countP (fun i => b.getLsbD i)

/-! ### Component E -/

/-- How many of the words `in[0 .. k)` are nonzero (43_zero_elimination.md R106 law 1). -/
def nonzeroBelow (s : State) (t : WordType) (k : Nat) : Nat :=
  (List.range k).countP (fun j => s.zeWord t j != 0)

/-- How many of the bitmap bits below `k` are set (43_zero_elimination.md R104: `pos` at word `k`). -/
def setBelow (s : State) (t : WordType) (k : Nat) : Nat :=
  (List.range k).countP (fun j => bitmapBit t (s.bitmapWord t) j)

/-- DNS and BMAP of `t` are the encoding of the word stream of `s`, and the rest of both memories is as in
`s` (30_encoding.md R63, 43_zero_elimination.md R101). -/
def EncodedAs (ty : WordType) (s t : State) : Prop :=
  (∀ k, k < s.zn.toNat → s.zeWord ty k ≠ 0 → t.denseWord ty (nonzeroBelow s ty k) = s.zeWord ty k)
  ∧ (∀ i j, i < bitmapWords ty s.zn.toNat → j < wordBits ty →
      (t.bitmapWord ty i).testBit j
        = (decide (i * wordBits ty + j < s.zn.toNat) && (s.zeWord ty (i * wordBits ty + j) != 0)))
  ∧ KeptOutside .dns 0 (nonzeroBelow s ty s.zn.toNat * wordBytes ty) s t
  ∧ KeptOutside .bmap 0 (bitmapWords ty s.zn.toNat * wordBytes ty) s t

end Sys2Proof.Machine
end

