-- ==== Sys2Proof/Certificates/Slice0/Obligations.lean ====
section
/-!
DEFINITION. The statements of this row about the model, each from numbered rules of spec/. `s` is the state
before, `t` the state after. What `HeaderNeutralised`, `PlanesOf`, `PixelsOf`, `SlabsOf`, `ScratchOf`,
`EncodedAs` and `KeptOutside` say byte by byte stands in Sys2Proof/Safety.lean.
-/

open Sys2Proof Sys2Proof.Machine

/-! ### Component A: memory access -/

/-- 20_memory.md R32: byte `k` of the `n` bytes written is `(v >> (8*k)) & 0xFF`, for every integer `v`; no
other byte changes. -/
def Obligations.MemWriteStoresLittleEndian : Prop :=
  ∀ (u : Nat → Byte) (m : Memory) (a n : Nat) (v : Int),
    (∀ k, k < n → Memory.read u (writeLE m a n v) (a + k) = BitVec.ofInt 8 (v >>> (8 * k)))
    ∧ (∀ x, x < a ∨ a + n ≤ x → Memory.read u (writeLE m a n v) x = Memory.read u m x)

/-- 20_memory.md R31: the value of `n` bytes, the byte at the lowest offset the least significant. And an
inference from R31 and R32: what MemWrite stored, MemRead returns, reduced modulo `2^(8n)`. -/
def Obligations.MemReadIsLittleEndian : Prop :=
  ∀ (a n : Nat),
    (∀ rd : Nat → Byte,
      readLE rd a n = (List.range n).foldl (fun v k => v ||| (rd (a + k)).toNat <<< (8 * k)) 0)
    ∧ (∀ (u : Nat → Byte) (m : Memory) (v : Int),
      (readLE (Memory.read u (writeLE m a n v)) a n : Int) = v % 2 ^ (8 * n))

/-- 20_memory.md R33 to R36: the four helpers of component A. -/
def Obligations.HelpersReadAndStoreFields : Prop :=
  ∀ (rd : Nat → Byte) (a : Nat),
    get16 rd a = (((rd a).toNat ||| (rd (a + 1)).toNat <<< 8 : Nat) : Int)
    ∧ 0 ≤ get16 rd a ∧ get16 rd a ≤ 65535
    ∧ get32 rd a
        = asI32 ((rd a).toNat ||| (rd (a + 1)).toNat <<< 8 ||| (rd (a + 2)).toNat <<< 16
            ||| (rd (a + 3)).toNat <<< 24)
    ∧ -2147483648 ≤ get32 rd a ∧ get32 rd a ≤ 2147483647
    ∧ (get32 rd a < 0 ↔ (rd (a + 3)).getLsbD 7 = true)
    ∧ get16 rd a = readLE rd a 2 ∧ get32 rd a = asI32 (readLE rd a 4)
    ∧ (∀ (m : Memory) (v : Int), set16 m a v = writeLE m a 2 v ∧ set32 m a v = writeLE m a 4 v)
    ∧ ∀ (u : Nat → Byte) (m : Memory) (v : Int) (x : Nat),
        Memory.read u (set16 m a v) x
          = (if x = a then BitVec.ofInt 8 v
             else if x = a + 1 then BitVec.ofInt 8 (v / 256)
             else Memory.read u m x)
        ∧ Memory.read u (set32 m a v) x
          = (if x = a then BitVec.ofInt 8 v
             else if x = a + 1 then BitVec.ofInt 8 (v / 256)
             else if x = a + 2 then BitVec.ofInt 8 (v / 65536)
             else if x = a + 3 then BitVec.ofInt 8 (v / 16777216)
             else Memory.read u m x)

/-! ### Registers, memories and the host -/

/-- 10_state.md R27, 70_reset_and_hazards.md R140: after reset every register is 0 and every memory byte is
unspecified (a free value, notes/assumptions/2.md). No byte is asserted to have any particular value. -/
def Obligations.ResetLeavesRegistersZero : Prop :=
  State.reset.cmd = 0#8 ∧ State.reset.status = 0#8 ∧ State.reset.len = 0#32
  ∧ State.reset.zbase = 0#32 ∧ State.reset.zn = 0#32 ∧ State.reset.zcap = 0#32
  ∧ State.reset.zlen = 0#32
  ∧ ∀ m a, State.reset.byte m a = Config.unwritten 0 m a

/-- 70_reset_and_hazards.md R140, 10_state.md R27: a reset between commands gives every register its reset
value and executes no command; every memory byte becomes unspecified anew ("not necessarily the same each
time": the free value of the next epoch, notes/assumptions/2.md and 8.md). -/
def Obligations.HostResetClearsRegisters : Prop :=
  ∀ (s : State) (rest : List HostAccess), s.pending = .reset :: rest →
    ∃ t, step s = .next t
      ∧ t.cmd = 0#8 ∧ t.status = 0#8 ∧ t.len = 0#32 ∧ t.zbase = 0#32 ∧ t.zn = 0#32 ∧ t.zcap = 0#32
      ∧ t.zlen = 0#32 ∧ (∀ m a, t.byte m a = Config.unwritten (s.epoch + 1) m a)
      ∧ t.params = s.params ∧ t.pending = rest ∧ t.hostData = s.hostData

/-- 10_state.md R11 to R18: what the host reads from each register number; STATUS bits 7:3 always read 0;
numbers 7 and above read 0. Reading changes nothing of the engine. (`hostData` is the model's own field for
what was read, notes/assumptions/5.md.) -/
def Obligations.HostReadsRegisters : Prop :=
  ∀ (s : State) (n : Nat) (rest : List HostAccess), s.pending = .readReg n :: rest →
    ∃ v : Word, step s = .next { s with pending := rest, hostData := v }
      ∧ (n = 0 → v.toNat = s.cmd.toNat)
      ∧ (n = 1 → v.toNat = s.status.toNat % 8)
      ∧ (n = 2 → v = s.len) ∧ (n = 3 → v = s.zbase) ∧ (n = 4 → v = s.zn) ∧ (n = 5 → v = s.zcap)
      ∧ (n = 6 → v = s.zlen) ∧ (7 ≤ n → v = 0#32)

/-- 10_state.md R12 to R18: LEN, ZBASE, ZN and ZCAP take any 32-bit value when written; STATUS, ZLEN and
numbers 7 and above ignore the write. A 32-bit write to the 8-bit CMD is refused: the model's choice for
the "partial-width" access of R18 and U9 (notes/assumptions/6.md). -/
def Obligations.HostWritesRegisters : Prop :=
  ∀ (s : State) (n : Nat) (v : Word) (rest : List HostAccess), s.pending = .writeReg n v :: rest →
    (n = 2 → step s = .next { s with pending := rest, len := v })
    ∧ (n = 3 → step s = .next { s with pending := rest, zbase := v })
    ∧ (n = 4 → step s = .next { s with pending := rest, zn := v })
    ∧ (n = 5 → step s = .next { s with pending := rest, zcap := v })
    ∧ (n = 1 ∨ 6 ≤ n → step s = .next { s with pending := rest })
    ∧ (n = 0 → step s = .refused (.notWholeRegister 0))

/-- 10_state.md R28 and section 3: between commands the host writes one byte of one memory, and nothing
else of any memory or register changes; an offset at or above the capacity faults (the model's choice for
an access the spec says does not exist, notes/assumptions/7.md). -/
def Obligations.HostWritesOneByte : Prop :=
  ∀ (s : State) (m : MemId) (a : Nat) (b : Byte) (rest : List HostAccess),
    s.pending = .writeMem m a b :: rest →
    (a < s.params.cap m →
      ∃ t, step s = .next t
        ∧ t.byte m a = b
        ∧ (∀ m' a', m' ≠ m ∨ a' ≠ a → t.byte m' a' = s.byte m' a')
        ∧ t = { s with pending := rest, buf := t.buf, tmp := t.tmp, dns := t.dns, bmap := t.bmap })
    ∧ (s.params.cap m ≤ a → step s = .fault (.noSuchOffset m a))

/-- 10_state.md R28, 20_memory.md R43: a host read delivers the byte and changes nothing of the engine. That
the byte is delivered in `hostData` is the model's choice (notes/assumptions/5.md), and so is the fault at an
offset at or above the capacity (notes/assumptions/7.md). -/
def Obligations.HostReadsOneByte : Prop :=
  ∀ (s : State) (m : MemId) (a : Nat) (rest : List HostAccess),
    s.pending = .readMem m a :: rest →
    (a < s.params.cap m →
      ∃ v : Word, v.toNat = (s.byte m a).toNat ∧ step s = .next { s with pending := rest, hostData := v })
    ∧ (s.params.cap m ≤ a → step s = .fault (.noSuchOffset m a))

/-- The model's choice (notes/assumptions/9.md) for 60_exceptions.md R131, "idle has no architectural
content": with no host access pending a step changes nothing. -/
def Obligations.IdleEngineChangesNothing : Prop :=
  ∀ s : State, s.pending = [] → step s = .next s

/-! ### The command byte -/

/-- 10_state.md R11: a host write of a legal byte to CMD stores it in CMD and executes the command it
encodes, as one step. The second clause is the model's choice (notes/assumptions/4.md): on a state with a table
word placed by `withFetchWord` the very next step executes the word's byte. -/
def Obligations.StepRunsTheDecodedCommand : Prop :=
  (∀ (s : State) (c : Byte) (rest : List HostAccess) (i : Instr),
    s.pending = .writeCmd c :: rest → decode c = .ok i →
      step s = exec i { s with pending := rest, cmd := c })
  ∧ (∀ (s : State) (w : Nat) (i : Instr), w < 256 → decodeTableWord 8 w = some i →
      step (s.withFetchWord 8 w) = exec i { s with cmd := BitVec.ofNat 8 w })

/-- 30_encoding.md R54, 60_exceptions.md R122: a byte that meets one of the four conditions ends with
ILLEGAL_COMMAND, CMD holding the byte and nothing else changed; the twenty other bytes, and no more, decode to
a command. -/
def Obligations.IllegalBytesOnlySetStatus : Prop :=
  (∀ (s : State) (c : Byte) (rest : List HostAccess), s.pending = .writeCmd c :: rest →
    (c.getLsbD 7 = true
      ∨ (c.toNat % 16 = 0 ∨ 0xB ≤ c.toNat % 16)
      ∨ (c.toNat / 16 % 4 ≠ 0 ∧ c.toNat % 16 ≠ 7 ∧ c.toNat % 16 ≠ 8)
      ∨ (c.getLsbD 6 = true ∧ c.toNat % 16 ≠ 7)) →
    (∃ why, decode c = .error why) ∧ step s = .next { s with pending := rest, cmd := c, status := 5#8 })
  ∧ (∀ c : Byte,
    ¬ (c.getLsbD 7 = true
        ∨ (c.toNat % 16 = 0 ∨ 0xB ≤ c.toNat % 16)
        ∨ (c.toNat / 16 % 4 ≠ 0 ∧ c.toNat % 16 ≠ 7 ∧ c.toNat % 16 ≠ 8)
        ∨ (c.getLsbD 6 = true ∧ c.toNat % 16 ≠ 7))
      ↔ ∃ i, decode c = .ok i)
  ∧ (∀ c : Byte,
    (∃ i, decode c = .ok i)
      ↔ c.toNat ∈ [0x01, 0x02, 0x03, 0x04, 0x05, 0x06, 0x09, 0x0A,
          0x07, 0x17, 0x27, 0x37, 0x47, 0x57, 0x67, 0x77, 0x08, 0x18, 0x28, 0x38])

/-- 30_encoding.md R51 to R53, R57: the twenty legal bytes, written out, decode to the commands they stand
for. -/
def Obligations.WrittenOutBytesDecode : Prop :=
  decode 0x01#8 = .ok .hdrn ∧ decode 0x02#8 = .ok .hdrr ∧ decode 0x03#8 = .ok .rcdf
  ∧ decode 0x04#8 = .ok .rcdi ∧ decode 0x05#8 = .ok .bmtf ∧ decode 0x06#8 = .ok .bmti
  ∧ decode 0x07#8 = .ok (.zenc false .u8) ∧ decode 0x17#8 = .ok (.zenc false .u16)
  ∧ decode 0x27#8 = .ok (.zenc false .u32) ∧ decode 0x37#8 = .ok (.zenc false .u64)
  ∧ decode 0x47#8 = .ok (.zenc true .u8) ∧ decode 0x57#8 = .ok (.zenc true .u16)
  ∧ decode 0x67#8 = .ok (.zenc true .u32) ∧ decode 0x77#8 = .ok (.zenc true .u64)
  ∧ decode 0x08#8 = .ok (.zdec .u8) ∧ decode 0x18#8 = .ok (.zdec .u16)
  ∧ decode 0x28#8 = .ok (.zdec .u32) ∧ decode 0x38#8 = .ok (.zdec .u64)
  ∧ decode 0x09#8 = .ok .enc ∧ decode 0x0A#8 = .ok .dec

/-- 30_encoding.md R50 to R56: encoding and decoding are inverse to each other, between the commands and
the legal bytes. -/
def Obligations.DecodeAndEncodeAgree : Prop :=
  (∀ i : Instr, i.wellFormed = true
    ∧ decode (encode i) = .ok i ∧ decodeTableWord 8 (encode i).toNat = some i)
  ∧ (∀ (c : Byte) (i : Instr), decode c = .ok i → encode i = c)

/-! ### Every command -/

/-- 70_reset_and_hazards.md R147: every command terminates, in every state. -/
def Obligations.EveryCommandTerminates : Prop :=
  ∀ (i : Instr) (s : State), ∃ t, exec i s = .next t

/-- 60_exceptions.md R122, R123, R120: the eight header, stage and pipeline commands make their checks in
this order, and an error changes STATUS and nothing else. -/
def Obligations.HeaderChecksComeInOrder : Prop :=
  ∀ (i : Instr) (accept : State → Bool) (s : State), acceptOf i = some accept →
    (s.params.bufCap < s.len.toNat → exec i s = .next { s with status := 4#8 })
    ∧ (s.len.toNat ≤ s.params.bufCap → s.len.toNat < 54 → exec i s = .next { s with status := 1#8 })
    ∧ (s.len.toNat ≤ s.params.bufCap → 54 ≤ s.len.toNat → accept s = false →
        exec i s = .next { s with status := 2#8 })

/-- 43_zero_elimination.md R100, R102, R105, 60_exceptions.md R122: a word stream that does not lie inside
BUF ends ZENC and ZDEC with PARAM_ERROR, and nothing else changes. -/
def Obligations.ZeRangeErrorOnlySetsStatus : Prop :=
  ∀ (s : State) (chk : Bool) (ty : WordType),
    s.params.bufCap < s.zbase.toNat + s.zn.toNat * wordBytes ty →
      exec (.zenc chk ty) s = .next { s with status := 4#8 }
      ∧ exec (.zdec ty) s = .next { s with status := 4#8 }

/-- 60_exceptions.md R121 (which the spec marks as its own inference, "[derived: from the command rules of
files 40 to 44 and 30_encoding.md rule R54]"): the codes with which each command can end. -/
def Obligations.CommandsEndWithTheirCodes : Prop :=
  ∀ (i : Instr) (s t : State), exec i s = .next t → ∃ c ∈ codesOf i, t.status = statusOf c

/-- 60_exceptions.md R129, 10_state.md R12: STATUS holds the outcome of the most recent command only. -/
def Obligations.StatusIsNotSticky : Prop :=
  ∀ (i : Instr) (s : State) (old : Byte), exec i { s with status := old } = exec i s

/-- 10_state.md R13 to R17, R11: no command writes CMD, LEN, ZBASE, ZN or ZCAP, and only ZENC writes ZLEN.
(The model's own fields change in no command, but for the count of free values in ZENC.) -/
def Obligations.CommandsKeepOperandRegisters : Prop :=
  ∀ (i : Instr) (s t : State), exec i s = .next t →
    t.cmd = s.cmd ∧ t.len = s.len ∧ t.zbase = s.zbase ∧ t.zn = s.zn ∧ t.zcap = s.zcap
    ∧ t.params = s.params ∧ t.pending = s.pending ∧ t.hostData = s.hostData ∧ t.epoch = s.epoch
    ∧ ((∀ chk ty, i ≠ .zenc chk ty) → t.zlen = s.zlen ∧ t.draws = s.draws)

/-- 20_memory.md R30 and R38: which bytes of which memories each command may change, whatever its outcome.
That BMTI keeps BUF is deduced from 42_bit_transpose.md R95, R96 and R30, against 10_state.md R19
(notes/assumptions/10.md). -/
def Obligations.CommandsStayInsideTheirMemories : Prop :=
  ∀ (i : Instr) (s t : State), exec i s = .next t →
    match i with
    | .hdrn | .hdrr =>
        t.tmp = s.tmp ∧ t.dns = s.dns ∧ t.bmap = s.bmap ∧ KeptOutside .buf 0 54 s t
    | .rcdf | .bmti =>
        t.buf = s.buf ∧ t.dns = s.dns ∧ t.bmap = s.bmap ∧ KeptOutside .tmp 0 s.geom.n3 s t
    | .rcdi | .bmtf =>
        t.tmp = s.tmp ∧ t.dns = s.dns ∧ t.bmap = s.bmap ∧ KeptOutside .buf 54 s.len.toNat s t
    | .zenc _ ty =>
        t.buf = s.buf ∧ t.tmp = s.tmp
        ∧ KeptOutside .dns 0 (s.zn.toNat * wordBytes ty) s t
        ∧ KeptOutside .bmap 0 (bitmapWords ty s.zn.toNat * wordBytes ty) s t
    | .zdec ty =>
        t.tmp = s.tmp ∧ t.dns = s.dns ∧ t.bmap = s.bmap
        ∧ KeptOutside .buf s.zbase.toNat (s.zbase.toNat + s.zn.toNat * wordBytes ty) s t
    | .enc | .dec =>
        t.dns = s.dns ∧ t.bmap = s.bmap ∧ KeptOutside .buf 0 s.len.toNat s t
        ∧ KeptOutside .tmp 0 s.geom.n3 s t

/-- 10_state.md R13: "bytes of BUF at and above LEN are not read and not written" by the eight header, stage
and pipeline commands: two states that differ only there end alike, and those bytes are kept. -/
def Obligations.BytesBeyondLenDoNotMatter : Prop :=
  ∀ (i : Instr) (accept : State → Bool) (s : State) (other : Memory), acceptOf i = some accept →
    (∀ a, a < s.len.toNat → ({ s with buf := other } : State).byte .buf a = s.byte .buf a) →
    ∃ t t', exec i s = .next t ∧ exec i { s with buf := other } = .next t'
      ∧ t' = { t with buf := t'.buf }
      ∧ (∀ a, a < s.len.toNat → t'.byte .buf a = t.byte .buf a)
      ∧ (∀ a, s.len.toNat ≤ a → t.byte .buf a = s.byte .buf a
          ∧ t'.byte .buf a = ({ s with buf := other } : State).byte .buf a)

/-- 20_memory.md R44 and 60_exceptions.md R132: no result depends on the number of internal workers, nor, of
the parameters of 00_scope.md R7, on anything but BUF_CAP. -/
def Obligations.OnlyBufCapMatters : Prop :=
  ∀ (i : Instr) (s : State) (p : Config.Params), p.bufCap = s.params.bufCap →
    ∃ t, exec i s = .next t ∧ exec i { s with params := p } = .next { t with params := p }

/-! ### Component B -/

/-- 40_header.md R71, 30_encoding.md R58: within the capacity of BUF, the validator accepts exactly the
buffers whose geometry fits and whose header bytes outside W, H and the resolutions have the required
values. (A byte-wise reading of R71's conjuncts, inferred from them.) -/
def Obligations.ValidatorAcceptsTheBmpSubset : Prop :=
  ∀ s : State, s.len.toNat ≤ s.params.bufCap →
    (acceptFwd s = true
      ↔ geomOK s = true ∧ ∀ a, a < 54 → ¬ freeField a → s.byte .buf a = rawHeader s.len.toNat a)

/-- 40_header.md R73, "Equivalently: `BUF[0..17]`, `BUF[26..37]` and `BUF[46..53]` are all 0x00 and `GeomOK`
holds". -/
def Obligations.InverseCheckIsTheNeutralisedForm : Prop :=
  ∀ s : State,
    acceptInv s = true ↔ geomOK s = true ∧ ∀ a, a < 54 → ¬ freeField a → s.byte .buf a = 0#8

/-- 40_header.md R70: what GeomOK says of the header fields and LEN; the geometry that the commands use is
that of the fields. -/
def Obligations.GeometryFitsTheBuffer : Prop :=
  ∀ s : State,
    geomOK s = true
      ↔ (54 ≤ s.len.toNat ∧ 1 ≤ get32 (s.byte .buf) 18 ∧ 1 ≤ get32 (s.byte .buf) 22
          ∧ (s.geom.w : Int) = get32 (s.byte .buf) 18 ∧ (s.geom.h : Int) = get32 (s.byte .buf) 22
          ∧ 54 + s.geom.h * s.geom.stride = s.len.toNat
          ∧ s.geom.stride % 4 = 0 ∧ 3 * s.geom.w ≤ s.geom.stride ∧ s.geom.stride < 3 * s.geom.w + 4)

/-- 40_header.md R72, R75, 30_encoding.md R60: HDRN on an accepted header leaves the neutralised form, and
nothing else changes but STATUS. -/
def Obligations.HdrnNeutralisesTheHeader : Prop :=
  ∀ s : State, s.len.toNat ≤ s.params.bufCap → acceptFwd s = true →
    ∃ t, exec .hdrn s = .next t ∧ HeaderNeutralised s t ∧ KeptOutside .buf 0 54 s t
      ∧ t = { s with buf := t.buf, status := 0#8 }

/-- 40_header.md R74, R76: HDRR on an accepted neutralised header restores the required bytes and adds the
x-resolution back to the y-resolution; nothing else changes but STATUS. -/
def Obligations.HdrrRestoresTheHeader : Prop :=
  ∀ s : State, s.len.toNat ≤ s.params.bufCap → acceptInv s = true →
    ∃ t, exec .hdrr s = .next t ∧ HeaderRestored s t ∧ KeptOutside .buf 0 54 s t
      ∧ t = { s with buf := t.buf, status := 0#8 }

/-- 40_header.md R77 law 2 (which the spec marks "[derived: from rules R71, R73, R75 and R76]"): HDRN and
HDRR are inverse to each other between the two accepted sets. -/
def Obligations.HeaderNeutralisationIsBijective : Prop :=
  (∀ s : State, s.len.toNat ≤ s.params.bufCap → acceptFwd s = true →
    ∃ t r, exec .hdrn s = .next t ∧ acceptInv t = true ∧ exec .hdrr t = .next r
      ∧ ∀ a, r.byte .buf a = s.byte .buf a)
  ∧ (∀ s : State, s.len.toNat ≤ s.params.bufCap → acceptInv s = true →
    ∃ t r, exec .hdrr s = .next t ∧ acceptFwd t = true ∧ exec .hdrn t = .next r
      ∧ ∀ a, r.byte .buf a = s.byte .buf a)

/-! ### Component C -/

/-- 41_rowdiff_tcms.md R80: the fold of the low byte, read as a signed byte (inferred in R80 from its first
formula, "[derived: from the first formula]"). -/
def Obligations.TcmsFoldsTheSignedLowByte : Prop :=
  ∀ p : BitVec 32,
    ((tcms p).toNat : Int)
      = if 0 ≤ (p.setWidth 8).toInt then 2 * (p.setWidth 8).toInt else -2 * (p.setWidth 8).toInt - 1

/-- 41_rowdiff_tcms.md R81: the inverse fold, its value as a signed byte, and both compositions. -/
def Obligations.ItcmsUndoesTcms : Prop :=
  (∀ u : Byte,
    itcms u = (u >>> 1) ^^^ (if u.getLsbD 0 then 0xFF#8 else 0#8)
    ∧ (itcms u).toInt = (if u.toNat % 2 = 0 then (u.toNat : Int) / 2 else -(((u.toNat : Int) + 1) / 2))
    ∧ tcms ((itcms u).signExtend 32) = u)
  ∧ (∀ p : BitVec 32, itcms (tcms p) = p.setWidth 8)

/-- 41_rowdiff_tcms.md R82, R83, in the byte arithmetic of R86 (which the spec marks "[derived: from rules
R80 and R82]"): RCDF writes the residual planes and nothing else but STATUS. -/
def Obligations.RcdfWritesResidualPlanes : Prop :=
  ∀ s : State, s.len.toNat ≤ s.params.bufCap → geomOK s = true →
    ∃ t, exec .rcdf s = .next t ∧ PlanesOf s.geom s t ∧ KeptOutside .tmp 0 s.geom.n3 s t
      ∧ t = { s with tmp := t.tmp, status := 0#8 }

/-- 20_memory.md R44, 41_rowdiff_tcms.md R88 law 3: rows in any order give the same planes. -/
def Obligations.RcdfRowsInAnyOrder : Prop :=
  ∀ (g : Geom) (rd : Nat → Byte) (tmp : Memory) (rows : List Nat),
    Memory.wf tmp = true → rows.Perm (List.range g.h) →
      rows.foldl (fun m y => rowForward g rd y m) tmp = rowDiffForward g rd tmp

/-- 41_rowdiff_tcms.md R84, R85, R87: RCDI rebuilds every pixel from its residuals and the rebuilt pixel
before it, zeroes the padding, and changes nothing else but STATUS. -/
def Obligations.RcdiRebuildsPixels : Prop :=
  ∀ s : State, s.len.toNat ≤ s.params.bufCap → geomOK s = true →
    ∃ t, exec .rcdi s = .next t ∧ PixelsOf s.geom s t ∧ KeptOutside .buf 54 s.len.toNat s t
      ∧ t = { s with buf := t.buf, status := 0#8 }

/-- 41_rowdiff_tcms.md R88 laws 1 and 2 (marked "[derived: from rules R80 to R86]"): RCDF then RCDI leaves
every pixel as it was and zeroes the padding; RCDI then RCDF reproduces the planes. -/
def Obligations.RcdfAndRcdiAreInverse : Prop :=
  ∀ s : State, s.len.toNat ≤ s.params.bufCap → geomOK s = true →
    (∃ t r, exec .rcdf s = .next t ∧ exec .rcdi t = .next r
      ∧ (∀ y x c, y < s.geom.h → x < s.geom.w → c < 3 →
          pixelByte s.geom r y x c = pixelByte s.geom s y x c)
      ∧ PaddingZero s.geom r)
    ∧ (∃ t r, exec .rcdi s = .next t ∧ exec .rcdf t = .next r
      ∧ ∀ a, a < s.geom.n3 → r.byte .tmp a = s.byte .tmp a)

/-- 41_rowdiff_tcms.md R88 law 4 (marked "[derived: from rules R80 to R86]"): a pixel that differs from its
predictor by the same amount in all three channels leaves a residual in channel 1 only. -/
def Obligations.EqualDeltasLeaveOneResidual : Prop :=
  ∀ (n p : Triple) (d : Int),
    (n.c0.toNat : Int) = p.c0.toNat + d → (n.c1.toNat : Int) = p.c1.toNat + d →
    (n.c2.toNat : Int) = p.c2.toNat + d →
      residual n p = { c0 := 0#8, c1 := tcms (BitVec.ofInt 32 d), c2 := 0#8 }

/-! ### Component D -/

/-- 42_bit_transpose.md R91: the butterfly is the transpose, "bit `8*j + i` of the result is bit `8*i + j` of
`x`", and an involution. -/
def Obligations.ButterflyTransposesTheBitMatrix : Prop :=
  ∀ x : BitVec 64,
    (∀ i j, i < 8 → j < 8 → (transpose8 x).getLsbD (8 * j + i) = x.getLsbD (8 * i + j))
    ∧ transpose8 (transpose8 x) = x

/-- 42_bit_transpose.md R92 to R94, in the layout of 30_encoding.md R62: BMTF writes the slabs, the remainder
and the zero tail, and nothing else but STATUS. -/
def Obligations.BmtfWritesBitPlaneSlabs : Prop :=
  ∀ s : State, s.len.toNat ≤ s.params.bufCap → geomOK s = true →
    ∃ t, exec .bmtf s = .next t ∧ SlabsOf s.geom s t ∧ TailZero s.geom t
      ∧ KeptOutside .buf 54 s.len.toNat s t ∧ t = { s with buf := t.buf, status := 0#8 }

/-- 42_bit_transpose.md R95, R96: BMTI rebuilds the residual bytes in TMP and changes nothing else but
STATUS. That it keeps BUF is deduced from these rules against 10_state.md R19 (notes/assumptions/10.md). -/
def Obligations.BmtiRebuildsScratch : Prop :=
  ∀ s : State, s.len.toNat ≤ s.params.bufCap → geomOK s = true →
    ∃ t, exec .bmti s = .next t ∧ ScratchOf s.geom s t ∧ KeptOutside .tmp 0 s.geom.n3 s t
      ∧ t = { s with tmp := t.tmp, status := 0#8 }

/-- 42_bit_transpose.md R97 law 2 (marked "[derived: from rules R91, R92 and R95]"): BMTF then BMTI
reproduces TMP; BMTI then BMTF reproduces the residual bytes in BUF and zeroes the tail. That BMTI keeps BUF is
deduced (notes/assumptions/10.md). -/
def Obligations.BmtfAndBmtiAreInverse : Prop :=
  ∀ s : State, s.len.toNat ≤ s.params.bufCap → geomOK s = true →
    (∃ t r, exec .bmtf s = .next t ∧ exec .bmti t = .next r ∧ ∀ a, r.byte .tmp a = s.byte .tmp a)
    ∧ (∃ t r, exec .bmti s = .next t ∧ exec .bmtf t = .next r
      ∧ (∀ a, a < 54 + s.geom.n3 → r.byte .buf a = s.byte .buf a) ∧ TailZero s.geom r)

/-- 42_bit_transpose.md R97 law 4 (marked "[derived: from rules R91, R92 and R95]"): small residuals leave
the high slabs zero. -/
def Obligations.SmallResidualsLeaveHighSlabsZero : Prop :=
  ∀ (s : State) (m : Nat), s.len.toNat ≤ s.params.bufCap → geomOK s = true →
    (∀ a, a < s.geom.n3 → (s.byte .tmp a).toNat < 2 ^ m) →
    ∃ t, exec .bmtf s = .next t
      ∧ ∀ a, 54 + m * s.geom.groups ≤ a → a < 54 + 8 * s.geom.groups → t.byte .buf a = 0#8

/-- 42_bit_transpose.md R97 law 5 (marked "[derived: from rules R91, R92 and R95]"): BMTF keeps the number
of 1 bits. -/
def Obligations.BmtfKeepsTheNumberOfOneBits : Prop :=
  ∀ s : State, s.len.toNat ≤ s.params.bufCap → geomOK s = true →
    ∃ t, exec .bmtf s = .next t
      ∧ ((List.range s.geom.n3).map (fun a => ones (t.byte .buf (54 + a)))).sum
        = ((List.range s.geom.n3).map (fun a => ones (s.byte .tmp a))).sum

/-- 20_memory.md R44, 42_bit_transpose.md R97 law 3: groups in any order give the same slabs. -/
def Obligations.BmtfGroupsInAnyOrder : Prop :=
  ∀ (g : Geom) (rd : Nat → Byte) (buf : Memory) (order : List Nat),
    Memory.wf buf = true → order.Perm (List.range g.groups) →
      order.foldl (fun m i => groupForward g rd i m) buf = loop g.groups (groupForward g rd) buf

/-! ### Component E -/

/-- 43_zero_elimination.md R101, R102, R103, 30_encoding.md R63, R106 laws 1 and 2: a ZENC that is unchecked,
or has at most ZCAP nonzero words, encodes the word stream; ZLEN is the number of nonzero words; nothing
else changes but STATUS. -/
def Obligations.ZencEncodesTheWordStream : Prop :=
  ∀ (s : State) (chk : Bool) (ty : WordType),
    s.zbase.toNat + s.zn.toNat * wordBytes ty ≤ s.params.bufCap →
    (chk = true → nonzeroBelow s ty s.zn.toNat ≤ s.zcap.toNat) →
    ∃ t, exec (.zenc chk ty) s = .next t ∧ EncodedAs ty s t
      ∧ t.zlen.toNat = nonzeroBelow s ty s.zn.toNat
      ∧ t = { s with dns := t.dns, bmap := t.bmap, zlen := t.zlen, status := 0#8 }

/-- 43_zero_elimination.md R103: a checked ZENC with more than ZCAP nonzero words ends with
CAPACITY_EXCEEDED. `DNS[0 .. ZCAP*s)`, `BMAP[0 .. num*s)` and ZLEN are not constrained (free values,
notes/assumptions/3.md); everything else is as before. -/
def Obligations.CheckedZencFailsBeyondZcap : Prop :=
  ∀ (s : State) (ty : WordType),
    s.zbase.toNat + s.zn.toNat * wordBytes ty ≤ s.params.bufCap →
    s.zcap.toNat < nonzeroBelow s ty s.zn.toNat →
    ∃ t, exec (.zenc true ty) s = .next t
      ∧ KeptOutside .dns 0 (s.zcap.toNat * wordBytes ty) s t
      ∧ KeptOutside .bmap 0 (bitmapWords ty s.zn.toNat * wordBytes ty) s t
      ∧ t = { s with dns := t.dns, bmap := t.bmap, zlen := t.zlen, draws := t.draws, status := 3#8 }

/-- 10_state.md R16, 43_zero_elimination.md R103: with CHK = 0, ZCAP is not read. -/
def Obligations.UncheckedZencIgnoresZcap : Prop :=
  ∀ (s : State) (ty : WordType) (cap : Word),
    ∃ t, exec (.zenc false ty) s = .next t
      ∧ exec (.zenc false ty) { s with zcap := cap } = .next { t with zcap := cap }

/-- 43_zero_elimination.md R106 law 1 (marked "[derived: from rules R101 and R104]"): after a ZENC that ends
with OK, ZLEN is also the number of 1 bits of the bitmap, and at most N (law 4). -/
def Obligations.ZlenIsThePopcountOfTheBitmap : Prop :=
  ∀ (s t : State) (chk : Bool) (ty : WordType), exec (.zenc chk ty) s = .next t → t.status = 0#8 →
    t.zlen.toNat = setBelow t ty (bitmapWords ty s.zn.toNat * wordBits ty)
    ∧ t.zlen.toNat ≤ s.zn.toNat

/-- 43_zero_elimination.md R104, R105: ZDEC writes, for each word, the next dense word if its bitmap bit is
set and zero if not, whatever DNS and BMAP hold, and changes nothing else but STATUS. That the index of that
dense word is the number of set bits below is inferred from R104's loop. -/
def Obligations.ZdecDecodesTheWordStream : Prop :=
  ∀ (s : State) (ty : WordType),
    s.zbase.toNat + s.zn.toNat * wordBytes ty ≤ s.params.bufCap →
    ∃ t, exec (.zdec ty) s = .next t
      ∧ (∀ k, k < s.zn.toNat →
          t.zeWord ty k
            = if (s.bitmapWord ty (k / wordBits ty)).testBit (k % wordBits ty)
              then s.denseWord ty (setBelow s ty k) else 0)
      ∧ KeptOutside .buf s.zbase.toNat (s.zbase.toNat + s.zn.toNat * wordBytes ty) s t
      ∧ t = { s with buf := t.buf, status := 0#8 }

/-- 43_zero_elimination.md R106 law 3 (marked "[derived: from rules R101 and R104]"): after a ZENC that ends
with OK, a ZDEC with the same word type, ZBASE and ZN rewrites the word stream, whatever BUF holds by
then. -/
def Obligations.ZdecUndoesZenc : Prop :=
  ∀ (s t : State) (chk : Bool) (ty : WordType) (overwritten : Memory),
    exec (.zenc chk ty) s = .next t → t.status = 0#8 →
    ∃ r, exec (.zdec ty) { t with buf := overwritten } = .next r
      ∧ ∀ a, s.zbase.toNat ≤ a → a < s.zbase.toNat + s.zn.toNat * wordBytes ty →
          r.byte .buf a = s.byte .buf a

/-! ### Component F -/

/-- 44_pipeline.md R110: ENC on an accepted buffer leaves the neutralised header, the residual planes in TMP,
their slabs and remainder in BUF and a zero tail, and changes nothing else but STATUS. -/
def Obligations.EncTransformsTheImage : Prop :=
  ∀ s : State, s.len.toNat ≤ s.params.bufCap → acceptFwd s = true →
    ∃ t, exec .enc s = .next t
      ∧ HeaderNeutralised s t ∧ PlanesOf s.geom s t ∧ SlabsOf s.geom t t ∧ TailZero s.geom t
      ∧ KeptOutside .buf 0 s.len.toNat s t ∧ KeptOutside .tmp 0 s.geom.n3 s t
      ∧ t = { s with buf := t.buf, tmp := t.tmp, status := 0#8 }

/-- 44_pipeline.md R110, corner case (c): "The padding bytes of the input do not influence any output byte".
Two accepted buffers with the same header and the same pixels encode to the same bytes, and leave the same
TMP. -/
def Obligations.EncIgnoresThePadding : Prop :=
  ∀ (s : State) (other : Memory), s.len.toNat ≤ s.params.bufCap → acceptFwd s = true →
    (∀ a, a < 54 → ({ s with buf := other } : State).byte .buf a = s.byte .buf a) →
    (∀ y x c, y < s.geom.h → x < s.geom.w → c < 3 →
      pixelByte s.geom { s with buf := other } y x c = pixelByte s.geom s y x c) →
    ∃ t t', exec .enc s = .next t ∧ exec .enc { s with buf := other } = .next t'
      ∧ t'.status = 0#8
      ∧ (∀ a, a < s.len.toNat → t'.byte .buf a = t.byte .buf a)
      ∧ (∀ a, t'.byte .tmp a = t.byte .tmp a)

/-- 44_pipeline.md R111: DEC on an accepted neutralised buffer leaves the residual planes in TMP, the pixels
they rebuild and zero padding in BUF and the restored header, and changes nothing else but STATUS. -/
def Obligations.DecRestoresTheImage : Prop :=
  ∀ s : State, s.len.toNat ≤ s.params.bufCap → acceptInv s = true →
    ∃ t, exec .dec s = .next t
      ∧ HeaderRestored s t ∧ ScratchOf s.geom s t ∧ PixelsOf s.geom t t
      ∧ KeptOutside .buf 0 s.len.toNat s t ∧ KeptOutside .tmp 0 s.geom.n3 s t
      ∧ t = { s with buf := t.buf, tmp := t.tmp, status := 0#8 }

/-- 44_pipeline.md R112 (which the spec marks as derived from the command rules), on the machine: from the
same state with AcceptFwd true, writing ENC's byte, or writing those of HDRN, RCDF and BMTF one after the
other, ends in the same state but for CMD; STATUS is OK after each. -/
def Obligations.EncEqualsItsThreeStages : Prop :=
  ∀ s : State, s.len.toNat ≤ s.params.bufCap → acceptFwd s = true →
    ∃ t a b c,
      exec .enc s = .next t
      ∧ exec .hdrn { s with cmd := 0x01#8 } = .next a ∧ a.status = 0#8
      ∧ exec .rcdf { a with cmd := 0x03#8 } = .next b ∧ b.status = 0#8
      ∧ exec .bmtf { b with cmd := 0x05#8 } = .next c
      ∧ c = { t with cmd := 0x05#8 } ∧ t.status = 0#8

/-- 44_pipeline.md R112 (marked as derived), the inverse direction: DEC equals BMTI, RCDI, HDRR but for
CMD. -/
def Obligations.DecEqualsItsThreeStages : Prop :=
  ∀ s : State, s.len.toNat ≤ s.params.bufCap → acceptInv s = true →
    ∃ t a b c,
      exec .dec s = .next t
      ∧ exec .bmti { s with cmd := 0x06#8 } = .next a ∧ a.status = 0#8
      ∧ exec .rcdi { a with cmd := 0x04#8 } = .next b ∧ b.status = 0#8
      ∧ exec .hdrr { b with cmd := 0x02#8 } = .next c
      ∧ c = { t with cmd := 0x02#8 } ∧ t.status = 0#8

/-- 44_pipeline.md R114 (marked "[derived: from ...]"), encode then decode: header and pixels are restored and
the padding is zero; if the padding was zero, every byte is restored. -/
def Obligations.DecUndoesEnc : Prop :=
  ∀ s : State, s.len.toNat ≤ s.params.bufCap → acceptFwd s = true →
    ∃ t r, exec .enc s = .next t ∧ exec .dec t = .next r ∧ r.status = 0#8
      ∧ (∀ a, a < 54 → r.byte .buf a = s.byte .buf a)
      ∧ (∀ y x c, y < s.geom.h → x < s.geom.w → c < 3 →
          pixelByte s.geom r y x c = pixelByte s.geom s y x c)
      ∧ PaddingZero s.geom r
      ∧ (PaddingZero s.geom s → ∀ a, r.byte .buf a = s.byte .buf a)

/-- 44_pipeline.md R114 (marked "[derived: from ...]"), decode then encode: a neutralised buffer with a zero
tail is restored byte for byte. -/
def Obligations.EncUndoesDec : Prop :=
  ∀ s : State, s.len.toNat ≤ s.params.bufCap → acceptInv s = true → TailZero s.geom s →
    ∃ t r, exec .dec s = .next t ∧ exec .enc t = .next r ∧ r.status = 0#8
      ∧ ∀ a, r.byte .buf a = s.byte .buf a

/-- 44_pipeline.md R113, R114 (marked "[derived: from ...]"): the whole flow. ENC, a ZENC that ends with OK
over any range, that range of BUF overwritten with anything, the matching ZDEC, and DEC restore an accepted
buffer with zero padding. -/
def Obligations.WholeFlowRestoresTheImage : Prop :=
  ∀ (s t z : State) (base n cap : Word) (chk : Bool) (ty : WordType) (overwritten : Memory),
    s.len.toNat ≤ s.params.bufCap → acceptFwd s = true → PaddingZero s.geom s →
    exec .enc s = .next t →
    exec (.zenc chk ty) { t with zbase := base, zn := n, zcap := cap } = .next z → z.status = 0#8 →
    (∀ a, a < base.toNat ∨ base.toNat + n.toNat * wordBytes ty ≤ a →
      ({ z with buf := overwritten } : State).byte .buf a = z.byte .buf a) →
    ∃ d r, exec (.zdec ty) { z with buf := overwritten } = .next d ∧ exec .dec d = .next r
      ∧ r.status = 0#8 ∧ ∀ a, r.byte .buf a = s.byte .buf a

/-! ### The invariant -/

/-- 10_state.md R12, R19 to R22, 20_memory.md R38: every step keeps a good state good: canonical memories
that hold no byte at or above their capacity, and a legal STATUS. (That memories are in one canonical
form is the model's own, notes/assumptions/2.md.) -/
def Obligations.StepKeepsGoodStates : Prop :=
  ∀ s t : State, s.good = true → step s = .next t → t.good = true

/-- The state after reset is good: STATUS is as 10_state.md R27 says, and no memory byte is specified, which
the model writes as empty lists. That memories have a canonical form, and that the empty list has it, is the
model's own (notes/assumptions/2.md). -/
def Obligations.ResetIsGood : Prop := State.reset.good = true

/-- 00_scope.md R7, 10_state.md R26: no step changes the implementation's parameters. (That they stand in
the state is the model's choice, notes/assumptions/1.md.) -/
def Obligations.StepKeepsTheParameters : Prop :=
  ∀ s t : State, step s = .next t → t.params = s.params
end

