-- ==== Sys2Proof/Laws/Loop.lean ====
section
/-!
SUPPORT. Bounded loops: what holds before, and is kept by every pass, holds after.
-/

namespace Sys2Proof.Machine

@[simp] theorem loop_zero {σ : Type} (body : Nat → σ → σ) (start : σ) : loop 0 body start = start := rfl

@[simp] theorem loop_succ {σ : Type} (n : Nat) (body : Nat → σ → σ) (start : σ) :
    loop (n + 1) body start = body n (loop n body start) := rfl

/-- The induction over a loop, packaged once. -/
theorem loop_induction {σ : Type} {P : Nat → σ → Prop} {n : Nat} {body : Nat → σ → σ} {start : σ}
    (h0 : P 0 start) (hs : ∀ i x, i < n → P i x → P (i + 1) (body i x)) : P n (loop n body start) := by
  induction n with
  | zero => exact h0
  | succ n ih => exact hs n _ (Nat.lt_succ_self n) (ih fun i x hi => hs i x (Nat.lt_succ_of_lt hi))

/-- A property that every pass keeps. -/
theorem loop_keeps {σ : Type} {P : σ → Prop} {n : Nat} {body : Nat → σ → σ} {start : σ}
    (h0 : P start) (hs : ∀ i x, i < n → P x → P (body i x)) : P (loop n body start) :=
  loop_induction (P := fun _ x => P x) h0 hs

/-- Loops with bodies that agree below the bound agree. -/
theorem loop_congr {σ : Type} {n : Nat} {f g : Nat → σ → σ} (start : σ)
    (h : ∀ i x, i < n → f i x = g i x) : loop n f start = loop n g start := by
  induction n with
  | zero => rfl
  | succ n ih =>
    rw [loop_succ, loop_succ, ih fun i x hi => h i x (Nat.lt_succ_of_lt hi), h n _ (Nat.lt_succ_self n)]

/-- A loop is a fold over `0, 1, .., n-1` in that order. -/
theorem loop_eq_foldl {σ : Type} (n : Nat) (body : Nat → σ → σ) (start : σ) :
    loop n body start = (List.range n).foldl (fun x i => body i x) start := by
  induction n with
  | zero => rfl
  | succ n ih => simp [List.range_succ, ih]

end Sys2Proof.Machine
end

