-- ==== Sys2Proof/Laws/Memory.lean ====
section
/-!
SUPPORT. Memories: a read after a write, the canonical form and its preservation, little-endian access, and
loops of writes.
-/

namespace Sys2Proof.Machine

/-! ### One byte -/

@[simp] theorem Memory.lookup_write_self (m : Memory) (a : Nat) (b : Byte) :
    Memory.lookup (Memory.write m a b) a = some b := by
  induction m with
  | nil => simp [Memory.write, Memory.lookup]
  | cons c rest ih =>
    obtain ⟨k, v⟩ := c
    unfold Memory.write
    split
    · simp [Memory.lookup]
    · split
      · simp [Memory.lookup]
      · rw [Memory.lookup, if_neg (by omega), ih]

theorem Memory.lookup_write_ne (m : Memory) {a x : Nat} (b : Byte) (h : x ≠ a) :
    Memory.lookup (Memory.write m a b) x = Memory.lookup m x := by
  induction m with
  | nil => simp [Memory.write, Memory.lookup, h.symm]
  | cons c rest ih =>
    obtain ⟨k, v⟩ := c
    unfold Memory.write
    split
    · simp [Memory.lookup, h.symm]
    · split
      · rename_i heq
        rw [Memory.lookup, Memory.lookup, if_neg h.symm, if_neg (by omega)]
      · simp only [Memory.lookup, ih]

theorem Memory.lookup_write (m : Memory) (a x : Nat) (b : Byte) :
    Memory.lookup (Memory.write m a b) x = if x = a then some b else Memory.lookup m x := by
  split
  · rename_i h; rw [h, Memory.lookup_write_self]
  · rename_i h; exact Memory.lookup_write_ne m b h

/-- A read after a write: the byte written, or what was there. -/
theorem Memory.read_write (u : Nat → Byte) (m : Memory) (a x : Nat) (b : Byte) :
    Memory.read u (Memory.write m a b) x = if x = a then b else Memory.read u m x := by
  unfold Memory.read
  rw [Memory.lookup_write]
  by_cases h : x = a <;> simp [h]

@[simp] theorem Memory.read_write_self (u : Nat → Byte) (m : Memory) (a : Nat) (b : Byte) :
    Memory.read u (Memory.write m a b) a = b := by
  rw [Memory.read_write, if_pos rfl]

theorem Memory.read_write_ne (u : Nat → Byte) (m : Memory) {a x : Nat} (b : Byte) (h : x ≠ a) :
    Memory.read u (Memory.write m a b) x = Memory.read u m x := by
  rw [Memory.read_write, if_neg h]

/-! ### The canonical form -/

/-- The canonical form as a pairwise order of offsets. -/
theorem Memory.wf_iff_pairwise (m : Memory) :
    Memory.wf m = true ↔ List.Pairwise (fun c d => c.1 < d.1) m := by
  induction m with
  | nil => simp [Memory.wf]
  | cons c rest ih =>
    cases rest with
    | nil => simp [Memory.wf]
    | cons d rest =>
      obtain ⟨a, b⟩ := c
      obtain ⟨a', b'⟩ := d
      simp only [Memory.wf, Bool.and_eq_true, decide_eq_true_eq, ih]
      constructor
      · rintro ⟨hlt, hp⟩
        refine List.Pairwise.cons ?_ hp
        intro x hx
        rcases List.mem_cons.1 hx with rfl | hx
        · exact hlt
        · exact hlt.trans (List.rel_of_pairwise_cons hp hx)
      · intro hp
        exact ⟨List.rel_of_pairwise_cons hp (List.mem_cons_self ..), hp.of_cons⟩

/-- The offsets listed after a write: those before it, and the one written. -/
theorem Memory.mem_write_fst {m : Memory} {a : Nat} {b : Byte} {c : Host.Cell}
    (h : c ∈ Memory.write m a b) : c.1 = a ∨ c ∈ m := by
  induction m with
  | nil => simp_all [Memory.write]
  | cons d rest ih =>
    obtain ⟨k, v⟩ := d
    unfold Memory.write at h
    split at h
    · rcases List.mem_cons.1 h with rfl | h
      · exact .inl rfl
      · exact .inr h
    · split at h
      · rcases List.mem_cons.1 h with rfl | h
        · exact .inl rfl
        · exact .inr (List.mem_cons_of_mem _ h)
      · rcases List.mem_cons.1 h with rfl | h
        · exact .inr (by simp)
        · exact (ih h).imp id (List.mem_cons_of_mem _)

/-- A write keeps the canonical form. -/
theorem Memory.wf_write {m : Memory} (h : Memory.wf m = true) (a : Nat) (b : Byte) :
    Memory.wf (Memory.write m a b) = true := by
  rw [Memory.wf_iff_pairwise] at *
  induction m with
  | nil => simp [Memory.write]
  | cons c rest ih =>
    obtain ⟨k, v⟩ := c
    have hrest := ih h.of_cons
    have hk := fun x hx => List.rel_of_pairwise_cons h (a' := x) hx
    unfold Memory.write
    split
    · rename_i hak
      refine List.Pairwise.cons ?_ h
      intro x hx
      rcases List.mem_cons.1 hx with rfl | hx
      · exact hak
      · exact hak.trans (hk x hx)
    · split
      · rename_i heq
        subst heq
        exact List.Pairwise.cons (fun x hx => hk x hx) h.of_cons
      · refine List.Pairwise.cons ?_ hrest
        intro x hx
        rcases Memory.mem_write_fst hx with hxa | hx
        · simp only [hxa]; omega
        · exact hk x hx

/-- A write below the capacity keeps every listed offset below it. -/
theorem Memory.below_write {cap : Nat} {m : Memory} (h : Memory.below cap m = true) {a : Nat}
    (ha : a < cap) (b : Byte) : Memory.below cap (Memory.write m a b) = true := by
  unfold Memory.below at *
  rw [List.all_eq_true] at *
  intro c hc
  rcases Memory.mem_write_fst hc with hca | hc
  · simpa [hca] using ha
  · exact h c hc

/-- Nothing is listed at an offset below the first. -/
theorem Memory.lookup_of_lt {m : Memory} {a : Nat} (h : ∀ c ∈ m, a < c.1) : Memory.lookup m a = none := by
  induction m with
  | nil => rfl
  | cons c rest ih =>
    have := h c (by simp)
    rw [Memory.lookup, if_neg (by omega)]
    exact ih fun d hd => h d (List.mem_cons_of_mem _ hd)

/-- Canonical memories with the same bytes are the same data. -/
theorem Memory.ext_of_wf {m m' : Memory} (h : Memory.wf m = true) (h' : Memory.wf m' = true)
    (e : ∀ a, Memory.lookup m a = Memory.lookup m' a) : m = m' := by
  rw [Memory.wf_iff_pairwise] at h h'
  induction m generalizing m' with
  | nil =>
    cases m' with
    | nil => rfl
    | cons c rest => have := e c.1; simp [Memory.lookup] at this
  | cons c rest ih =>
    cases m' with
    | nil => have := e c.1; simp [Memory.lookup] at this
    | cons c' rest' =>
      obtain ⟨k, v⟩ := c
      obtain ⟨k', v'⟩ := c'
      have hk := fun x hx => List.rel_of_pairwise_cons h (a' := x) hx
      have hk' := fun x hx => List.rel_of_pairwise_cons h' (a' := x) hx
      have hkk : k = k' := by
        rcases Nat.lt_trichotomy k k' with hlt | heq | hgt
        · have := e k
          rw [Memory.lookup_of_lt (m := (k', v') :: rest') (a := k) (by
            intro c hc
            rcases List.mem_cons.1 hc with rfl | hc
            · exact hlt
            · exact hlt.trans (hk' c hc))] at this
          simp [Memory.lookup] at this
        · exact heq
        · have := e k'
          rw [Memory.lookup_of_lt (m := (k, v) :: rest) (a := k') (by
            intro c hc
            rcases List.mem_cons.1 hc with rfl | hc
            · exact hgt
            · exact hgt.trans (hk c hc))] at this
          simp [Memory.lookup] at this
      subst hkk
      have hv : v = v' := by have := e k; simpa [Memory.lookup] using this
      subst hv
      congr 1
      refine ih h.of_cons h'.of_cons fun a => ?_
      by_cases hak : k = a
      · subst hak
        rw [Memory.lookup_of_lt fun c hc => hk c hc, Memory.lookup_of_lt fun c hc => hk' c hc]
      · have := e a
        simpa [Memory.lookup, hak] using this

/-- Writes to different offsets commute on canonical memories. -/
theorem Memory.write_comm {m : Memory} (h : Memory.wf m = true) {a a' : Nat} (b b' : Byte) (hne : a ≠ a') :
    Memory.write (Memory.write m a b) a' b' = Memory.write (Memory.write m a' b') a b := by
  refine Memory.ext_of_wf (Memory.wf_write (Memory.wf_write h _ _) _ _)
    (Memory.wf_write (Memory.wf_write h _ _) _ _) fun x => ?_
  simp only [Memory.lookup_write]
  by_cases h1 : x = a <;> by_cases h2 : x = a' <;> simp_all

/-! ### Little-endian access -/

@[simp] theorem readLE_zero (rd : Nat → Byte) (a : Nat) : readLE rd a 0 = 0 := rfl

theorem readLE_succ (rd : Nat → Byte) (a n : Nat) :
    readLE rd a (n + 1) = (rd a).toNat + 256 * readLE rd (a + 1) n := rfl

theorem readLE_lt (rd : Nat → Byte) (a n : Nat) : readLE rd a n < 256 ^ n := by
  induction n generalizing a with
  | zero => simp
  | succ n ih =>
    have h1 := (rd a).isLt
    have h2 := ih (a + 1)
    rw [readLE_succ, pow_succ]
    omega

/-- A little-endian read sees only the bytes it names. -/
theorem readLE_congr {rd rd' : Nat → Byte} {a n : Nat} (h : ∀ x, a ≤ x → x < a + n → rd x = rd' x) :
    readLE rd a n = readLE rd' a n := by
  induction n generalizing a with
  | zero => rfl
  | succ n ih =>
    rw [readLE_succ, readLE_succ, h a (by omega) (by omega),
      ih fun x h1 h2 => h x (by omega) (by omega)]

/-- Byte `k` of a little-endian read. -/
theorem readLE_byte (rd : Nat → Byte) (a n k : Nat) (h : k < n) :
    readLE rd a n / 256 ^ k % 256 = (rd (a + k)).toNat := by
  induction n generalizing a k with
  | zero => omega
  | succ n ih =>
    have h1 := (rd a).isLt
    cases k with
    | zero => rw [readLE_succ]; simp; omega
    | succ k =>
      rw [readLE_succ, pow_succ, Nat.mul_comm (256 ^ k), ← Nat.div_div_eq_div_mul,
        show ((rd a).toNat + 256 * readLE rd (a + 1) n) / 256 = readLE rd (a + 1) n by omega,
        ih (a + 1) k (by omega), show a + 1 + k = a + (k + 1) by omega]

/-- Two little-endian reads that agree read the same bytes. -/
theorem readLE_injective {rd rd' : Nat → Byte} {a a' n : Nat} (h : readLE rd a n = readLE rd' a' n)
    {k : Nat} (hk : k < n) : rd (a + k) = rd' (a' + k) := by
  apply BitVec.eq_of_toNat_eq
  rw [← readLE_byte rd a n k hk, ← readLE_byte rd' a' n k hk, h]

/-- Bit `8*k + i` of a little-endian read is bit `i` of byte `k`. -/
theorem readLE_testBit (rd : Nat → Byte) (a n k i : Nat) (h : k < n) (hi : i < 8) :
    (readLE rd a n).testBit (8 * k + i) = (rd (a + k)).getLsbD i := by
  have hb := readLE_byte rd a n k h
  rw [BitVec.getLsbD, ← hb, show (256 : Nat) ^ k = 2 ^ (8 * k) by rw [pow_mul]; norm_num,
    show (256 : Nat) = 2 ^ 8 by norm_num, Nat.testBit_mod_two_pow, Nat.testBit_div_two_pow]
  simp [hi, Nat.add_comm]

/-- The bytes listed by a little-endian write. -/
theorem lookup_writeLE (m : Memory) (a n : Nat) (v : Int) (x : Nat) :
    Memory.lookup (writeLE m a n v) x
      = if a ≤ x ∧ x < a + n then some (BitVec.ofInt 8 (v / 256 ^ (x - a))) else Memory.lookup m x := by
  induction n generalizing m a v with
  | zero => rw [writeLE, if_neg (by omega)]
  | succ n ih =>
    rw [writeLE, ih, Memory.lookup_write]
    by_cases hx : x = a
    · subst hx
      rw [if_neg (by omega), if_pos rfl, if_pos (by omega)]
      simp
    · by_cases hr : a + 1 ≤ x ∧ x < a + 1 + n
      · rw [if_pos hr, if_pos (by omega), show x - a = (x - (a + 1)) + 1 by omega, pow_succ,
          Int.ediv_ediv_of_nonneg (by norm_num), mul_comm]
      · rw [if_neg hr, if_neg hx, if_neg (by omega)]

theorem wf_writeLE {m : Memory} (h : Memory.wf m = true) (a n : Nat) (v : Int) :
    Memory.wf (writeLE m a n v) = true := by
  induction n generalizing m a v with
  | zero => exact h
  | succ n ih => exact ih (Memory.wf_write h _ _) _ _

theorem below_writeLE {cap : Nat} {m : Memory} (h : Memory.below cap m = true) {a n : Nat}
    (ha : a + n ≤ cap) (v : Int) : Memory.below cap (writeLE m a n v) = true := by
  induction n generalizing m a v with
  | zero => exact h
  | succ n ih => exact ih (Memory.below_write h (by omega) _) (by omega) _

/-- A little-endian read of bytes that nothing has written since is not touched by a write elsewhere. -/
theorem Memory.read_eq_of_lookup {u : Nat → Byte} {m m' : Memory} {a : Nat}
    (h : Memory.lookup m a = Memory.lookup m' a) : Memory.read u m a = Memory.read u m' a := by
  unfold Memory.read; rw [h]

/-! ### Loops of writes -/

/-- Nothing changes outside the offsets that a loop writes. -/
theorem lookup_loop_frame {n : Nat} {body : Nat → Memory → Memory} {m : Memory} {x : Nat}
    (h : ∀ i m', i < n → Memory.lookup (body i m') x = Memory.lookup m' x) :
    Memory.lookup (loop n body m) x = Memory.lookup m x :=
  loop_keeps (P := fun m' => Memory.lookup m' x = Memory.lookup m x) rfl
    fun i m' hi hm => (h i m' hi).trans hm

/-- The byte at an offset that one pass of a loop writes and no later pass does. -/
theorem lookup_loop_at {n : Nat} {body : Nat → Memory → Memory} {m : Memory} {x : Nat} {b : Option Byte} (i : Nat)
    (hi : i < n) (hw : ∀ m', Memory.lookup (body i m') x = b)
    (hl : ∀ j m', i < j → j < n → Memory.lookup (body j m') x = Memory.lookup m' x) :
    Memory.lookup (loop n body m) x = b := by
  induction n with
  | zero => omega
  | succ n ih =>
    rw [loop_succ]
    by_cases h : i = n
    · subst h; exact hw _
    · rw [hl n _ (by omega) (by omega)]
      exact ih (by omega) fun j m' h1 h2 => hl j m' h1 (by omega)

/-- A loop of single-byte writes at consecutive offsets. -/
theorem lookup_loop_range (n base : Nat) (v : Nat → Byte) (m : Memory) (x : Nat) :
    Memory.lookup (loop n (fun i m => Memory.write m (base + i) (v i)) m) x
      = if base ≤ x ∧ x < base + n then some (v (x - base)) else Memory.lookup m x := by
  induction n with
  | zero => rw [loop_zero, if_neg (by omega)]
  | succ n ih =>
    rw [loop_succ, Memory.lookup_write, ih]
    by_cases h : x = base + n
    · subst h
      rw [if_pos rfl, if_pos (by omega), Nat.add_sub_cancel_left]
    · rw [if_neg h]
      by_cases h' : base ≤ x ∧ x < base + n
      · rw [if_pos h', if_pos (by omega)]
      · rw [if_neg h', if_neg (by omega)]

theorem wf_loop {n : Nat} {body : Nat → Memory → Memory} {m : Memory} (h : Memory.wf m = true)
    (hb : ∀ i m', Memory.wf m' = true → Memory.wf (body i m') = true) :
    Memory.wf (loop n body m) = true :=
  loop_keeps (P := fun m => Memory.wf m = true) h fun i m' _ => hb i m'

theorem below_loop {cap n : Nat} {body : Nat → Memory → Memory} {m : Memory} (h : Memory.below cap m = true)
    (hb : ∀ i m', i < n → Memory.below cap m' = true → Memory.below cap (body i m') = true) :
    Memory.below cap (loop n body m) = true :=
  loop_keeps (P := fun m => Memory.below cap m = true) h hb

end Sys2Proof.Machine
end

