-- ==== Sys2Proof/Laws/Geometry.lean ====
section
/-!
SUPPORT. The arithmetic of the image geometry: strides, distinct offsets, bounds (spec/40_header.md rule R70,
spec/20_memory.md rules R38, R40 and R41, spec/42_bit_transpose.md rule R90).
-/

namespace Sys2Proof.Machine

theorem mul_add_injective {h a a' y y' : Nat} (hy : y < h) (hy' : y' < h) (e : a * h + y = a' * h + y') :
    a = a' ∧ y = y' := by
  have hpos : 0 < h := by omega
  have h1 : (a * h + y) / h = a := by
    rw [Nat.mul_comm, Nat.mul_add_div hpos, Nat.div_eq_of_lt hy, Nat.add_zero]
  have h2 : (a' * h + y') / h = a' := by
    rw [Nat.mul_comm, Nat.mul_add_div hpos, Nat.div_eq_of_lt hy', Nat.add_zero]
  have haa : a = a' := by rw [← h1, e, h2]
  subst haa
  exact ⟨rfl, by omega⟩

/-- An offset below `n * h` in a grid of rows of length `h`. -/
theorem mul_add_lt {h n a y : Nat} (hy : y < h) (ha : a < n) : a * h + y < n * h := by
  calc a * h + y < a * h + h := by omega
    _ = (a + 1) * h := by rw [Nat.add_mul, Nat.one_mul]
    _ ≤ n * h := Nat.mul_le_mul_right h ha

/-! ### Strides -/

theorem Geom.stride_ge (g : Geom) : 3 * g.w ≤ g.stride := by unfold Geom.stride; omega
theorem Geom.stride_lt (g : Geom) : g.stride < 3 * g.w + 4 := by unfold Geom.stride; omega
theorem Geom.stride_mod (g : Geom) : g.stride % 4 = 0 := by unfold Geom.stride; omega

/-- The residual bytes fit the pixel region. -/
theorem Geom.n3_le (g : Geom) : g.n3 ≤ g.h * g.stride := by
  unfold Geom.n3
  rw [Nat.mul_comm g.h]
  exact Nat.mul_le_mul_right _ g.stride_ge

theorem Geom.esize_add_extra (g : Geom) : g.esize + g.extra = g.n3 := by
  unfold Geom.esize Geom.extra; omega

theorem Geom.esize_eq (g : Geom) : g.esize = 8 * g.groups := by
  unfold Geom.groups Geom.esize Geom.extra; omega

theorem Geom.extra_lt (g : Geom) : g.extra < 8 := by unfold Geom.extra; omega

/-! ### Offsets in TMP -/

theorem Geom.planeAddr_eq (g : Geom) (k y x : Nat) : g.planeAddr k y x = (k * g.w + x) * g.h + y := by
  unfold Geom.planeAddr; ring

theorem Geom.planeAddr_lt (g : Geom) {k y x : Nat} (hk : k < 3) (hy : y < g.h) (hx : x < g.w) :
    g.planeAddr k y x < g.n3 := by
  rw [Geom.planeAddr_eq, Geom.n3]
  exact mul_add_lt hy (mul_add_lt hx hk)

theorem Geom.planeAddr_injective (g : Geom) {k k' y y' x x' : Nat} (hy : y < g.h) (hy' : y' < g.h)
    (hx : x < g.w) (hx' : x' < g.w) (e : g.planeAddr k y x = g.planeAddr k' y' x') :
    k = k' ∧ y = y' ∧ x = x' := by
  rw [Geom.planeAddr_eq, Geom.planeAddr_eq] at e
  obtain ⟨e1, e2⟩ := mul_add_injective hy hy' e
  obtain ⟨e3, e4⟩ := mul_add_injective hx hx' e1
  exact ⟨e3, e2, e4⟩

/-- Every offset of TMP below `n3` is the plane offset of one channel of one pixel. -/
theorem Geom.exists_planeAddr (g : Geom) {a : Nat} (ha : a < g.n3) :
    ∃ k y x, k < 3 ∧ y < g.h ∧ x < g.w ∧ a = g.planeAddr k y x := by
  have hh : 0 < g.h := by
    rcases Nat.eq_zero_or_pos g.h with h | h
    · simp [Geom.n3, h] at ha
    · exact h
  have hw : 0 < g.w := by
    rcases Nat.eq_zero_or_pos g.w with h | h
    · simp [Geom.n3, h] at ha
    · exact h
  refine ⟨a / g.h / g.w, a % g.h, a / g.h % g.w, ?_, Nat.mod_lt _ hh, Nat.mod_lt _ hw, ?_⟩
  · rw [Nat.div_lt_iff_lt_mul hw, Nat.div_lt_iff_lt_mul hh]
    exact ha
  · rw [Geom.planeAddr_eq, Nat.div_add_mod', Nat.div_add_mod']

/-! ### Offsets in the pixel region of BUF -/

theorem Geom.pixelAddr_eq (g : Geom) (y x : Nat) : g.pixelAddr y x = 54 + (y * g.stride + 3 * x) := by
  unfold Geom.pixelAddr; omega

/-- The rows of the pixel region do not meet. -/
theorem Geom.row_injective (g : Geom) {y y' i i' : Nat} (hi : i < g.stride) (hi' : i' < g.stride)
    (e : 54 + y * g.stride + i = 54 + y' * g.stride + i') : y = y' ∧ i = i' :=
  mul_add_injective hi hi' (by omega)

theorem Geom.row_lt (g : Geom) {y i : Nat} (hy : y < g.h) (hi : i < g.stride) :
    54 + y * g.stride + i < 54 + g.h * g.stride := by
  have := mul_add_lt hi hy
  omega

/-- Every offset of the pixel region lies in one row. -/
theorem Geom.exists_row (g : Geom) {a : Nat} (h1 : 54 ≤ a) (h2 : a < 54 + g.h * g.stride) :
    ∃ y i, y < g.h ∧ i < g.stride ∧ a = 54 + y * g.stride + i := by
  have hs : 0 < g.stride := by
    rcases Nat.eq_zero_or_pos g.stride with h | h
    · rw [h] at h2; omega
    · exact h
  refine ⟨(a - 54) / g.stride, (a - 54) % g.stride, ?_, Nat.mod_lt _ hs, ?_⟩
  · rw [Nat.div_lt_iff_lt_mul hs]; omega
  · have := Nat.div_add_mod' (a - 54) g.stride
    omega

/-! ### GeomOK -/

/-- What GeomOK says of the geometry the commands use (40_header.md R70). -/
theorem geomOK_iff (s : State) :
    geomOK s = true ↔ 54 ≤ s.len.toNat ∧ 1 ≤ s.widthField ∧ 1 ≤ s.heightField
      ∧ 54 + s.geom.h * s.geom.stride = s.len.toNat := by
  simp [geomOK, and_assoc]

theorem geomOK_len {s : State} (h : geomOK s = true) : 54 + s.geom.h * s.geom.stride = s.len.toNat :=
  ((geomOK_iff s).1 h).2.2.2

theorem geomOK_width {s : State} (h : geomOK s = true) : (s.geom.w : Int) = s.widthField ∧ 1 ≤ s.geom.w := by
  have := ((geomOK_iff s).1 h).2.1
  constructor <;> simp only [State.geom] <;> omega

theorem geomOK_height {s : State} (h : geomOK s = true) : (s.geom.h : Int) = s.heightField ∧ 1 ≤ s.geom.h := by
  have := ((geomOK_iff s).1 h).2.2.1
  constructor <;> simp only [State.geom] <;> omega

/-- The residual bytes lie inside the buffer (20_memory.md R38). -/
theorem geomOK_n3 {s : State} (h : geomOK s = true) : 54 + s.geom.n3 ≤ s.len.toNat := by
  have := geomOK_len h
  have := s.geom.n3_le
  omega

/-- The residual bytes fit TMP (20_memory.md R38). -/
theorem geomOK_tmp {s : State} (h : geomOK s = true) (hc : s.len.toNat ≤ s.params.bufCap) :
    s.geom.n3 ≤ s.params.tmpCap := by
  have h1 := geomOK_n3 h
  have h2 := s.params.tmpCap_ge
  omega

/-- The geometry is a function of bytes 18 to 25 of BUF. -/
theorem geom_congr {s t : State} (h : ∀ a, 18 ≤ a → a < 26 → t.byte .buf a = s.byte .buf a) :
    t.widthField = s.widthField ∧ t.heightField = s.heightField ∧ t.geom = s.geom := by
  have hw : t.widthField = s.widthField := by
    unfold State.widthField get32
    rw [readLE_congr fun x h1 h2 => h x h1 (by omega)]
  have hh : t.heightField = s.heightField := by
    unfold State.heightField get32
    rw [readLE_congr fun x h1 h2 => h x (by omega) (by omega)]
  exact ⟨hw, hh, by unfold State.geom; rw [hw, hh]⟩

theorem geomOK_congr {s t : State} (h : ∀ a, 18 ≤ a → a < 26 → t.byte .buf a = s.byte .buf a)
    (hl : t.len = s.len) : geomOK t = geomOK s := by
  obtain ⟨h1, h2, h3⟩ := geom_congr h
  unfold geomOK
  rw [h1, h2, h3, hl]

/-! ### The two header checks -/

theorem acceptFwd_iff (s : State) :
    acceptFwd s = true ↔ 54 ≤ s.len.toNat ∧ s.byte .buf 0 = 0x42#8 ∧ s.byte .buf 1 = 0x4D#8
      ∧ get32 (s.byte .buf) 6 = 0 ∧ get32 (s.byte .buf) 10 = 54 ∧ get32 (s.byte .buf) 14 = 40
      ∧ get16 (s.byte .buf) 26 = 1 ∧ get16 (s.byte .buf) 28 = 24 ∧ get32 (s.byte .buf) 30 = 0
      ∧ get32 (s.byte .buf) 46 = 0 ∧ get32 (s.byte .buf) 50 = 0
      ∧ 1 ≤ s.widthField ∧ 1 ≤ s.heightField
      ∧ get32 (s.byte .buf) 2 = ((54 + s.geom.h * s.geom.stride : Nat) : Int)
      ∧ get32 (s.byte .buf) 34 = ((s.geom.h * s.geom.stride : Nat) : Int)
      ∧ get32 (s.byte .buf) 2 = (s.len.toNat : Int) := by
  simp [acceptFwd, and_assoc]

theorem acceptInv_iff (s : State) :
    acceptInv s = true ↔ 54 ≤ s.len.toNat ∧ s.byte .buf 0 = 0#8 ∧ s.byte .buf 1 = 0#8
      ∧ get32 (s.byte .buf) 2 = 0 ∧ get32 (s.byte .buf) 6 = 0 ∧ get32 (s.byte .buf) 10 = 0
      ∧ get32 (s.byte .buf) 14 = 0 ∧ get16 (s.byte .buf) 26 = 0 ∧ get16 (s.byte .buf) 28 = 0
      ∧ get32 (s.byte .buf) 30 = 0 ∧ get32 (s.byte .buf) 34 = 0 ∧ get32 (s.byte .buf) 46 = 0
      ∧ get32 (s.byte .buf) 50 = 0 ∧ geomOK s = true := by
  simp [acceptInv, and_assoc]

/-- AcceptFwd implies GeomOK (40_header.md R71). -/
theorem acceptFwd_geomOK {s : State} (h : acceptFwd s = true) : geomOK s = true := by
  obtain ⟨h0, -, -, -, -, -, -, -, -, -, -, hw, hh, hf, -, hl⟩ := (acceptFwd_iff s).1 h
  exact (geomOK_iff s).2 ⟨h0, hw, hh, by rw [hf] at hl; exact_mod_cast hl⟩

/-- AcceptInv implies GeomOK (40_header.md R73). -/
theorem acceptInv_geomOK {s : State} (h : acceptInv s = true) : geomOK s = true :=
  ((acceptInv_iff s).1 h).2.2.2.2.2.2.2.2.2.2.2.2.2

theorem geomOK_len_ge {s : State} (h : geomOK s = true) : 54 ≤ s.len.toNat := ((geomOK_iff s).1 h).1

end Sys2Proof.Machine
end

