-- ==== Sys2Proof/Laws/BitTranspose.lean ====
section
/-!
SUPPORT. What the loops of component D write, offset by offset (spec/42_bit_transpose.md rules R92, R93 and
R95).
-/

namespace Sys2Proof.Machine

/-! ### Offsets -/

theorem Geom.slabAddr_eq (g : Geom) (j i : Nat) : g.slabAddr j i = 54 + (j * g.groups + i) := by
  unfold Geom.slabAddr; omega

theorem Geom.slabAddr_injective (g : Geom) {j j' i i' : Nat} (hi : i < g.groups) (hi' : i' < g.groups)
    (e : g.slabAddr j i = g.slabAddr j' i') : j = j' ∧ i = i' := by
  rw [Geom.slabAddr_eq, Geom.slabAddr_eq] at e
  exact mul_add_injective hi hi' (by omega)

theorem Geom.slabAddr_lt (g : Geom) {j i : Nat} (hj : j < 8) (hi : i < g.groups) :
    g.slabAddr j i < 54 + g.esize := by
  rw [Geom.slabAddr_eq, Geom.esize_eq]
  have := mul_add_lt hi hj
  omega

theorem Geom.slabAddr_ge (g : Geom) (j i : Nat) : 54 ≤ g.slabAddr j i := by
  rw [Geom.slabAddr_eq]; omega

/-! ### Forward -/

/-- What one group of `BitTransposeForward` writes. -/
theorem lookup_groupForward (g : Geom) (rd : Nat → Byte) {i : Nat} (m : Memory) (hi : i < g.groups)
    {j i' : Nat} (hj : j < 8) (hi' : i' < g.groups) :
    Memory.lookup (groupForward g rd i m) (g.slabAddr j i')
      = if i' = i then some (wordByte (transpose8 (groupWord rd i)) j)
        else Memory.lookup m (g.slabAddr j i') := by
  unfold groupForward
  split
  · rename_i h
    subst h
    refine lookup_loop_at j hj (fun m' => Memory.lookup_write_self ..) (fun k m' h1 h2 => ?_)
    refine Memory.lookup_write_ne _ _ fun e => ?_
    have := (g.slabAddr_injective hi hi e).1
    omega
  · rename_i h
    refine lookup_loop_frame fun k m' h1 => Memory.lookup_write_ne _ _ fun e => h ?_
    exact (g.slabAddr_injective hi' hi e).2

theorem lookup_groupForward_outside (g : Geom) (rd : Nat → Byte) {i : Nat} (m : Memory) (hi : i < g.groups)
    {a : Nat} (ha : a < 54 ∨ 54 + g.esize ≤ a) :
    Memory.lookup (groupForward g rd i m) a = Memory.lookup m a := by
  refine lookup_loop_frame fun j m' hj => Memory.lookup_write_ne _ _ fun e => ?_
  have := g.slabAddr_lt hj hi
  have := g.slabAddr_ge j i
  omega

/-- The slabs that `BitTransposeForward` writes (42_bit_transpose.md R92). -/
theorem lookup_bitTransposeForward_slab (g : Geom) (rd : Nat → Byte) (buf : Memory) {j i : Nat} (hj : j < 8)
    (hi : i < g.groups) :
    Memory.lookup (bitTransposeForward g rd buf) (g.slabAddr j i)
      = some (wordByte (transpose8 (groupWord rd i)) j) := by
  unfold bitTransposeForward
  rw [lookup_loop_range, if_neg (by have := g.slabAddr_lt hj hi; omega)]
  refine lookup_loop_at i hi (fun m => ?_) (fun k m h1 h2 => ?_)
  · rw [lookup_groupForward g rd m hi hj hi, if_pos rfl]
  · rw [lookup_groupForward g rd m h2 hj hi, if_neg (by omega)]

/-- The remainder that `BitTransposeForward` copies (42_bit_transpose.md R92). -/
theorem lookup_bitTransposeForward_extra (g : Geom) (rd : Nat → Byte) (buf : Memory) {k : Nat}
    (hk : k < g.extra) :
    Memory.lookup (bitTransposeForward g rd buf) (54 + g.esize + k) = some (rd (g.esize + k)) := by
  unfold bitTransposeForward
  rw [lookup_loop_range (v := fun k => rd (g.esize + k)), if_pos (by omega), Nat.add_sub_cancel_left]

/-- `BitTransposeForward` writes nothing outside the residual bytes. -/
theorem lookup_bitTransposeForward_outside (g : Geom) (rd : Nat → Byte) (buf : Memory) {a : Nat}
    (ha : a < 54 ∨ 54 + g.n3 ≤ a) :
    Memory.lookup (bitTransposeForward g rd buf) a = Memory.lookup buf a := by
  have := g.esize_add_extra
  unfold bitTransposeForward
  rw [lookup_loop_range, if_neg (by omega)]
  exact lookup_loop_frame fun i m hi => lookup_groupForward_outside g rd m hi (by omega)

/-- The tail (42_bit_transpose.md R93). -/
theorem lookup_zeroTail (g : Geom) (len : Nat) (buf : Memory) (a : Nat) :
    Memory.lookup (zeroTail g len buf) a
      = if 54 + g.n3 ≤ a ∧ a < len then some 0#8 else Memory.lookup buf a := by
  unfold zeroTail
  rw [lookup_loop_range (v := fun _ => 0#8)]
  by_cases h : 54 + g.n3 ≤ a ∧ a < len
  · rw [if_pos h, if_pos (by omega)]
  · rw [if_neg h, if_neg (by omega)]

theorem wf_bitTransposeForward {m : Memory} (h : Memory.wf m = true) (g : Geom) (rd : Nat → Byte) :
    Memory.wf (bitTransposeForward g rd m) = true :=
  wf_loop (wf_loop h fun _ _ h' => wf_loop h' fun _ _ h'' => Memory.wf_write h'' _ _)
    fun _ _ h' => Memory.wf_write h' _ _

theorem wf_zeroTail {m : Memory} (h : Memory.wf m = true) (g : Geom) (len : Nat) :
    Memory.wf (zeroTail g len m) = true :=
  wf_loop h fun _ _ h' => Memory.wf_write h' _ _

theorem below_bitTransposeForward {cap : Nat} {m : Memory} (h : Memory.below cap m = true) (g : Geom)
    (rd : Nat → Byte) (hc : 54 + g.n3 ≤ cap) : Memory.below cap (bitTransposeForward g rd m) = true := by
  have := g.esize_add_extra
  refine below_loop (below_loop h fun i m' hi h' => below_loop h' fun j m'' hj h'' => ?_) fun k m' hk h' => ?_
  · exact Memory.below_write h'' (by have := g.slabAddr_lt hj hi; omega) _
  · exact Memory.below_write h' (by omega) _

theorem below_zeroTail {cap : Nat} {m : Memory} (h : Memory.below cap m = true) (g : Geom) {len : Nat}
    (hc : len ≤ cap) : Memory.below cap (zeroTail g len m) = true :=
  below_loop h fun _ _ hk h' => Memory.below_write h' (by omega) _

/-- `BitTransposeForward` reads nothing at or above `n3`. -/
theorem bitTransposeForward_congr (g : Geom) {rd rd' : Nat → Byte} (buf : Memory)
    (h : ∀ a, a < g.n3 → rd a = rd' a) : bitTransposeForward g rd buf = bitTransposeForward g rd' buf := by
  have he := g.esize_add_extra
  have h8 := g.esize_eq
  unfold bitTransposeForward
  rw [loop_congr buf (g := groupForward g rd') fun i m hi => by
    unfold groupForward groupWord
    rw [readLE_congr fun x h1 h2 => h x (by omega)]]
  exact loop_congr _ fun k m hk => by rw [h _ (by omega)]

/-! ### Inverse -/

/-- The words that `BitTransposeInverse` writes (42_bit_transpose.md R95). -/
theorem lookup_bitTransposeInverse_word (g : Geom) (rd : Nat → Byte) (tmp : Memory) {i b : Nat}
    (hi : i < g.groups) (hb : b < 8) :
    Memory.lookup (bitTransposeInverse g rd tmp) (8 * i + b)
      = some (BitVec.ofInt 8 (((transpose8 (slabWord g rd i)).toNat : Int) / 256 ^ b)) := by
  have h8 := g.esize_eq
  unfold bitTransposeInverse
  rw [lookup_loop_range (v := fun k => rd (54 + g.esize + k)), if_neg (by omega)]
  refine lookup_loop_at i hi (fun m => ?_) (fun k m h1 h2 => ?_)
  · rw [lookup_writeLE, if_pos (by omega), Nat.add_sub_cancel_left]
  · rw [lookup_writeLE, if_neg (by omega)]

/-- The remainder that `BitTransposeInverse` copies (42_bit_transpose.md R95). -/
theorem lookup_bitTransposeInverse_extra (g : Geom) (rd : Nat → Byte) (tmp : Memory) {k : Nat}
    (hk : k < g.extra) :
    Memory.lookup (bitTransposeInverse g rd tmp) (g.esize + k) = some (rd (54 + g.esize + k)) := by
  unfold bitTransposeInverse
  rw [lookup_loop_range (v := fun k => rd (54 + g.esize + k)), if_pos (by omega), Nat.add_sub_cancel_left]

/-- `BitTransposeInverse` writes nothing at or above `n3` (42_bit_transpose.md R96). -/
theorem lookup_bitTransposeInverse_above (g : Geom) (rd : Nat → Byte) (tmp : Memory) {a : Nat}
    (ha : g.n3 ≤ a) : Memory.lookup (bitTransposeInverse g rd tmp) a = Memory.lookup tmp a := by
  have he := g.esize_add_extra
  have h8 := g.esize_eq
  unfold bitTransposeInverse
  rw [lookup_loop_range (v := fun k => rd (54 + g.esize + k)), if_neg (by omega)]
  exact lookup_loop_frame fun i m hi => by rw [lookup_writeLE, if_neg (by omega)]

theorem wf_bitTransposeInverse {m : Memory} (h : Memory.wf m = true) (g : Geom) (rd : Nat → Byte) :
    Memory.wf (bitTransposeInverse g rd m) = true :=
  wf_loop (wf_loop h fun _ _ h' => wf_writeLE h' _ _ _) fun _ _ h' => Memory.wf_write h' _ _

theorem below_bitTransposeInverse {cap : Nat} {m : Memory} (h : Memory.below cap m = true) (g : Geom)
    (rd : Nat → Byte) (hc : g.n3 ≤ cap) : Memory.below cap (bitTransposeInverse g rd m) = true := by
  have he := g.esize_add_extra
  have h8 := g.esize_eq
  refine below_loop (below_loop h fun i m' hi h' => ?_) fun k m' hk h' => ?_
  · exact below_writeLE h' (by omega) _
  · exact Memory.below_write h' (by omega) _

/-- `BitTransposeInverse` reads nothing of BUF but the residual bytes (42_bit_transpose.md R96: "the tail is
not read"). -/
theorem bitTransposeInverse_congr (g : Geom) {rd rd' : Nat → Byte} (tmp : Memory)
    (h : ∀ a, 54 ≤ a → a < 54 + g.n3 → rd a = rd' a) :
    bitTransposeInverse g rd tmp = bitTransposeInverse g rd' tmp := by
  have he := g.esize_add_extra
  unfold bitTransposeInverse
  rw [loop_congr tmp (g := fun i m => writeLE m (8 * i) 8 (transpose8 (slabWord g rd' i)).toNat)
    fun i m hi => by
      unfold slabWord
      rw [readLE_congr fun j h1 h2 => h _ (g.slabAddr_ge j i) (by have := g.slabAddr_lt (j := j) (by omega) hi; omega)]]
  exact loop_congr _ fun k m hk => by rw [h _ (by omega) (by omega)]

end Sys2Proof.Machine
end

