-- ==== Sys2Proof/Laws/State.lean ====
section
/-!
SUPPORT. The small lemmas of State: what each named update leaves in each field, true by definition.
-/

namespace Sys2Proof.Machine

/-! ### s.setCode c -/

@[simp] theorem State.setCode_cmd (s : State) (c : Code) : (s.setCode c).cmd = s.cmd := rfl
@[simp] theorem State.setCode_status (s : State) (c : Code) : (s.setCode c).status = statusOf c := rfl
@[simp] theorem State.setCode_len (s : State) (c : Code) : (s.setCode c).len = s.len := rfl
@[simp] theorem State.setCode_zbase (s : State) (c : Code) : (s.setCode c).zbase = s.zbase := rfl
@[simp] theorem State.setCode_zn (s : State) (c : Code) : (s.setCode c).zn = s.zn := rfl
@[simp] theorem State.setCode_zcap (s : State) (c : Code) : (s.setCode c).zcap = s.zcap := rfl
@[simp] theorem State.setCode_zlen (s : State) (c : Code) : (s.setCode c).zlen = s.zlen := rfl
@[simp] theorem State.setCode_buf (s : State) (c : Code) : (s.setCode c).buf = s.buf := rfl
@[simp] theorem State.setCode_tmp (s : State) (c : Code) : (s.setCode c).tmp = s.tmp := rfl
@[simp] theorem State.setCode_dns (s : State) (c : Code) : (s.setCode c).dns = s.dns := rfl
@[simp] theorem State.setCode_bmap (s : State) (c : Code) : (s.setCode c).bmap = s.bmap := rfl
@[simp] theorem State.setCode_params (s : State) (c : Code) : (s.setCode c).params = s.params := rfl
@[simp] theorem State.setCode_pending (s : State) (c : Code) : (s.setCode c).pending = s.pending := rfl
@[simp] theorem State.setCode_hostData (s : State) (c : Code) : (s.setCode c).hostData = s.hostData := rfl
@[simp] theorem State.setCode_epoch (s : State) (c : Code) : (s.setCode c).epoch = s.epoch := rfl
@[simp] theorem State.setCode_draws (s : State) (c : Code) : (s.setCode c).draws = s.draws := rfl

/-! ### s.setCmd c -/

@[simp] theorem State.setCmd_cmd (s : State) (c : Byte) : (s.setCmd c).cmd = c := rfl
@[simp] theorem State.setCmd_status (s : State) (c : Byte) : (s.setCmd c).status = s.status := rfl
@[simp] theorem State.setCmd_len (s : State) (c : Byte) : (s.setCmd c).len = s.len := rfl
@[simp] theorem State.setCmd_zbase (s : State) (c : Byte) : (s.setCmd c).zbase = s.zbase := rfl
@[simp] theorem State.setCmd_zn (s : State) (c : Byte) : (s.setCmd c).zn = s.zn := rfl
@[simp] theorem State.setCmd_zcap (s : State) (c : Byte) : (s.setCmd c).zcap = s.zcap := rfl
@[simp] theorem State.setCmd_zlen (s : State) (c : Byte) : (s.setCmd c).zlen = s.zlen := rfl
@[simp] theorem State.setCmd_buf (s : State) (c : Byte) : (s.setCmd c).buf = s.buf := rfl
@[simp] theorem State.setCmd_tmp (s : State) (c : Byte) : (s.setCmd c).tmp = s.tmp := rfl
@[simp] theorem State.setCmd_dns (s : State) (c : Byte) : (s.setCmd c).dns = s.dns := rfl
@[simp] theorem State.setCmd_bmap (s : State) (c : Byte) : (s.setCmd c).bmap = s.bmap := rfl
@[simp] theorem State.setCmd_params (s : State) (c : Byte) : (s.setCmd c).params = s.params := rfl
@[simp] theorem State.setCmd_pending (s : State) (c : Byte) : (s.setCmd c).pending = s.pending := rfl
@[simp] theorem State.setCmd_hostData (s : State) (c : Byte) : (s.setCmd c).hostData = s.hostData := rfl
@[simp] theorem State.setCmd_epoch (s : State) (c : Byte) : (s.setCmd c).epoch = s.epoch := rfl
@[simp] theorem State.setCmd_draws (s : State) (c : Byte) : (s.setCmd c).draws = s.draws := rfl

/-! ### s.setZlen v -/

@[simp] theorem State.setZlen_cmd (s : State) (v : Word) : (s.setZlen v).cmd = s.cmd := rfl
@[simp] theorem State.setZlen_status (s : State) (v : Word) : (s.setZlen v).status = s.status := rfl
@[simp] theorem State.setZlen_len (s : State) (v : Word) : (s.setZlen v).len = s.len := rfl
@[simp] theorem State.setZlen_zbase (s : State) (v : Word) : (s.setZlen v).zbase = s.zbase := rfl
@[simp] theorem State.setZlen_zn (s : State) (v : Word) : (s.setZlen v).zn = s.zn := rfl
@[simp] theorem State.setZlen_zcap (s : State) (v : Word) : (s.setZlen v).zcap = s.zcap := rfl
@[simp] theorem State.setZlen_zlen (s : State) (v : Word) : (s.setZlen v).zlen = v := rfl
@[simp] theorem State.setZlen_buf (s : State) (v : Word) : (s.setZlen v).buf = s.buf := rfl
@[simp] theorem State.setZlen_tmp (s : State) (v : Word) : (s.setZlen v).tmp = s.tmp := rfl
@[simp] theorem State.setZlen_dns (s : State) (v : Word) : (s.setZlen v).dns = s.dns := rfl
@[simp] theorem State.setZlen_bmap (s : State) (v : Word) : (s.setZlen v).bmap = s.bmap := rfl
@[simp] theorem State.setZlen_params (s : State) (v : Word) : (s.setZlen v).params = s.params := rfl
@[simp] theorem State.setZlen_pending (s : State) (v : Word) : (s.setZlen v).pending = s.pending := rfl
@[simp] theorem State.setZlen_hostData (s : State) (v : Word) : (s.setZlen v).hostData = s.hostData := rfl
@[simp] theorem State.setZlen_epoch (s : State) (v : Word) : (s.setZlen v).epoch = s.epoch := rfl
@[simp] theorem State.setZlen_draws (s : State) (v : Word) : (s.setZlen v).draws = s.draws := rfl

/-! ### s.deliver v -/

@[simp] theorem State.deliver_cmd (s : State) (v : Word) : (s.deliver v).cmd = s.cmd := rfl
@[simp] theorem State.deliver_status (s : State) (v : Word) : (s.deliver v).status = s.status := rfl
@[simp] theorem State.deliver_len (s : State) (v : Word) : (s.deliver v).len = s.len := rfl
@[simp] theorem State.deliver_zbase (s : State) (v : Word) : (s.deliver v).zbase = s.zbase := rfl
@[simp] theorem State.deliver_zn (s : State) (v : Word) : (s.deliver v).zn = s.zn := rfl
@[simp] theorem State.deliver_zcap (s : State) (v : Word) : (s.deliver v).zcap = s.zcap := rfl
@[simp] theorem State.deliver_zlen (s : State) (v : Word) : (s.deliver v).zlen = s.zlen := rfl
@[simp] theorem State.deliver_buf (s : State) (v : Word) : (s.deliver v).buf = s.buf := rfl
@[simp] theorem State.deliver_tmp (s : State) (v : Word) : (s.deliver v).tmp = s.tmp := rfl
@[simp] theorem State.deliver_dns (s : State) (v : Word) : (s.deliver v).dns = s.dns := rfl
@[simp] theorem State.deliver_bmap (s : State) (v : Word) : (s.deliver v).bmap = s.bmap := rfl
@[simp] theorem State.deliver_params (s : State) (v : Word) : (s.deliver v).params = s.params := rfl
@[simp] theorem State.deliver_pending (s : State) (v : Word) : (s.deliver v).pending = s.pending := rfl
@[simp] theorem State.deliver_hostData (s : State) (v : Word) : (s.deliver v).hostData = v := rfl
@[simp] theorem State.deliver_epoch (s : State) (v : Word) : (s.deliver v).epoch = s.epoch := rfl
@[simp] theorem State.deliver_draws (s : State) (v : Word) : (s.deliver v).draws = s.draws := rfl

/-! ### s.applyReset -/

@[simp] theorem State.applyReset_cmd (s : State) : (s.applyReset).cmd = 0#8 := rfl
@[simp] theorem State.applyReset_status (s : State) : (s.applyReset).status = 0#8 := rfl
@[simp] theorem State.applyReset_len (s : State) : (s.applyReset).len = 0#32 := rfl
@[simp] theorem State.applyReset_zbase (s : State) : (s.applyReset).zbase = 0#32 := rfl
@[simp] theorem State.applyReset_zn (s : State) : (s.applyReset).zn = 0#32 := rfl
@[simp] theorem State.applyReset_zcap (s : State) : (s.applyReset).zcap = 0#32 := rfl
@[simp] theorem State.applyReset_zlen (s : State) : (s.applyReset).zlen = 0#32 := rfl
@[simp] theorem State.applyReset_buf (s : State) : (s.applyReset).buf = [] := rfl
@[simp] theorem State.applyReset_tmp (s : State) : (s.applyReset).tmp = [] := rfl
@[simp] theorem State.applyReset_dns (s : State) : (s.applyReset).dns = [] := rfl
@[simp] theorem State.applyReset_bmap (s : State) : (s.applyReset).bmap = [] := rfl
@[simp] theorem State.applyReset_params (s : State) : (s.applyReset).params = s.params := rfl
@[simp] theorem State.applyReset_pending (s : State) : (s.applyReset).pending = s.pending := rfl
@[simp] theorem State.applyReset_hostData (s : State) : (s.applyReset).hostData = s.hostData := rfl
@[simp] theorem State.applyReset_epoch (s : State) : (s.applyReset).epoch = s.epoch + 1 := rfl
@[simp] theorem State.applyReset_draws (s : State) : (s.applyReset).draws = s.draws := rfl

@[simp] theorem State.setMem_cmd (s : State) (m : MemId) (c : Memory) : (s.setMem m c).cmd = s.cmd := by
  cases m <;> rfl
@[simp] theorem State.setMem_status (s : State) (m : MemId) (c : Memory) : (s.setMem m c).status = s.status := by
  cases m <;> rfl
@[simp] theorem State.setMem_len (s : State) (m : MemId) (c : Memory) : (s.setMem m c).len = s.len := by
  cases m <;> rfl
@[simp] theorem State.setMem_zbase (s : State) (m : MemId) (c : Memory) : (s.setMem m c).zbase = s.zbase := by
  cases m <;> rfl
@[simp] theorem State.setMem_zn (s : State) (m : MemId) (c : Memory) : (s.setMem m c).zn = s.zn := by
  cases m <;> rfl
@[simp] theorem State.setMem_zcap (s : State) (m : MemId) (c : Memory) : (s.setMem m c).zcap = s.zcap := by
  cases m <;> rfl
@[simp] theorem State.setMem_zlen (s : State) (m : MemId) (c : Memory) : (s.setMem m c).zlen = s.zlen := by
  cases m <;> rfl
@[simp] theorem State.setMem_buf_self (s : State) (c : Memory) : (s.setMem .buf c).buf = c := rfl
@[simp] theorem State.setMem_tmp_buf (s : State) (c : Memory) : (s.setMem .tmp c).buf = s.buf := rfl
@[simp] theorem State.setMem_dns_buf (s : State) (c : Memory) : (s.setMem .dns c).buf = s.buf := rfl
@[simp] theorem State.setMem_bmap_buf (s : State) (c : Memory) : (s.setMem .bmap c).buf = s.buf := rfl
@[simp] theorem State.setMem_tmp_self (s : State) (c : Memory) : (s.setMem .tmp c).tmp = c := rfl
@[simp] theorem State.setMem_buf_tmp (s : State) (c : Memory) : (s.setMem .buf c).tmp = s.tmp := rfl
@[simp] theorem State.setMem_dns_tmp (s : State) (c : Memory) : (s.setMem .dns c).tmp = s.tmp := rfl
@[simp] theorem State.setMem_bmap_tmp (s : State) (c : Memory) : (s.setMem .bmap c).tmp = s.tmp := rfl
@[simp] theorem State.setMem_dns_self (s : State) (c : Memory) : (s.setMem .dns c).dns = c := rfl
@[simp] theorem State.setMem_buf_dns (s : State) (c : Memory) : (s.setMem .buf c).dns = s.dns := rfl
@[simp] theorem State.setMem_tmp_dns (s : State) (c : Memory) : (s.setMem .tmp c).dns = s.dns := rfl
@[simp] theorem State.setMem_bmap_dns (s : State) (c : Memory) : (s.setMem .bmap c).dns = s.dns := rfl
@[simp] theorem State.setMem_bmap_self (s : State) (c : Memory) : (s.setMem .bmap c).bmap = c := rfl
@[simp] theorem State.setMem_buf_bmap (s : State) (c : Memory) : (s.setMem .buf c).bmap = s.bmap := rfl
@[simp] theorem State.setMem_tmp_bmap (s : State) (c : Memory) : (s.setMem .tmp c).bmap = s.bmap := rfl
@[simp] theorem State.setMem_dns_bmap (s : State) (c : Memory) : (s.setMem .dns c).bmap = s.bmap := rfl
@[simp] theorem State.setMem_params (s : State) (m : MemId) (c : Memory) : (s.setMem m c).params = s.params := by
  cases m <;> rfl
@[simp] theorem State.setMem_pending (s : State) (m : MemId) (c : Memory) : (s.setMem m c).pending = s.pending := by
  cases m <;> rfl
@[simp] theorem State.setMem_hostData (s : State) (m : MemId) (c : Memory) : (s.setMem m c).hostData = s.hostData := by
  cases m <;> rfl
@[simp] theorem State.setMem_epoch (s : State) (m : MemId) (c : Memory) : (s.setMem m c).epoch = s.epoch := by
  cases m <;> rfl
@[simp] theorem State.setMem_draws (s : State) (m : MemId) (c : Memory) : (s.setMem m c).draws = s.draws := by
  cases m <;> rfl

/-! ### Memories by name -/

@[simp] theorem State.mem_buf (s : State) : s.mem .buf = s.buf := rfl
@[simp] theorem State.mem_tmp (s : State) : s.mem .tmp = s.tmp := rfl
@[simp] theorem State.mem_dns (s : State) : s.mem .dns = s.dns := rfl
@[simp] theorem State.mem_bmap (s : State) : s.mem .bmap = s.bmap := rfl

@[simp] theorem State.setMem_mem (s : State) (m m' : MemId) (c : Memory) :
    (s.setMem m c).mem m' = if m' = m then c else s.mem m' := by
  cases m <;> cases m' <;> rfl

@[simp] theorem State.setMem_unwritten (s : State) (m m' : MemId) (c : Memory) :
    (s.setMem m c).unwritten m' = s.unwritten m' := by
  cases m <;> rfl

@[simp] theorem State.setCode_mem (s : State) (c : Code) (m : MemId) : (s.setCode c).mem m = s.mem m := by
  cases m <;> rfl

@[simp] theorem State.setCode_unwritten (s : State) (c : Code) (m : MemId) :
    (s.setCode c).unwritten m = s.unwritten m := rfl

/-- The bytes of a memory after it is replaced. -/
theorem State.setMem_byte (s : State) (m m' : MemId) (c : Memory) (a : Nat) :
    (s.setMem m c).byte m' a = if m' = m then Memory.read (s.unwritten m) c a else s.byte m' a := by
  cases m <;> cases m' <;> rfl

@[simp] theorem State.setMem_byte_self (s : State) (m : MemId) (c : Memory) (a : Nat) :
    (s.setMem m c).byte m a = Memory.read (s.unwritten m) c a := by
  cases m <;> rfl

@[simp] theorem State.setMem_byte_ne (s : State) {m m' : MemId} (h : m' ≠ m) (c : Memory) :
    (s.setMem m c).byte m' = s.byte m' := by
  funext a
  rw [State.setMem_byte, if_neg h]

@[simp] theorem State.setCode_byte (s : State) (c : Code) : (s.setCode c).byte = s.byte := by
  funext m a; cases m <;> rfl

@[simp] theorem State.setCmd_byte (s : State) (c : Byte) : (s.setCmd c).byte = s.byte := by
  funext m a; cases m <;> rfl

/-- Two states that differ at most in one memory are one `setMem` apart. -/
theorem State.setMem_self (s : State) (m : MemId) : s.setMem m (s.mem m) = s := by
  cases m <;> rfl

/-! ### The codes of STATUS -/

@[simp] theorem statusOf_ok : statusOf .ok = 0#8 := rfl
@[simp] theorem statusOf_inputTooSmall : statusOf .inputTooSmall = 1#8 := rfl
@[simp] theorem statusOf_unsupportedFormat : statusOf .unsupportedFormat = 2#8 := rfl
@[simp] theorem statusOf_capacityExceeded : statusOf .capacityExceeded = 3#8 := rfl
@[simp] theorem statusOf_paramError : statusOf .paramError = 4#8 := rfl
@[simp] theorem statusOf_illegalCommand : statusOf .illegalCommand = 5#8 := rfl

theorem statusOf_legal (c : Code) : (statusOf c).toNat ≤ 5 := by cases c <;> decide

theorem statusOf_injective {c d : Code} (h : statusOf c = statusOf d) : c = d := by
  revert h; cases c <;> cases d <;> decide

end Sys2Proof.Machine
end

