-- ==== Sys2Proof/Laws/Guard.lean ====
section
/-!
SUPPORT. What the shared opening of the header, stage and pipeline commands can do, and when every command
runs its transform (spec/60_exceptions.md rules R122 to R124).
-/

namespace Sys2Proof.Machine

/-- Everything a guarded command can do: one of three errors, each with its condition, or the transform. -/
theorem guarded_cases (accept : State → Bool) (tr : State → State) (s : State) :
    (s.params.bufCap < s.len.toNat ∧ guarded accept tr s = .next (s.setCode .paramError))
    ∨ (s.len.toNat ≤ s.params.bufCap ∧ s.len.toNat < 54
        ∧ guarded accept tr s = .next (s.setCode .inputTooSmall))
    ∨ (s.len.toNat ≤ s.params.bufCap ∧ 54 ≤ s.len.toNat ∧ accept s = false
        ∧ guarded accept tr s = .next (s.setCode .unsupportedFormat))
    ∨ (s.len.toNat ≤ s.params.bufCap ∧ 54 ≤ s.len.toNat ∧ accept s = true
        ∧ guarded accept tr s = .next ((tr s).setCode .ok)) := by
  unfold guarded raiseErr finish
  by_cases h1 : s.params.bufCap < s.len.toNat
  · exact .inl ⟨h1, if_pos h1⟩
  · by_cases h2 : s.len.toNat < 54
    · exact .inr (.inl ⟨by omega, h2, by rw [if_neg h1, if_pos h2]⟩)
    · cases h3 : accept s with
      | false => exact .inr (.inr (.inl ⟨by omega, by omega, rfl, by simp [h1, h2]⟩))
      | true => exact .inr (.inr (.inr ⟨by omega, by omega, rfl, by simp [h1, h2]⟩))

/-- A guarded command that passes its checks runs its transform. -/
theorem guarded_run {accept : State → Bool} (tr : State → State) {s : State}
    (hc : s.len.toNat ≤ s.params.bufCap) (hl : 54 ≤ s.len.toNat) (ha : accept s = true) :
    guarded accept tr s = .next ((tr s).setCode .ok) := by
  rcases guarded_cases accept tr s with ⟨h, -⟩ | ⟨-, h, -⟩ | ⟨-, -, h, -⟩ | ⟨-, -, -, h⟩
  · omega
  · omega
  · rw [ha] at h; cases h
  · exact h

/-- What a guarded command that answers `t` did: an error code on the state as it was, or the transform. -/
theorem guarded_next {accept : State → Bool} {tr : State → State} {s t : State}
    (h : guarded accept tr s = .next t) :
    (∃ c, c ∈ [Code.paramError, .inputTooSmall, .unsupportedFormat] ∧ t = s.setCode c)
    ∨ (s.len.toNat ≤ s.params.bufCap ∧ 54 ≤ s.len.toNat ∧ accept s = true ∧ t = (tr s).setCode .ok) := by
  rcases guarded_cases accept tr s with ⟨-, e⟩ | ⟨-, -, e⟩ | ⟨-, -, -, e⟩ | ⟨h1, h2, h3, e⟩ <;>
    rw [e] at h <;> cases h
  · exact .inl ⟨_, by simp, rfl⟩
  · exact .inl ⟨_, by simp, rfl⟩
  · exact .inl ⟨_, by simp, rfl⟩
  · exact .inr ⟨h1, h2, h3, rfl⟩

end Sys2Proof.Machine
end

