-- ==== Sys2Proof/Laws/Header.lean ====
section
/-!
SUPPORT. What the header transforms of component B leave at each offset, and what their fields' bytes are
(spec/40_header.md rules R75 and R76).
-/

namespace Sys2Proof.Machine

/-! ### Reading past a write -/

theorem Memory.read_writeLE (u : Nat → Byte) (m : Memory) (a n : Nat) (v : Int) (x : Nat) :
    Memory.read u (writeLE m a n v) x
      = if a ≤ x ∧ x < a + n then BitVec.ofInt 8 (v / 256 ^ (x - a)) else Memory.read u m x := by
  unfold Memory.read
  rw [lookup_writeLE]
  by_cases h : a ≤ x ∧ x < a + n <;> simp [h]

theorem Memory.read_writeLE_ne (u : Nat → Byte) (m : Memory) {a n : Nat} (v : Int) {x : Nat}
    (h : x < a ∨ a + n ≤ x) : Memory.read u (writeLE m a n v) x = Memory.read u m x := by
  rw [Memory.read_writeLE, if_neg (by omega)]

theorem get32_writeLE_ne (u : Nat → Byte) (m : Memory) {a n b : Nat} (v : Int)
    (h : a + n ≤ b ∨ b + 4 ≤ a) : get32 (Memory.read u (writeLE m a n v)) b = get32 (Memory.read u m) b := by
  unfold get32
  rw [readLE_congr fun x h1 h2 => Memory.read_writeLE_ne u m v (by omega)]

theorem get16_writeLE_ne (u : Nat → Byte) (m : Memory) {a n b : Nat} (v : Int)
    (h : a + n ≤ b ∨ b + 2 ≤ a) : get16 (Memory.read u (writeLE m a n v)) b = get16 (Memory.read u m) b := by
  unfold get16
  rw [readLE_congr fun x h1 h2 => Memory.read_writeLE_ne u m v (by omega)]

theorem emod_mul_split (v k : Int) (hk : 0 < k) : v % (k * 256) = v % 256 + 256 * (v / 256 % k) := by
  have e1 := Int.emod_add_mul_ediv v 256
  have e2 := Int.emod_add_mul_ediv (v / 256) k
  have b1 := Int.emod_nonneg (v / 256) (ne_of_gt hk)
  have b2 := Int.emod_lt_of_pos (v / 256) hk
  have b3 := Int.emod_nonneg v (show (256 : Int) ≠ 0 by norm_num)
  have b4 := Int.emod_lt_of_pos v (show (0 : Int) < 256 by norm_num)
  refine ((Int.ediv_emod_unique (a := v) (b := k * 256) (q := v / 256 / k) (by omega)).2 ⟨?_, by omega, by omega⟩).2
  calc v % 256 + 256 * (v / 256 % k) + k * 256 * (v / 256 / k)
      = v % 256 + 256 * (v / 256 % k + k * (v / 256 / k)) := by ring
    _ = v := by rw [e2, e1]

/-- What a little-endian write stored, a little-endian read of the same bytes returns modulo `256^n`. -/
theorem readLE_of_writeLE (u : Nat → Byte) (m : Memory) (a n : Nat) (v : Int) :
    (readLE (Memory.read u (writeLE m a n v)) a n : Int) = v % 256 ^ n := by
  induction n generalizing m a v with
  | zero => simp
  | succ n ih =>
    have hrest : readLE (Memory.read u (writeLE m a (n + 1) v)) (a + 1) n
        = readLE (Memory.read u (writeLE (Memory.write m a (BitVec.ofInt 8 v)) (a + 1) n (v / 256))) (a + 1) n := rfl
    have hfirst : Memory.read u (writeLE m a (n + 1) v) a = BitVec.ofInt 8 v := by
      rw [Memory.read_writeLE, if_pos (by omega)]; simp
    have h8 : ((BitVec.ofInt 8 v).toNat : Int) = v % 256 := by
      rw [BitVec.toNat_ofInt]; omega
    rw [readLE_succ, hrest, hfirst, Nat.cast_add, Nat.cast_mul, ih, h8, pow_succ,
      emod_mul_split v _ (by positivity)]
    rfl

/-! ### The nine writes of each direction -/

/-- The writes of both directions, each of a value computed from the header as it was: `m` with the given
new values in the nine fields that are written. -/
def headerWith (m : Memory) (b0 b1 f2 f10 f14 f26 f28 f34 f42 : Int) : Memory :=
  writeLE (writeLE (writeLE (writeLE (writeLE (writeLE (writeLE (writeLE (writeLE m 0 1 b0) 1 1 b1)
    2 4 f2) 10 4 f10) 14 4 f14) 26 2 f26) 28 2 f28) 34 4 f34) 42 4 f42

theorem addByte_of_read {u : Nat → Byte} {a : Nat} {m : Memory} {v : Byte} (d : Int)
    (h : Memory.read u m a = v) : addByte u a d m = writeLE m a 1 (v.toNat + d) := by rw [← h]; rfl

theorem add16_of_read {u : Nat → Byte} {a : Nat} {m : Memory} {v : Int} (d : Int)
    (h : get16 (Memory.read u m) a = v) : add16 u a d m = writeLE m a 2 (v + d) := by rw [← h]; rfl

theorem add32_of_read {u : Nat → Byte} {a : Nat} {m : Memory} {v : Int} (d : Int)
    (h : get32 (Memory.read u m) a = v) : add32 u a d m = writeLE m a 4 (v + d) := by rw [← h]; rfl

/-- `NeutraliseHeader` computes every new value from the header as it was (40_header.md R75: "their order
does not matter"). -/
theorem neutraliseHeader_eq (u : Nat → Byte) (g : Geom) (m : Memory) :
    neutraliseHeader u g m
      = headerWith m ((Memory.read u m 0).toNat + -0x42) ((Memory.read u m 1).toNat + -0x4D)
          (get32 (Memory.read u m) 2 + -((g.h * g.stride + 54 : Nat) : Int))
          (get32 (Memory.read u m) 10 + -54) (get32 (Memory.read u m) 14 + -40)
          (get16 (Memory.read u m) 26 + -1) (get16 (Memory.read u m) 28 + -24)
          (get32 (Memory.read u m) 34 + -((g.h * g.stride : Nat) : Int))
          (get32 (Memory.read u m) 42 + -(get32 (Memory.read u m) 38)) := by
  unfold neutraliseHeader headerWith
  dsimp only
  rw [addByte_of_read _ (a := 0) rfl,
    addByte_of_read _ (a := 1) (v := Memory.read u m 1) (by simp (disch := decide) only [Memory.read_writeLE_ne]),
    add32_of_read _ (a := 2) (v := get32 (Memory.read u m) 2) (by simp (disch := decide) only [get32_writeLE_ne]),
    add32_of_read _ (a := 10) (v := get32 (Memory.read u m) 10) (by simp (disch := decide) only [get32_writeLE_ne]),
    add32_of_read _ (a := 14) (v := get32 (Memory.read u m) 14) (by simp (disch := decide) only [get32_writeLE_ne]),
    add16_of_read _ (a := 26) (v := get16 (Memory.read u m) 26) (by simp (disch := decide) only [get16_writeLE_ne]),
    add16_of_read _ (a := 28) (v := get16 (Memory.read u m) 28) (by simp (disch := decide) only [get16_writeLE_ne]),
    add32_of_read _ (a := 34) (v := get32 (Memory.read u m) 34) (by simp (disch := decide) only [get32_writeLE_ne]),
    add32_of_read _ (a := 42) (v := get32 (Memory.read u m) 42) (by simp (disch := decide) only [get32_writeLE_ne])]
  simp (disch := decide) only [get32_writeLE_ne]

/-- `RestoreHeader` computes every new value from the header as it was (40_header.md R76). -/
theorem restoreHeader_eq (u : Nat → Byte) (g : Geom) (m : Memory) :
    restoreHeader u g m
      = headerWith m ((Memory.read u m 0).toNat + 0x42) ((Memory.read u m 1).toNat + 0x4D)
          (get32 (Memory.read u m) 2 + ((g.h * g.stride + 54 : Nat) : Int))
          (get32 (Memory.read u m) 10 + 54) (get32 (Memory.read u m) 14 + 40)
          (get16 (Memory.read u m) 26 + 1) (get16 (Memory.read u m) 28 + 24)
          (get32 (Memory.read u m) 34 + ((g.h * g.stride : Nat) : Int))
          (get32 (Memory.read u m) 42 + get32 (Memory.read u m) 38) := by
  unfold restoreHeader headerWith
  dsimp only
  rw [addByte_of_read _ (a := 0) rfl,
    addByte_of_read _ (a := 1) (v := Memory.read u m 1) (by simp (disch := decide) only [Memory.read_writeLE_ne]),
    add32_of_read _ (a := 2) (v := get32 (Memory.read u m) 2) (by simp (disch := decide) only [get32_writeLE_ne]),
    add32_of_read _ (a := 10) (v := get32 (Memory.read u m) 10) (by simp (disch := decide) only [get32_writeLE_ne]),
    add32_of_read _ (a := 14) (v := get32 (Memory.read u m) 14) (by simp (disch := decide) only [get32_writeLE_ne]),
    add16_of_read _ (a := 26) (v := get16 (Memory.read u m) 26) (by simp (disch := decide) only [get16_writeLE_ne]),
    add16_of_read _ (a := 28) (v := get16 (Memory.read u m) 28) (by simp (disch := decide) only [get16_writeLE_ne]),
    add32_of_read _ (a := 34) (v := get32 (Memory.read u m) 34) (by simp (disch := decide) only [get32_writeLE_ne]),
    add32_of_read _ (a := 42) (v := get32 (Memory.read u m) 42) (by simp (disch := decide) only [get32_writeLE_ne])]
  simp (disch := decide) only [get32_writeLE_ne]

/-- Every byte after the nine writes, the last write first. -/
theorem read_headerWith (u : Nat → Byte) (m : Memory) (b0 b1 f2 f10 f14 f26 f28 f34 f42 : Int) (x : Nat) :
    Memory.read u (headerWith m b0 b1 f2 f10 f14 f26 f28 f34 f42) x
      = if 42 ≤ x ∧ x < 42 + 4 then BitVec.ofInt 8 (f42 / 256 ^ (x - 42))
        else if 34 ≤ x ∧ x < 34 + 4 then BitVec.ofInt 8 (f34 / 256 ^ (x - 34))
        else if 28 ≤ x ∧ x < 28 + 2 then BitVec.ofInt 8 (f28 / 256 ^ (x - 28))
        else if 26 ≤ x ∧ x < 26 + 2 then BitVec.ofInt 8 (f26 / 256 ^ (x - 26))
        else if 14 ≤ x ∧ x < 14 + 4 then BitVec.ofInt 8 (f14 / 256 ^ (x - 14))
        else if 10 ≤ x ∧ x < 10 + 4 then BitVec.ofInt 8 (f10 / 256 ^ (x - 10))
        else if 2 ≤ x ∧ x < 2 + 4 then BitVec.ofInt 8 (f2 / 256 ^ (x - 2))
        else if 1 ≤ x ∧ x < 1 + 1 then BitVec.ofInt 8 (b1 / 256 ^ (x - 1))
        else if 0 ≤ x ∧ x < 0 + 1 then BitVec.ofInt 8 (b0 / 256 ^ (x - 0))
        else Memory.read u m x := by
  unfold headerWith
  rw [Memory.read_writeLE, Memory.read_writeLE, Memory.read_writeLE, Memory.read_writeLE,
    Memory.read_writeLE, Memory.read_writeLE, Memory.read_writeLE, Memory.read_writeLE, Memory.read_writeLE]

theorem wf_headerWith {m : Memory} (h : Memory.wf m = true) (b0 b1 f2 f10 f14 f26 f28 f34 f42 : Int) :
    Memory.wf (headerWith m b0 b1 f2 f10 f14 f26 f28 f34 f42) = true := by
  unfold headerWith
  iterate 9 apply wf_writeLE
  exact h

theorem below_headerWith {cap : Nat} {m : Memory} (h : Memory.below cap m = true) (hc : 54 ≤ cap)
    (b0 b1 f2 f10 f14 f26 f28 f34 f42 : Int) :
    Memory.below cap (headerWith m b0 b1 f2 f10 f14 f26 f28 f34 f42) = true := by
  unfold headerWith
  iterate 9 refine below_writeLE ?_ (by omega) _
  exact h

/-- Outside the nine written fields both directions leave every byte as it was. -/
theorem read_headerWith_frame (u : Nat → Byte) (m : Memory) (b0 b1 f2 f10 f14 f26 f28 f34 f42 : Int) {x : Nat}
    (h : (6 ≤ x ∧ x < 10) ∨ (18 ≤ x ∧ x < 26) ∨ (30 ≤ x ∧ x < 34) ∨ (38 ≤ x ∧ x < 42) ∨ 46 ≤ x) :
    Memory.read u (headerWith m b0 b1 f2 f10 f14 f26 f28 f34 f42) x = Memory.read u m x := by
  unfold headerWith
  simp (disch := omega) only [Memory.read_writeLE_ne]

/-! ### Fields and their bytes -/

/-- A signed field is zero exactly when its four bytes are. -/
theorem get32_eq_zero_iff (rd : Nat → Byte) (a : Nat) :
    get32 rd a = 0 ↔ ∀ k, k < 4 → rd (a + k) = 0#8 := by
  have hlt := readLE_lt rd a 4
  have key : get32 rd a = 0 ↔ readLE rd a 4 = 0 := by unfold get32 asI32; split <;> omega
  rw [key]
  constructor
  · intro h k hk
    apply BitVec.eq_of_toNat_eq
    rw [← readLE_byte rd a 4 k hk, h]; simp
  · intro h
    rw [show readLE rd a 4 = readLE (fun _ => 0#8) a 4 from readLE_congr fun x h1 h2 => by
      have := h (x - a) (by omega); rwa [show a + (x - a) = x by omega] at this]
    simp [readLE]

theorem get16_eq_zero_iff (rd : Nat → Byte) (a : Nat) :
    get16 rd a = 0 ↔ rd a = 0#8 ∧ rd (a + 1) = 0#8 := by
  have h0 := (rd a).isLt
  have h1 := (rd (a + 1)).isLt
  have key : get16 rd a = ((rd a).toNat + 256 * (rd (a + 1)).toNat : Nat) := by simp [get16, readLE]
  rw [key]
  constructor
  · intro h
    constructor <;> apply BitVec.eq_of_toNat_eq <;> simp <;> omega
  · rintro ⟨e0, e1⟩
    rw [e0, e1]; simp

/-- A signed field with a value below `2^31` has the little-endian bytes of that value. -/
theorem get32_eq_iff (rd : Nat → Byte) (a v : Nat) (hv : v < 2147483648) :
    get32 rd a = (v : Int) ↔ ∀ k, k < 4 → rd (a + k) = BitVec.ofNat 8 (v / 256 ^ k) := by
  have hlt := readLE_lt rd a 4
  have key : get32 rd a = (v : Int) ↔ readLE rd a 4 = v := by unfold get32 asI32; split <;> omega
  rw [key]
  constructor
  · intro h k hk
    apply BitVec.eq_of_toNat_eq
    rw [← readLE_byte rd a 4 k hk, h]; simp
  · intro h
    have hb : ∀ k, k < 4 → (rd (a + k)).toNat = v / 256 ^ k % 256 := fun k hk => by rw [h k hk]; simp
    have e0 := hb 0 (by omega)
    have e1 := hb 1 (by omega)
    have e2 := hb 2 (by omega)
    have e3 := hb 3 (by omega)
    simp only [Nat.add_zero, pow_zero, Nat.div_one] at e0
    simp only [readLE, e0, e1, show a + 1 + 1 = a + 2 by omega, show a + 2 + 1 = a + 3 by omega, e2, e3]
    omega

end Sys2Proof.Machine
end

