-- ==== Sys2Proof/Laws/RowDiff.lean ====
section
/-!
SUPPORT. What the loops of component C write, offset by offset (spec/41_rowdiff_tcms.md rules R80 to R84).
-/

namespace Sys2Proof.Machine

/-- A channel of a triple. -/
def Triple.get (t : Triple) (k : Nat) : Byte := if k = 0 then t.c0 else if k = 1 then t.c1 else t.c2

/-! ### TCMS -/

/-- Only the low byte of its argument reaches `TCMS` (41_rowdiff_tcms.md R80). -/
theorem tcms_eq_low (p : BitVec 32) :
    tcms p = (p.setWidth 8 <<< 1) ^^^ (if (p.setWidth 8).getLsbD 7 then 0xFF#8 else 0#8) := by
  have hs : (p <<< 24).getLsbD 31 = (p.setWidth 8).getLsbD 7 := by simp
  have hm : ∀ b : Bool, (if b then 0xFFFFFFFF#32 else 0#32).setWidth 8 = if b then 0xFF#8 else 0#8 := by decide
  have ha : (p <<< 1).setWidth 8 = p.setWidth 8 <<< 1 := by ext i; simp
  unfold tcms
  rw [BitVec.setWidth_xor, ha, hm, hs]

theorem low_sub (a b : BitVec 32) : (a - b).setWidth 8 = a.setWidth 8 - b.setWidth 8 := by
  apply BitVec.eq_of_toNat_eq
  simp only [BitVec.toNat_setWidth, BitVec.toNat_sub]
  have := a.isLt
  have := b.isLt
  omega

theorem low_of_byte (b : Byte) : (b.setWidth 32).setWidth 8 = b := by
  apply BitVec.eq_of_toNat_eq
  have := b.isLt
  simp only [BitVec.toNat_setWidth]
  omega

/-- The residuals of a pixel in byte arithmetic (41_rowdiff_tcms.md R86). -/
theorem residual_eq (n p : Triple) :
    residual n p =
      { c0 := tcms (((n.c0 - p.c0) - (n.c1 - p.c1)).setWidth 32)
        c1 := tcms ((n.c1 - p.c1).setWidth 32)
        c2 := tcms (((n.c2 - p.c2) - (n.c1 - p.c1)).setWidth 32) } := by
  simp only [residual, tcms_eq_low, low_sub, low_of_byte]

/-! ### Forward -/

/-- The predictor of a pixel in the forward direction: the pixel before it (41_rowdiff_tcms.md R82). -/
def predictorOf (g : Geom) (rd : Nat → Byte) (y x : Nat) : Triple :=
  if x = 0 then firstPredictor g rd y else pixelAt g rd y (x - 1)

/-- The residuals of a pixel (41_rowdiff_tcms.md R82). -/
def residualOf (g : Geom) (rd : Nat → Byte) (y x : Nat) : Triple :=
  residual (pixelAt g rd y x) (predictorOf g rd y x)

theorem lookup_storeResidual (g : Geom) {y x : Nat} (r : Triple) (m : Memory) (hy : y < g.h) (hx : x < g.w)
    {k y' x' : Nat} (hk : k < 3) (hy' : y' < g.h) (hx' : x' < g.w) :
    Memory.lookup (storeResidual g y x r m) (g.planeAddr k y' x')
      = if y' = y ∧ x' = x then some (r.get k) else Memory.lookup m (g.planeAddr k y' x') := by
  have inj : ∀ c, g.planeAddr k y' x' = g.planeAddr c y x ↔ k = c ∧ y' = y ∧ x' = x := fun c =>
    ⟨fun e => g.planeAddr_injective hy' hy hx' hx e, by rintro ⟨rfl, rfl, rfl⟩; rfl⟩
  simp only [storeResidual, Memory.lookup_write, inj, Triple.get]
  by_cases h : y' = y ∧ x' = x
  · simp only [h, and_true]
    obtain rfl | rfl | rfl : k = 0 ∨ k = 1 ∨ k = 2 := by omega
    all_goals simp
  · simp [h]

theorem lookup_storeResidual_above (g : Geom) {y x : Nat} (r : Triple) (m : Memory) (hy : y < g.h)
    (hx : x < g.w) {a : Nat} (ha : g.n3 ≤ a) :
    Memory.lookup (storeResidual g y x r m) a = Memory.lookup m a := by
  have h0 := g.planeAddr_lt (k := 0) (by omega) hy hx
  have h1 := g.planeAddr_lt (k := 1) (by omega) hy hx
  have h2 := g.planeAddr_lt (k := 2) (by omega) hy hx
  simp only [storeResidual]
  rw [Memory.lookup_write_ne _ _ (by omega), Memory.lookup_write_ne _ _ (by omega),
    Memory.lookup_write_ne _ _ (by omega)]

/-- One row as a loop of stores: the carried predictor is the pixel before. -/
theorem rowForward_eq (g : Geom) (rd : Nat → Byte) (y : Nat) (tmp : Memory) :
    rowForward g rd y tmp = loop g.w (fun x m => storeResidual g y x (residualOf g rd y x) m) tmp := by
  unfold rowForward
  suffices h : ∀ n, loop n (fun x acc =>
      (storeResidual g y x (residual (pixelAt g rd y x) acc.2) acc.1, pixelAt g rd y x))
      (tmp, firstPredictor g rd y)
      = (loop n (fun x m => storeResidual g y x (residualOf g rd y x) m) tmp, predictorOf g rd y n) by
    exact congrArg Prod.fst (h g.w)
  intro n
  induction n with
  | zero => simp [predictorOf]
  | succ n ih => simp [ih, residualOf, predictorOf]

/-- What one row of `RowDiffForward` writes. -/
theorem lookup_rowForward (g : Geom) (rd : Nat → Byte) {y : Nat} (tmp : Memory) (hy : y < g.h)
    {k y' x' : Nat} (hk : k < 3) (hy' : y' < g.h) (hx' : x' < g.w) :
    Memory.lookup (rowForward g rd y tmp) (g.planeAddr k y' x')
      = if y' = y then some ((residualOf g rd y x').get k) else Memory.lookup tmp (g.planeAddr k y' x') := by
  rw [rowForward_eq]
  split
  · rename_i h
    subst h
    refine lookup_loop_at x' hx' (fun m => ?_) (fun j m h1 h2 => ?_)
    · rw [lookup_storeResidual g _ _ hy hx' hk hy hx', if_pos ⟨rfl, rfl⟩]
    · rw [lookup_storeResidual g _ _ hy h2 hk hy hx', if_neg (by omega)]
  · rename_i h
    refine lookup_loop_frame fun j m h1 => ?_
    rw [lookup_storeResidual g _ _ hy h1 hk hy' hx', if_neg (by omega)]

theorem lookup_rowForward_above (g : Geom) (rd : Nat → Byte) {y : Nat} (tmp : Memory) (hy : y < g.h)
    {a : Nat} (ha : g.n3 ≤ a) : Memory.lookup (rowForward g rd y tmp) a = Memory.lookup tmp a := by
  rw [rowForward_eq]
  exact lookup_loop_frame fun j m h1 => lookup_storeResidual_above g _ _ hy h1 ha

/-- What `RowDiffForward` writes: every residual of every pixel (41_rowdiff_tcms.md R82). -/
theorem lookup_rowDiffForward (g : Geom) (rd : Nat → Byte) (tmp : Memory) {k y x : Nat} (hk : k < 3)
    (hy : y < g.h) (hx : x < g.w) :
    Memory.lookup (rowDiffForward g rd tmp) (g.planeAddr k y x) = some ((residualOf g rd y x).get k) := by
  unfold rowDiffForward
  refine lookup_loop_at y hy (fun m => ?_) (fun j m h1 h2 => ?_)
  · rw [lookup_rowForward g rd _ hy hk hy hx, if_pos rfl]
  · rw [lookup_rowForward g rd _ h2 hk hy hx, if_neg (by omega)]

/-- `RowDiffForward` writes nothing at or above `n3` (41_rowdiff_tcms.md R83). -/
theorem lookup_rowDiffForward_above (g : Geom) (rd : Nat → Byte) (tmp : Memory) {a : Nat} (ha : g.n3 ≤ a) :
    Memory.lookup (rowDiffForward g rd tmp) a = Memory.lookup tmp a :=
  lookup_loop_frame fun _ m h1 => lookup_rowForward_above g rd m h1 ha

theorem wf_storeResidual {m : Memory} (h : Memory.wf m = true) (g : Geom) (y x : Nat) (r : Triple) :
    Memory.wf (storeResidual g y x r m) = true :=
  Memory.wf_write (Memory.wf_write (Memory.wf_write h _ _) _ _) _ _

theorem wf_rowForward {m : Memory} (h : Memory.wf m = true) (g : Geom) (rd : Nat → Byte) (y : Nat) :
    Memory.wf (rowForward g rd y m) = true := by
  rw [rowForward_eq]
  exact wf_loop h fun _ _ h' => wf_storeResidual h' ..

theorem wf_rowDiffForward {m : Memory} (h : Memory.wf m = true) (g : Geom) (rd : Nat → Byte) :
    Memory.wf (rowDiffForward g rd m) = true :=
  wf_loop h fun _ _ h' => wf_rowForward h' ..

theorem below_rowDiffForward {cap : Nat} {m : Memory} (h : Memory.below cap m = true) (g : Geom)
    (rd : Nat → Byte) (hc : g.n3 ≤ cap) : Memory.below cap (rowDiffForward g rd m) = true := by
  unfold rowDiffForward
  refine below_loop h fun y m' hy h' => ?_
  rw [rowForward_eq]
  refine below_loop h' fun x m'' hx h'' => ?_
  have h0 := g.planeAddr_lt (k := 0) (by omega) hy hx
  have h1 := g.planeAddr_lt (k := 1) (by omega) hy hx
  have h2 := g.planeAddr_lt (k := 2) (by omega) hy hx
  exact Memory.below_write (Memory.below_write (Memory.below_write h'' (by omega) _) (by omega) _) (by omega) _

/-- `RowDiffForward` is a function of the pixel bytes: it reads nothing outside the pixel region. -/
theorem rowDiffForward_congr (g : Geom) {rd rd' : Nat → Byte} (tmp : Memory)
    (h : ∀ y x c, y < g.h → x < g.w → c < 3 → rd (g.pixelAddr y x + c) = rd' (g.pixelAddr y x + c)) :
    rowDiffForward g rd tmp = rowDiffForward g rd' tmp := by
  have hp : ∀ y x, y < g.h → x < g.w → pixelAt g rd y x = pixelAt g rd' y x := fun y x hy hx => by
    simp only [pixelAt]
    rw [← Nat.add_zero (g.pixelAddr y x), h y x 0 hy hx (by omega), Nat.add_zero, h y x 1 hy hx (by omega),
      h y x 2 hy hx (by omega)]
  refine loop_congr _ fun y m hy => ?_
  rw [rowForward_eq, rowForward_eq]
  refine loop_congr _ fun x m' hx => ?_
  have : predictorOf g rd y x = predictorOf g rd' y x := by
    unfold predictorOf firstPredictor
    split
    · split
      · rfl
      · exact hp _ _ (by omega) (by omega)
    · exact hp _ _ hy (by omega)
  rw [residualOf, residualOf, this, hp y x hy hx]

/-! ### Inverse -/

theorem lookup_storePixel (g : Geom) (y x : Nat) (p : Triple) (m : Memory) (a : Nat) :
    Memory.lookup (storePixel g y x p m) a
      = if a = g.pixelAddr y x + 2 then some p.c2
        else if a = g.pixelAddr y x + 1 then some p.c1
        else if a = g.pixelAddr y x then some p.c0
        else Memory.lookup m a := by
  simp only [storePixel, Memory.lookup_write]

/-- The pixels that `RowDiffInverse` rebuilds in a row, from the row's first predictor
(41_rowdiff_tcms.md R84). -/
def rebuiltFrom (g : Geom) (rd : Nat → Byte) (y : Nat) (p : Triple) : Nat → Triple
  | 0     => rebuild (residualAt g rd y 0) p
  | x + 1 => rebuild (residualAt g rd y (x + 1)) (rebuiltFrom g rd y p x)

/-- The first predictor of each row: the rebuilt pixel in column 0 of the row before (41_rowdiff_tcms.md
R84, R87). -/
def rowPredictor (g : Geom) (rd : Nat → Byte) : Nat → Triple
  | 0     => { c0 := 0#8, c1 := 0#8, c2 := 0#8 }
  | y + 1 => rebuild (residualAt g rd y 0) (rowPredictor g rd y)

/-- The pixel that `RowDiffInverse` rebuilds in row `y`, column `x`. -/
def rebuiltAt (g : Geom) (rd : Nat → Byte) (y x : Nat) : Triple :=
  rebuiltFrom g rd y (rowPredictor g rd y) x

/-- The pixels of one row as a loop of stores. -/
theorem rowPixels_eq (g : Geom) (rd u : Nat → Byte) (y : Nat) (buf : Memory) :
    rowPixels g rd u y buf
      = loop g.w (fun x m => storePixel g y x
          (rebuiltFrom g rd y (firstPredictor g (Memory.read u buf) y) x) m) buf := by
  unfold rowPixels
  generalize firstPredictor g (Memory.read u buf) y = p
  suffices h : ∀ n, loop n (fun x acc =>
      (storePixel g y x (rebuild (residualAt g rd y x) acc.2) acc.1, rebuild (residualAt g rd y x) acc.2))
      (buf, p)
      = (loop n (fun x m => storePixel g y x (rebuiltFrom g rd y p x) m) buf,
          match n with | 0 => p | k + 1 => rebuiltFrom g rd y p k) by
    exact congrArg Prod.fst (h g.w)
  intro n
  induction n with
  | zero => rfl
  | succ n ih =>
    rw [loop_succ, ih, loop_succ]
    cases n <;> rfl

/-- The state of BUF while `RowDiffInverse` runs: rows below `n` are rebuilt, the rest is as it was. -/
theorem lookup_rowDiffInverse_rows (g : Geom) (rd u : Nat → Byte) (buf : Memory) (hw : 0 < g.w) (n : Nat) :
    let m := loop n (fun y m => rowPadding g y (rowPixels g rd u y m)) buf
    (∀ y x c, y < n → x < g.w → c < 3 →
        Memory.lookup m (g.pixelAddr y x + c) = some ((rebuiltAt g rd y x).get c))
    ∧ (∀ y i, y < n → 3 * g.w ≤ i → i < g.stride → Memory.lookup m (54 + y * g.stride + i) = some 0#8)
    ∧ (∀ a, a < 54 ∨ 54 + n * g.stride ≤ a → Memory.lookup m a = Memory.lookup buf a) := by
  have hst := g.stride_ge
  induction n with
  | zero => exact ⟨fun y x c h => absurd h (by omega), fun y i h => absurd h (by omega), fun a _ => rfl⟩
  | succ n ih =>
    obtain ⟨ih1, ih2, ih3⟩ := ih
    simp only [loop_succ]
    generalize hm : loop n (fun y m => rowPadding g y (rowPixels g rd u y m)) buf = m at ih1 ih2 ih3 ⊢
    -- the first predictor of row `n` is the rebuilt pixel of the row before
    have hp : firstPredictor g (Memory.read u m) n = rowPredictor g rd n := by
      unfold firstPredictor
      cases n with
      | zero => rfl
      | succ k =>
        have h0 := ih1 k 0 0 (by omega) hw (by omega)
        have h1 := ih1 k 0 1 (by omega) hw (by omega)
        have h2 := ih1 k 0 2 (by omega) hw (by omega)
        simp only [Nat.add_zero] at h0
        rw [if_neg (by omega), Nat.add_sub_cancel]
        simp only [pixelAt, Memory.read, h0, h1, h2]
        rfl
    have hpad : ∀ m' a, Memory.lookup (rowPadding g n m') a
        = if 54 + n * g.stride + 3 * g.w ≤ a ∧ a < 54 + n * g.stride + g.stride then some 0#8
          else Memory.lookup m' a := fun m' a => by
      have := lookup_loop_range (g.stride - 3 * g.w) (54 + n * g.stride + 3 * g.w) (fun _ => 0#8) m' a
      unfold rowPadding
      simp only [← Nat.add_assoc] at this ⊢
      rw [this, show 54 + n * g.stride + 3 * g.w + (g.stride - 3 * g.w) = 54 + n * g.stride + g.stride by omega]
    have hmul : (n + 1) * g.stride = n * g.stride + g.stride := by rw [Nat.add_mul, Nat.one_mul]
    rw [rowPixels_eq, hp]
    -- outside the row nothing is written
    have hout : ∀ a, a < 54 + n * g.stride ∨ 54 + n * g.stride + g.stride ≤ a →
        Memory.lookup (rowPadding g n (loop g.w
          (fun x m => storePixel g n x (rebuiltFrom g rd n (rowPredictor g rd n) x) m) m)) a
          = Memory.lookup m a := fun a ha => by
      rw [hpad, if_neg (by omega)]
      refine lookup_loop_frame fun x m' hx => ?_
      rw [lookup_storePixel, Geom.pixelAddr, if_neg (by omega), if_neg (by omega), if_neg (by omega)]
    refine ⟨fun y x c hy hx hc => ?_, fun y i hy h1 h2 => ?_, fun a ha => ?_⟩
    · by_cases hyn : y = n
      · subst hyn
        rw [hpad, if_neg (by rw [Geom.pixelAddr]; omega)]
        refine lookup_loop_at x hx (fun m' => ?_) (fun j m' h1 h2 => ?_)
        · rw [lookup_storePixel, Triple.get, rebuiltAt]
          obtain rfl | rfl | rfl : c = 0 ∨ c = 1 ∨ c = 2 := by omega
          all_goals simp
        · rw [lookup_storePixel, Geom.pixelAddr, Geom.pixelAddr, if_neg (by omega), if_neg (by omega),
            if_neg (by omega)]
      · have hlt := Nat.mul_le_mul_right g.stride (show y + 1 ≤ n by omega)
        rw [Nat.add_mul, Nat.one_mul] at hlt
        rw [hout _ (by rw [Geom.pixelAddr]; omega)]
        exact ih1 y x c (by omega) hx hc
    · by_cases hyn : y = n
      · subst hyn
        rw [hpad, if_pos (by omega)]
      · have hlt := Nat.mul_le_mul_right g.stride (show y + 1 ≤ n by omega)
        rw [Nat.add_mul, Nat.one_mul] at hlt
        rw [hout _ (by omega)]
        exact ih2 y i (by omega) h1 h2
    · rw [hout _ (by omega)]
      exact ih3 a (by omega)

/-- What `RowDiffInverse` writes: every pixel, every padding byte (41_rowdiff_tcms.md R84). -/
theorem lookup_rowDiffInverse (g : Geom) (rd u : Nat → Byte) (buf : Memory) {y x c : Nat} (hy : y < g.h)
    (hx : x < g.w) (hc : c < 3) :
    Memory.lookup (rowDiffInverse g rd u buf) (g.pixelAddr y x + c) = some ((rebuiltAt g rd y x).get c) :=
  (lookup_rowDiffInverse_rows g rd u buf (by omega) g.h).1 y x c hy hx hc

theorem lookup_rowDiffInverse_padding (g : Geom) (rd u : Nat → Byte) (buf : Memory) (hw : 0 < g.w) {y i : Nat}
    (hy : y < g.h) (h1 : 3 * g.w ≤ i) (h2 : i < g.stride) :
    Memory.lookup (rowDiffInverse g rd u buf) (54 + y * g.stride + i) = some 0#8 :=
  (lookup_rowDiffInverse_rows g rd u buf hw g.h).2.1 y i hy h1 h2

/-- `RowDiffInverse` writes nothing outside the pixel region (41_rowdiff_tcms.md R85). -/
theorem lookup_rowDiffInverse_outside (g : Geom) (rd u : Nat → Byte) (buf : Memory) (hw : 0 < g.w) {a : Nat}
    (ha : a < 54 ∨ 54 + g.h * g.stride ≤ a) :
    Memory.lookup (rowDiffInverse g rd u buf) a = Memory.lookup buf a :=
  (lookup_rowDiffInverse_rows g rd u buf hw g.h).2.2 a ha

theorem wf_rowDiffInverse {m : Memory} (h : Memory.wf m = true) (g : Geom) (rd u : Nat → Byte) :
    Memory.wf (rowDiffInverse g rd u m) = true := by
  refine wf_loop h fun y m' h' => ?_
  refine wf_loop ?_ fun _ _ h'' => Memory.wf_write h'' _ _
  rw [rowPixels_eq]
  exact wf_loop h' fun _ _ h'' => Memory.wf_write (Memory.wf_write (Memory.wf_write h'' _ _) _ _) _ _

theorem below_rowDiffInverse {cap : Nat} {m : Memory} (h : Memory.below cap m = true) (g : Geom)
    (rd u : Nat → Byte) (hc : 54 + g.h * g.stride ≤ cap) :
    Memory.below cap (rowDiffInverse g rd u m) = true := by
  have hst := g.stride_ge
  refine below_loop h fun y m' hy h' => ?_
  have hrow : ∀ i, i < g.stride → 54 + y * g.stride + i < cap := fun i hi => by
    have := g.row_lt hy hi; omega
  refine below_loop ?_ fun i m'' hi h'' => Memory.below_write h'' ?_ _
  · rw [rowPixels_eq]
    refine below_loop h' fun x m'' hx h'' => ?_
    unfold storePixel Geom.pixelAddr
    refine Memory.below_write (Memory.below_write (Memory.below_write h'' ?_ _) ?_ _) ?_ _
    · exact hrow (3 * x) (by omega)
    · have := hrow (3 * x + 1) (by omega); omega
    · have := hrow (3 * x + 2) (by omega); omega
  · have := hrow (3 * g.w + i) (by omega); omega

end Sys2Proof.Machine
end

