-- ==== Sys2Proof/Laws/ZeroElim.lean ====
section
/-!
SUPPORT. What `ZeEncode` and `ZeDecode` compute, word by word (spec/43_zero_elimination.md rules R101, R103
and R104).
-/

namespace Sys2Proof.Machine

theorem wordBytes_pos (t : WordType) : 0 < wordBytes t := by cases t <;> decide
theorem wordBits_pos (t : WordType) : 0 < wordBits t := by cases t <;> decide

/-- Every word has its group among the `num` groups. -/
theorem div_lt_bitmapWords (t : WordType) {k n : Nat} (h : k < n) : k / wordBits t < bitmapWords t n := by
  have hb := wordBits_pos t
  unfold bitmapWords
  rw [Nat.div_lt_iff_lt_mul hb]
  have := Nat.div_add_mod (n + wordBits t - 1) (wordBits t)
  have := Nat.mod_lt (n + wordBits t - 1) hb
  rw [Nat.mul_comm]
  omega

/-- The groups cover the word stream. -/
theorem le_bitmapWords_mul (t : WordType) (n : Nat) : n ≤ bitmapWords t n * wordBits t := by
  have hb := wordBits_pos t
  unfold bitmapWords
  have := Nat.div_add_mod (n + wordBits t - 1) (wordBits t)
  have := Nat.mod_lt (n + wordBits t - 1) hb
  rw [Nat.mul_comm]
  omega

/-- The bitmap fits BMAP when the word stream fits BUF (20_memory.md R38). -/
theorem bitmap_fits (t : WordType) {n cap : Nat} (h : n * wordBytes t ≤ cap) :
    bitmapWords t n * wordBytes t ≤ (cap + 7) / 8 + 8 := by
  cases t <;> simp only [bitmapWords, wordBits, wordBytes] at * <;> omega

/-! ### Encode -/

/-- How many of the first `k` words are nonzero. -/
def nonzeroCount (word : Nat → Nat) (k : Nat) : Nat := (List.range k).countP (fun j => word j != 0)

@[simp] theorem nonzeroCount_zero (word : Nat → Nat) : nonzeroCount word 0 = 0 := rfl

theorem nonzeroCount_succ (word : Nat → Nat) (k : Nat) :
    nonzeroCount word (k + 1) = nonzeroCount word k + if word k = 0 then 0 else 1 := by
  unfold nonzeroCount
  rw [List.range_succ, List.countP_append]
  by_cases h : word k = 0 <;> simp [h]

theorem nonzeroCount_mono (word : Nat → Nat) {k n : Nat} (h : k ≤ n) :
    nonzeroCount word k ≤ nonzeroCount word n := by
  induction n with
  | zero => obtain rfl : k = 0 := by omega
            exact Nat.le_refl _
  | succ n ih =>
    rcases Nat.lt_or_ge n k with h' | h'
    · obtain rfl : k = n + 1 := by omega
      exact Nat.le_refl _
    · exact (ih h').trans (by rw [nonzeroCount_succ]; omega)

theorem nonzeroCount_le (word : Nat → Nat) (k : Nat) : nonzeroCount word k ≤ k := by
  unfold nonzeroCount
  exact (List.countP_le_length).trans (by simp)

/-- Different nonzero words have different dense positions. -/
theorem nonzeroCount_lt (word : Nat → Nat) {k n : Nat} (h : k < n) (hk : word k ≠ 0) :
    nonzeroCount word k < nonzeroCount word n := by
  have := nonzeroCount_mono word (show k + 1 ≤ n from h)
  rw [nonzeroCount_succ, if_neg hk] at this
  omega

/-- The bitmap word of group `i` after its first `j` words (43_zero_elimination.md R101). -/
def groupBits (t : WordType) (word : Nat → Nat) (n i : Nat) : Nat → Nat
  | 0     => 0
  | j + 1 =>
    if i * wordBits t + j < n ∧ word (i * wordBits t + j) ≠ 0 then groupBits t word n i j ||| (1 <<< j)
    else groupBits t word n i j

/-- Bit `j` of a group's bitmap word. -/
theorem testBit_groupBits (t : WordType) (word : Nat → Nat) (n i m j : Nat) :
    (groupBits t word n i m).testBit j
      = (decide (j < m) && (decide (i * wordBits t + j < n) && (word (i * wordBits t + j) != 0))) := by
  induction m with
  | zero => simp [groupBits]
  | succ m ih =>
    unfold groupBits
    by_cases hj : j = m
    · subst hj
      split
      · rename_i h
        simp [Nat.testBit_or, Nat.testBit_shiftLeft, h.1, h.2]
      · rename_i h
        rw [ih]
        by_cases h1 : i * wordBits t + j < n
        · have h2 : word (i * wordBits t + j) = 0 := by by_contra hc; exact h ⟨h1, hc⟩
          simp [h2]
        · simp [h1]
    · have hlt : decide (j < m + 1) = decide (j < m) := decide_eq_decide.2 (by omega)
      split
      · have hone : (decide (j ≥ m) && (1 : Nat).testBit (j - m)) = false := by
          by_cases hmj : m ≤ j
          · obtain ⟨d, hd⟩ : ∃ d, j - m = d + 1 := ⟨j - m - 1, by omega⟩
            simp [hd, Nat.testBit_succ]
          · simp [hmj]
        rw [Nat.testBit_or, ih, Nat.testBit_shiftLeft, hlt, hone, Bool.or_false]
      · rw [ih, hlt]

/-- What holds of the working values after the first `k` words, of which `j` in group `i`, when the encode
started from `dns0` (43_zero_elimination.md R101). -/
structure EncodedSoFar (t : WordType) (word : Nat → Nat) (n : Nat) (dns0 : Memory) (k : Nat)
    (dns : Memory) (pos : Nat) : Prop where
  position : pos = nonzeroCount word (min k n)
  dense : ∀ k', k' < min k n → word k' ≠ 0 → ∀ x, x < wordBytes t →
    Memory.lookup dns (nonzeroCount word k' * wordBytes t + x)
      = some (BitVec.ofInt 8 ((word k' : Int) / 256 ^ x))
  above : ∀ a, nonzeroCount word (min k n) * wordBytes t ≤ a → Memory.lookup dns a = Memory.lookup dns0 a
  canonical : Memory.wf dns0 = true → Memory.wf dns = true
  within : ∀ cap, n * wordBytes t ≤ cap → Memory.below cap dns0 = true → Memory.below cap dns = true

/-- The capacity allows the first `k` words (43_zero_elimination.md R103). -/
def Fits (word : Nat → Nat) (n : Nat) (cap? : Option Nat) (k : Nat) : Prop :=
  ∀ cap, cap? = some cap → nonzeroCount word (min k n) ≤ cap

theorem Fits.mono {word : Nat → Nat} {n : Nat} {cap? : Option Nat} {k k' : Nat} (h : Fits word n cap? k')
    (hk : k ≤ k') : Fits word n cap? k := fun cap e =>
  (nonzeroCount_mono word (by omega)).trans (h cap e)

/-- One word of `ZeEncode`: it fails exactly when the capacity does not allow it, and otherwise keeps
`EncodedSoFar`. -/
theorem encodeWord_spec {t : WordType} {word : Nat → Nat} {n : Nat} {cap? : Option Nat} {dns0 : Memory}
    {i j : Nat} {acc : EncodeAcc} (h : EncodedSoFar t word n dns0 (i * wordBits t + j) acc.dns acc.pos)
    (hf : Fits word n cap? (i * wordBits t + j)) (hbm : acc.bm = groupBits t word n i j) :
    (Fits word n cap? (i * wordBits t + j + 1) →
      ∃ acc', encodeWord t word n cap? i j acc = some acc' ∧ acc'.bmap = acc.bmap
        ∧ acc'.bm = groupBits t word n i (j + 1)
        ∧ EncodedSoFar t word n dns0 (i * wordBits t + j + 1) acc'.dns acc'.pos)
    ∧ (¬ Fits word n cap? (i * wordBits t + j + 1) → encodeWord t word n cap? i j acc = none) := by
  generalize hk : i * wordBits t + j = k at *
  have hs := wordBytes_pos t
  unfold encodeWord
  simp only [hk]
  by_cases hn : k < n
  · have hmin : min k n = k := by omega
    have hmin' : min (k + 1) n = k + 1 := by omega
    by_cases hw : word k = 0
    · have hc : nonzeroCount word (k + 1) = nonzeroCount word k := by rw [nonzeroCount_succ, if_pos hw]; omega
      have hfits : Fits word n cap? (k + 1) := fun cap e => by
        have := hf cap e; rw [hmin] at this; rw [hmin', hc]; exact this
      refine ⟨fun _ => ⟨acc, by simp [hn, hw], rfl, ?_, ?_⟩, fun hnf => absurd hfits hnf⟩
      · rw [hbm, groupBits, if_neg (by rw [hk]; simp [hw])]
      · refine ⟨by rw [h.position, hmin, hmin', hc], fun k' hk' hw' => ?_, fun a ha => ?_, h.canonical, h.within⟩
        · refine h.dense k' ?_ hw'
          rw [hmin'] at hk'
          rw [hmin]
          rcases Nat.lt_or_ge k' k with h1 | h1
          · exact h1
          · obtain rfl : k' = k := by omega
            exact absurd hw hw'
        · refine h.above a ?_
          rwa [hmin', hc, ← hmin] at ha
    · have hc : nonzeroCount word (k + 1) = nonzeroCount word k + 1 := by rw [nonzeroCount_succ, if_neg hw]
      have hpos : acc.pos = nonzeroCount word k := by rw [h.position, hmin]
      have hany : (cap?.any fun cap => decide (cap ≤ acc.pos)) = true ↔ ¬ Fits word n cap? (k + 1) := by
        unfold Fits
        cases cap? with
        | none => simp
        | some cap => simp [hmin', hc, hpos]
      constructor
      · intro hfits
        have hno : (cap?.any fun cap => decide (cap ≤ acc.pos)) = false := by
          rw [← Bool.not_eq_true]; exact fun e => (hany.1 e) hfits
        refine ⟨{ acc with
            dns := writeLE acc.dns (acc.pos * wordBytes t) (wordBytes t) (word k)
            pos := acc.pos + 1
            bm := acc.bm ||| (1 <<< j) },
          by rw [if_pos hn, if_neg hw, hno]; exact if_neg (by simp), rfl, ?_, ?_⟩
        · rw [hbm, groupBits, if_pos ⟨by rw [hk]; exact hn, by rw [hk]; exact hw⟩]
        · refine ⟨by rw [hmin', hc, hpos], fun k' hk' hw' x hx => ?_, fun a ha => ?_,
            fun h0 => wf_writeLE (h.canonical h0) _ _ _, fun cap hcap h0 => ?_⟩
          · rw [lookup_writeLE, hpos]
            rw [hmin'] at hk'
            rcases Nat.lt_or_ge k' k with h1 | h1
            · have hlt := nonzeroCount_lt word h1 hw'
              have hmul := Nat.mul_le_mul_right (wordBytes t) (show nonzeroCount word k' + 1 ≤ nonzeroCount word k from hlt)
              rw [Nat.add_mul, Nat.one_mul] at hmul
              rw [if_neg (by omega)]
              exact h.dense k' (by omega) hw' x hx
            · obtain rfl : k' = k := by omega
              rw [if_pos (by omega), Nat.add_sub_cancel_left]
          · rw [hmin', hc, Nat.add_mul, Nat.one_mul] at ha
            rw [lookup_writeLE, hpos, if_neg (by omega)]
            exact h.above a (by rw [hmin]; omega)
          · have h1 := nonzeroCount_le word k
            have h2 := Nat.mul_le_mul_right (wordBytes t) (show k + 1 ≤ n from hn)
            have h3 := Nat.mul_le_mul_right (wordBytes t) h1
            rw [Nat.add_mul, Nat.one_mul] at h2
            exact below_writeLE (h.within cap hcap h0) (by rw [hpos]; omega) _
      · intro hnf
        rw [if_pos hn, if_neg hw, hany.2 hnf]; rfl
  · have hmin : min (k + 1) n = min k n := by omega
    have hfits : Fits word n cap? (k + 1) := fun cap e => by have := hf cap e; rwa [hmin]
    refine ⟨fun _ => ⟨acc, by rw [if_neg hn], rfl, ?_, ?_⟩, fun hnf => absurd hfits hnf⟩
    · rw [hbm, groupBits, if_neg (by rw [hk]; omega)]
    · exact ⟨by rw [hmin, h.position], fun k' hk' => h.dense k' (by rwa [hmin] at hk'),
        fun a ha => h.above a (by rwa [hmin] at ha), h.canonical, h.within⟩

/-- One group of `ZeEncode`. -/
theorem encodeGroup_spec {t : WordType} {word : Nat → Nat} {n : Nat} {cap? : Option Nat} {dns0 : Memory}
    {i : Nat} {acc : EncodeAcc} (h : EncodedSoFar t word n dns0 (i * wordBits t) acc.dns acc.pos)
    (hf : Fits word n cap? (i * wordBits t)) :
    (Fits word n cap? ((i + 1) * wordBits t) →
      ∃ acc', encodeGroup t word n cap? i acc = some acc'
        ∧ acc'.bmap = writeLE acc.bmap (i * wordBytes t) (wordBytes t) (groupBits t word n i (wordBits t))
        ∧ EncodedSoFar t word n dns0 ((i + 1) * wordBits t) acc'.dns acc'.pos)
    ∧ (¬ Fits word n cap? ((i + 1) * wordBits t) → encodeGroup t word n cap? i acc = none) := by
  have inner : ∀ j,
      (Fits word n cap? (i * wordBits t + j) →
        ∃ acc', loop j (fun j o => o.bind (encodeWord t word n cap? i j)) (some { acc with bm := 0 }) = some acc'
          ∧ acc'.bmap = acc.bmap ∧ acc'.bm = groupBits t word n i j
          ∧ EncodedSoFar t word n dns0 (i * wordBits t + j) acc'.dns acc'.pos)
      ∧ (¬ Fits word n cap? (i * wordBits t + j) →
        loop j (fun j o => o.bind (encodeWord t word n cap? i j)) (some { acc with bm := 0 }) = none) := by
    intro j
    induction j with
    | zero => exact ⟨fun _ => ⟨_, rfl, rfl, rfl, h⟩, fun hnf => absurd hf hnf⟩
    | succ j ih =>
      obtain ⟨ih1, ih2⟩ := ih
      rw [loop_succ]
      by_cases hfj : Fits word n cap? (i * wordBits t + j)
      · obtain ⟨a, ha, hb, hbm, hinv⟩ := ih1 hfj
        obtain ⟨s1, s2⟩ := encodeWord_spec hinv hfj hbm
        rw [ha]
        refine ⟨fun hfit => ?_, fun hnf => s2 hnf⟩
        obtain ⟨a', ha', hb', hbm', hinv'⟩ := s1 hfit
        exact ⟨a', ha', hb'.trans hb, hbm', hinv'⟩
      · rw [ih2 hfj]
        exact ⟨fun hfit => absurd (hfit.mono (by omega)) hfj, fun _ => rfl⟩
  obtain ⟨i1, i2⟩ := inner (wordBits t)
  have hmul : (i + 1) * wordBits t = i * wordBits t + wordBits t := by rw [Nat.add_mul, Nat.one_mul]
  rw [hmul]
  unfold encodeGroup
  refine ⟨fun hfit => ?_, fun hnf => by rw [i2 hnf]; rfl⟩
  obtain ⟨a, ha, hb, hbm, hinv⟩ := i1 hfit
  exact ⟨{ a with bmap := writeLE a.bmap (i * wordBytes t) (wordBytes t) a.bm }, by rw [ha]; rfl,
    by simp only [hb, hbm], hinv⟩

/-- What `ZeEncode` does with `n` words (43_zero_elimination.md R101, R103): it fails exactly when the
capacity is less than the number of nonzero words; otherwise `pos` is that number, the dense words and the
bitmap words stand where they should, and the rest of both memories is as it was. -/
theorem zeEncode_spec (t : WordType) (word : Nat → Nat) (n : Nat) (cap? : Option Nat) (dns bmap : Memory) :
    ((∀ cap, cap? = some cap → nonzeroCount word n ≤ cap) →
      ∃ r, zeEncode t word n cap? dns bmap = some r ∧ r.pos = nonzeroCount word n
        ∧ (∀ k, k < n → word k ≠ 0 → ∀ x, x < wordBytes t →
            Memory.lookup r.dns (nonzeroCount word k * wordBytes t + x)
              = some (BitVec.ofInt 8 ((word k : Int) / 256 ^ x)))
        ∧ (∀ a, nonzeroCount word n * wordBytes t ≤ a → Memory.lookup r.dns a = Memory.lookup dns a)
        ∧ (∀ i, i < bitmapWords t n → ∀ x, x < wordBytes t →
            Memory.lookup r.bmap (i * wordBytes t + x)
              = some (BitVec.ofInt 8 ((groupBits t word n i (wordBits t) : Int) / 256 ^ x)))
        ∧ (∀ a, bitmapWords t n * wordBytes t ≤ a → Memory.lookup r.bmap a = Memory.lookup bmap a)
        ∧ (Memory.wf dns = true → Memory.wf r.dns = true)
        ∧ (Memory.wf bmap = true → Memory.wf r.bmap = true)
        ∧ (∀ cap, n * wordBytes t ≤ cap → Memory.below cap dns = true → Memory.below cap r.dns = true)
        ∧ (∀ cap, bitmapWords t n * wordBytes t ≤ cap → Memory.below cap bmap = true →
            Memory.below cap r.bmap = true))
    ∧ ((∃ cap, cap? = some cap ∧ cap < nonzeroCount word n) → zeEncode t word n cap? dns bmap = none) := by
  have hs := wordBytes_pos t
  have outer : ∀ m, m ≤ bitmapWords t n →
      (Fits word n cap? (m * wordBits t) →
        ∃ r, loop m (fun i o => o.bind (encodeGroup t word n cap? i))
            (some { dns := dns, bmap := bmap, pos := 0, bm := 0 }) = some r
          ∧ EncodedSoFar t word n dns (m * wordBits t) r.dns r.pos
          ∧ (∀ i, i < m → ∀ x, x < wordBytes t →
              Memory.lookup r.bmap (i * wordBytes t + x)
                = some (BitVec.ofInt 8 ((groupBits t word n i (wordBits t) : Int) / 256 ^ x)))
          ∧ (∀ a, m * wordBytes t ≤ a → Memory.lookup r.bmap a = Memory.lookup bmap a)
          ∧ (Memory.wf bmap = true → Memory.wf r.bmap = true)
          ∧ (∀ cap, m * wordBytes t ≤ cap → Memory.below cap bmap = true → Memory.below cap r.bmap = true))
      ∧ (¬ Fits word n cap? (m * wordBits t) →
        loop m (fun i o => o.bind (encodeGroup t word n cap? i))
            (some { dns := dns, bmap := bmap, pos := 0, bm := 0 }) = none) := by
    intro m hm
    induction m with
    | zero =>
      have h0 : Fits word n cap? 0 := fun cap _ => by simp
      rw [Nat.zero_mul]
      refine ⟨fun _ => ⟨_, rfl, ⟨by simp, fun k' h => absurd h (by omega), fun _ _ => rfl, fun h => h, fun _ _ h => h⟩,
        fun i h => absurd h (by omega), fun _ _ => rfl, fun h => h, fun _ _ h => h⟩, fun hnf => absurd h0 hnf⟩
    | succ m ih =>
      obtain ⟨ih1, ih2⟩ := ih (by omega)
      rw [loop_succ]
      by_cases hfm : Fits word n cap? (m * wordBits t)
      · obtain ⟨r, hr, hinv, hbits, habove, hwf, hbelow⟩ := ih1 hfm
        obtain ⟨s1, s2⟩ := encodeGroup_spec hinv hfm
        rw [hr]
        refine ⟨fun hfit => ?_, fun hnf => s2 hnf⟩
        obtain ⟨r', hr', hb', hinv'⟩ := s1 hfit
        have hmul : (m + 1) * wordBytes t = m * wordBytes t + wordBytes t := by rw [Nat.add_mul, Nat.one_mul]
        refine ⟨r', hr', hinv', fun i hi x hx => ?_, fun a ha => ?_, fun h => ?_, fun cap hcap h => ?_⟩
        · rw [hb', lookup_writeLE]
          rcases Nat.lt_or_ge i m with h1 | h1
          · have h2 := Nat.mul_le_mul_right (wordBytes t) (show i + 1 ≤ m from h1)
            rw [Nat.add_mul, Nat.one_mul] at h2
            rw [if_neg (by omega)]
            exact hbits i h1 x hx
          · obtain rfl : i = m := by omega
            rw [if_pos (by omega), Nat.add_sub_cancel_left]
        · rw [hb', lookup_writeLE, if_neg (by omega)]
          exact habove a (by omega)
        · rw [hb']; exact wf_writeLE (hwf h) _ _ _
        · rw [hb']; exact below_writeLE (hbelow cap (by omega) h) (by omega) _
      · rw [ih2 hfm]
        exact ⟨fun hfit => absurd (hfit.mono (Nat.mul_le_mul_right _ (by omega))) hfm, fun _ => rfl⟩
  obtain ⟨o1, o2⟩ := outer (bitmapWords t n) (Nat.le_refl _)
  have hmin : min (bitmapWords t n * wordBits t) n = n := by have := le_bitmapWords_mul t n; omega
  refine ⟨fun hfit => ?_, fun ⟨cap, e, hlt⟩ => o2 fun hf => ?_⟩
  · obtain ⟨r, hr, hinv, hbits, habove, hwf, hbelow⟩ := o1 fun cap e => by rw [hmin]; exact hfit cap e
    exact ⟨r, hr, by rw [hinv.position, hmin], fun k hk => hinv.dense k (by omega),
      fun a ha => hinv.above a (by rwa [hmin]), hbits, habove, hinv.canonical, hwf, hinv.within, hbelow⟩
  · have := hf cap e
    rw [hmin] at this
    omega

/-! ### Overflow -/

theorem lookup_fillFirst (n : Nat) (v : Nat → Byte) (m : Memory) (a : Nat) :
    Memory.lookup (fillFirst n v m) a = if a < n then some (v a) else Memory.lookup m a := by
  have := lookup_loop_range n 0 v m a
  simp only [Nat.zero_add, Nat.sub_zero, Nat.zero_le, true_and] at this
  exact this

theorem wf_fillFirst {m : Memory} (h : Memory.wf m = true) (n : Nat) (v : Nat → Byte) :
    Memory.wf (fillFirst n v m) = true :=
  wf_loop h fun _ _ h' => Memory.wf_write h' _ _

theorem below_fillFirst {cap n : Nat} {m : Memory} (h : Memory.below cap m = true) (hn : n ≤ cap)
    (v : Nat → Byte) : Memory.below cap (fillFirst n v m) = true :=
  below_loop h fun _ _ hi h' => Memory.below_write h' (by omega) _

/-! ### Decode -/

/-- How many of the first `k` bitmap bits are set: the dense position at word `k` (43_zero_elimination.md
R104). -/
def setCount (t : WordType) (bitmap : Nat → Nat) (k : Nat) : Nat :=
  (List.range k).countP (fun j => bitmapBit t bitmap j)

theorem setCount_succ (t : WordType) (bitmap : Nat → Nat) (k : Nat) :
    setCount t bitmap (k + 1) = setCount t bitmap k + if bitmapBit t bitmap k then 1 else 0 := by
  unfold setCount
  rw [List.range_succ, List.countP_append]
  cases h : bitmapBit t bitmap k <;> simp [h]

/-- The word that `ZeDecode` writes at index `k` (43_zero_elimination.md R104). -/
def decodedWord (t : WordType) (bitmap dense : Nat → Nat) (k : Nat) : Nat :=
  if bitmapBit t bitmap k then dense (setCount t bitmap k) else 0

/-- `ZeDecode` as a loop of word writes: `pos` at word `k` is the number of bits set before it. -/
theorem zeDecode_eq (t : WordType) (bitmap dense : Nat → Nat) (n base : Nat) (buf : Memory) :
    (zeDecode t bitmap dense n base buf).1
      = loop n (fun k m => writeLE m (base + k * wordBytes t) (wordBytes t) (decodedWord t bitmap dense k)) buf := by
  unfold zeDecode
  suffices h : ∀ n, loop n (fun k acc =>
      if bitmapBit t bitmap k then
        (writeLE acc.1 (base + k * wordBytes t) (wordBytes t) (dense acc.2), acc.2 + 1)
      else (writeLE acc.1 (base + k * wordBytes t) (wordBytes t) 0, acc.2)) (buf, 0)
      = (loop n (fun k m => writeLE m (base + k * wordBytes t) (wordBytes t) (decodedWord t bitmap dense k)) buf,
          setCount t bitmap n) by
    exact congrArg Prod.fst (h n)
  intro n
  induction n with
  | zero => rfl
  | succ n ih =>
    rw [loop_succ, ih, loop_succ, setCount_succ, decodedWord]
    cases h : bitmapBit t bitmap n <;> simp

/-- The bytes of word `k` after `ZeDecode`. -/
theorem lookup_zeDecode (t : WordType) (bitmap dense : Nat → Nat) (n base : Nat) (buf : Memory) {k x : Nat}
    (hk : k < n) (hx : x < wordBytes t) :
    Memory.lookup (zeDecode t bitmap dense n base buf).1 (base + k * wordBytes t + x)
      = some (BitVec.ofInt 8 ((decodedWord t bitmap dense k : Int) / 256 ^ x)) := by
  rw [zeDecode_eq]
  refine lookup_loop_at k hk (fun m => ?_) (fun j m h1 h2 => ?_)
  · rw [lookup_writeLE, if_pos (by omega), Nat.add_sub_cancel_left]
  · have h3 := Nat.mul_le_mul_right (wordBytes t) (show k + 1 ≤ j from h1)
    rw [Nat.add_mul, Nat.one_mul] at h3
    rw [lookup_writeLE, if_neg (by omega)]

/-- `ZeDecode` writes exactly the bytes of its words (43_zero_elimination.md R104). -/
theorem lookup_zeDecode_outside (t : WordType) (bitmap dense : Nat → Nat) (n base : Nat) (buf : Memory)
    {a : Nat} (ha : a < base ∨ base + n * wordBytes t ≤ a) :
    Memory.lookup (zeDecode t bitmap dense n base buf).1 a = Memory.lookup buf a := by
  rw [zeDecode_eq]
  refine lookup_loop_frame fun k m hk => ?_
  have h3 := Nat.mul_le_mul_right (wordBytes t) (show k + 1 ≤ n from hk)
  rw [Nat.add_mul, Nat.one_mul] at h3
  rw [lookup_writeLE, if_neg (by omega)]

theorem wf_zeDecode {m : Memory} (h : Memory.wf m = true) (t : WordType) (bitmap dense : Nat → Nat)
    (n base : Nat) : Memory.wf (zeDecode t bitmap dense n base m).1 = true := by
  rw [zeDecode_eq]
  exact wf_loop h fun _ _ h' => wf_writeLE h' _ _ _

theorem below_zeDecode {cap : Nat} {m : Memory} (h : Memory.below cap m = true) (t : WordType)
    (bitmap dense : Nat → Nat) {n base : Nat} (hc : base + n * wordBytes t ≤ cap) :
    Memory.below cap (zeDecode t bitmap dense n base m).1 = true := by
  rw [zeDecode_eq]
  refine below_loop h fun k m' hk h' => below_writeLE h' ?_ _
  have h3 := Nat.mul_le_mul_right (wordBytes t) (show k + 1 ≤ n from hk)
  rw [Nat.add_mul, Nat.one_mul] at h3
  omega

end Sys2Proof.Machine
end

