-- ==== Sys2Proof/Laws/Stages.lean ====
section
/-!
SUPPORT. What each stage leaves of the machine: the bytes it writes, and that it writes nothing else
(spec/40_header.md to spec/44_pipeline.md).
-/

namespace Sys2Proof.Machine

theorem State.byte_eq (s : State) (m : MemId) (a : Nat) :
    s.byte m a = Memory.read (s.unwritten m) (s.mem m) a := rfl

/-- A byte of a memory that has replaced another, where one of the two lists it. -/
theorem State.setMem_byte_of_lookup {s : State} {m : MemId} {c : Memory} {a : Nat} {b : Byte}
    (h : Memory.lookup c a = some b) : (s.setMem m c).byte m a = b := by
  rw [State.setMem_byte_self, Memory.read, h]

/-- A byte that the new contents list as the old ones do reads as before. -/
theorem State.setMem_byte_same {s : State} {m : MemId} {c : Memory} {a : Nat}
    (h : Memory.lookup c a = Memory.lookup (s.mem m) a) : (s.setMem m c).byte m a = s.byte m a := by
  rw [State.setMem_byte_self, State.byte, Memory.read_eq_of_lookup h]

/-! ### Component B -/

theorem stageNeutralise_frame (s : State) {a : Nat}
    (h : (6 ≤ a ∧ a < 10) ∨ (18 ≤ a ∧ a < 26) ∨ (30 ≤ a ∧ a < 34) ∨ (38 ≤ a ∧ a < 42) ∨ 46 ≤ a) :
    (stageNeutralise s).byte .buf a = s.byte .buf a := by
  rw [stageNeutralise, State.setMem_byte_self, neutraliseHeader_eq, read_headerWith_frame _ _ _ _ _ _ _ _ _ _ _ h]
  rfl

theorem stageRestore_frame (s : State) {a : Nat}
    (h : (6 ≤ a ∧ a < 10) ∨ (18 ≤ a ∧ a < 26) ∨ (30 ≤ a ∧ a < 34) ∨ (38 ≤ a ∧ a < 42) ∨ 46 ≤ a) :
    (stageRestore s).byte .buf a = s.byte .buf a := by
  rw [stageRestore, State.setMem_byte_self, restoreHeader_eq, read_headerWith_frame _ _ _ _ _ _ _ _ _ _ _ h]
  rfl

theorem stageNeutralise_geom (s : State) : (stageNeutralise s).geom = s.geom :=
  (geom_congr fun _ h1 h2 => stageNeutralise_frame s (by omega)).2.2

theorem stageRestore_geom (s : State) : (stageRestore s).geom = s.geom :=
  (geom_congr fun _ h1 h2 => stageRestore_frame s (by omega)).2.2

/-! ### Component C -/

theorem stageRowDiff_plane (s : State) {k y x : Nat} (hk : k < 3) (hy : y < s.geom.h) (hx : x < s.geom.w) :
    (stageRowDiff s).byte .tmp (s.geom.planeAddr k y x) = (residualOf s.geom (s.byte .buf) y x).get k :=
  State.setMem_byte_of_lookup (lookup_rowDiffForward _ _ _ hk hy hx)

theorem stageRowDiff_above (s : State) {a : Nat} (ha : s.geom.n3 ≤ a) :
    (stageRowDiff s).byte .tmp a = s.byte .tmp a :=
  State.setMem_byte_same (lookup_rowDiffForward_above _ _ _ ha)

@[simp] theorem stageRowDiff_buf (s : State) : (stageRowDiff s).byte .buf = s.byte .buf := by
  rw [stageRowDiff, State.setMem_byte_ne _ (by decide)]

@[simp] theorem stageRowDiff_geom (s : State) : (stageRowDiff s).geom = s.geom := by
  simp [State.geom, State.widthField, State.heightField]

theorem stageRowDiffInv_pixel (s : State) {y x c : Nat} (hy : y < s.geom.h) (hx : x < s.geom.w) (hc : c < 3) :
    (stageRowDiffInv s).byte .buf (s.geom.pixelAddr y x + c) = (rebuiltAt s.geom (s.byte .tmp) y x).get c :=
  State.setMem_byte_of_lookup (lookup_rowDiffInverse _ _ _ _ hy hx hc)

theorem stageRowDiffInv_padding (s : State) (hw : 0 < s.geom.w) {y i : Nat} (hy : y < s.geom.h)
    (h1 : 3 * s.geom.w ≤ i) (h2 : i < s.geom.stride) :
    (stageRowDiffInv s).byte .buf (54 + y * s.geom.stride + i) = 0#8 :=
  State.setMem_byte_of_lookup (lookup_rowDiffInverse_padding _ _ _ _ hw hy h1 h2)

theorem stageRowDiffInv_outside (s : State) (hw : 0 < s.geom.w) {a : Nat}
    (ha : a < 54 ∨ 54 + s.geom.h * s.geom.stride ≤ a) :
    (stageRowDiffInv s).byte .buf a = s.byte .buf a :=
  State.setMem_byte_same (lookup_rowDiffInverse_outside _ _ _ _ hw ha)

theorem stageRowDiffInv_geom (s : State) (hw : 0 < s.geom.w) : (stageRowDiffInv s).geom = s.geom :=
  (geom_congr fun _ _ h2 => stageRowDiffInv_outside s hw (by omega)).2.2

@[simp] theorem stageRowDiffInv_tmp (s : State) : (stageRowDiffInv s).byte .tmp = s.byte .tmp := by
  rw [stageRowDiffInv, State.setMem_byte_ne _ (by decide)]

/-! ### Component D -/

theorem stageBitTranspose_slab (s : State) {j i : Nat} (hj : j < 8)
    (hi : i < s.geom.groups) :
    (stageBitTranspose s).byte .buf (s.geom.slabAddr j i)
      = wordByte (transpose8 (groupWord (s.byte .tmp) i)) j := by
  have h1 := s.geom.slabAddr_lt hj hi
  have h2 := s.geom.esize_add_extra
  refine State.setMem_byte_of_lookup ?_
  rw [lookup_zeroTail, if_neg (by omega), lookup_bitTransposeForward_slab _ _ _ hj hi]

theorem stageBitTranspose_extra (s : State) {k : Nat} (hk : k < s.geom.extra) :
    (stageBitTranspose s).byte .buf (54 + s.geom.esize + k) = s.byte .tmp (s.geom.esize + k) := by
  have h2 := s.geom.esize_add_extra
  refine State.setMem_byte_of_lookup ?_
  rw [lookup_zeroTail, if_neg (by omega), lookup_bitTransposeForward_extra _ _ _ hk]

theorem stageBitTranspose_tail (s : State) {a : Nat} (h1 : 54 + s.geom.n3 ≤ a) (h2 : a < s.len.toNat) :
    (stageBitTranspose s).byte .buf a = 0#8 := by
  refine State.setMem_byte_of_lookup ?_
  rw [lookup_zeroTail, if_pos ⟨h1, h2⟩]

theorem stageBitTranspose_outside (s : State) (hn : 54 + s.geom.n3 ≤ s.len.toNat) {a : Nat}
    (ha : a < 54 ∨ s.len.toNat ≤ a) : (stageBitTranspose s).byte .buf a = s.byte .buf a := by
  refine State.setMem_byte_same ?_
  rw [lookup_zeroTail, if_neg (by omega), lookup_bitTransposeForward_outside _ _ _ (by omega)]
  rfl

theorem stageBitTranspose_geom (s : State) (hn : 54 + s.geom.n3 ≤ s.len.toNat) :
    (stageBitTranspose s).geom = s.geom :=
  (geom_congr fun _ _ h2 => stageBitTranspose_outside s hn (by omega)).2.2

@[simp] theorem stageBitTranspose_tmp (s : State) : (stageBitTranspose s).byte .tmp = s.byte .tmp := by
  rw [stageBitTranspose, State.setMem_byte_ne _ (by decide)]

theorem stageBitTransposeInv_word (s : State) {i b : Nat} (hi : i < s.geom.groups) (hb : b < 8) :
    (stageBitTransposeInv s).byte .tmp (8 * i + b)
      = wordByte (transpose8 (slabWord s.geom (s.byte .buf) i)) b := by
  refine State.setMem_byte_of_lookup ?_
  rw [lookup_bitTransposeInverse_word _ _ _ hi hb]
  congr 1
  apply BitVec.eq_of_toNat_eq
  generalize transpose8 _ = z
  rw [wordByte, BitVec.toNat_ofInt, BitVec.extractLsb'_toNat, Nat.shiftRight_eq_div_pow, pow_mul]
  norm_num
  have : ((z.toNat : Int) / 256 ^ b) = ((z.toNat / 256 ^ b : Nat) : Int) := by push_cast; rfl
  rw [this]
  omega

theorem stageBitTransposeInv_extra (s : State) {k : Nat} (hk : k < s.geom.extra) :
    (stageBitTransposeInv s).byte .tmp (s.geom.esize + k) = s.byte .buf (54 + s.geom.esize + k) :=
  State.setMem_byte_of_lookup (lookup_bitTransposeInverse_extra _ _ _ hk)

theorem stageBitTransposeInv_above (s : State) {a : Nat} (ha : s.geom.n3 ≤ a) :
    (stageBitTransposeInv s).byte .tmp a = s.byte .tmp a :=
  State.setMem_byte_same (lookup_bitTransposeInverse_above _ _ _ ha)

@[simp] theorem stageBitTransposeInv_buf (s : State) : (stageBitTransposeInv s).byte .buf = s.byte .buf := by
  rw [stageBitTransposeInv, State.setMem_byte_ne _ (by decide)]

@[simp] theorem stageBitTransposeInv_geom (s : State) : (stageBitTransposeInv s).geom = s.geom := by
  simp [State.geom, State.widthField, State.heightField]

/-! ### Good states -/

theorem State.good_iff (s : State) :
    s.good = true ↔ (∀ m, Memory.wf (s.mem m) = true) ∧ (∀ m, Memory.below (s.params.cap m) (s.mem m) = true)
      ∧ s.status.toNat ≤ 5 := by
  simp only [State.good, State.canonical, State.withinCapacity, State.statusLegal, Bool.and_eq_true,
    decide_eq_true_eq]
  constructor
  · rintro ⟨⟨⟨⟨⟨h1, h2⟩, h3⟩, h4⟩, ⟨⟨h5, h6⟩, h7⟩, h8⟩, h9⟩
    exact ⟨fun m => by cases m <;> assumption, fun m => by cases m <;> assumption, h9⟩
  · rintro ⟨h1, h2, h3⟩
    exact ⟨⟨⟨⟨⟨h1 .buf, h1 .tmp⟩, h1 .dns⟩, h1 .bmap⟩, ⟨⟨h2 .buf, h2 .tmp⟩, h2 .dns⟩, h2 .bmap⟩, h3⟩

/-- The memories of a state that a command leaves are canonical and within capacity. -/
def State.memoriesGood (s : State) : Prop :=
  (∀ m, Memory.wf (s.mem m) = true) ∧ (∀ m, Memory.below (s.params.cap m) (s.mem m) = true)

theorem State.memoriesGood_setMem {s : State} (h : s.memoriesGood) {m : MemId} {c : Memory}
    (hw : Memory.wf c = true) (hb : Memory.below (s.params.cap m) c = true) : (s.setMem m c).memoriesGood := by
  constructor
  · intro m'
    rw [State.setMem_mem]
    split
    · exact hw
    · exact h.1 m'
  · intro m'
    rw [State.setMem_mem, State.setMem_params]
    split
    · rename_i e; rw [e]; exact hb
    · exact h.2 m'

theorem State.good_setCode {s : State} (h : s.memoriesGood) (c : Code) : (s.setCode c).good = true := by
  rw [State.good_iff]
  exact ⟨fun m => by rw [State.setCode_mem]; exact h.1 m, fun m => by rw [State.setCode_mem]; exact h.2 m,
    statusOf_legal c⟩

theorem stageNeutralise_good {s : State} (h : s.memoriesGood) : (stageNeutralise s).memoriesGood := by
  refine State.memoriesGood_setMem h ?_ ?_ <;> rw [neutraliseHeader_eq]
  · exact wf_headerWith (h.1 .buf) ..
  · exact below_headerWith (h.2 .buf) s.params.bufCap_ge ..

theorem stageRestore_good {s : State} (h : s.memoriesGood) : (stageRestore s).memoriesGood := by
  refine State.memoriesGood_setMem h ?_ ?_ <;> rw [restoreHeader_eq]
  · exact wf_headerWith (h.1 .buf) ..
  · exact below_headerWith (h.2 .buf) s.params.bufCap_ge ..

theorem stageRowDiff_good {s : State} (h : s.memoriesGood) (hn : s.geom.n3 ≤ s.params.tmpCap) :
    (stageRowDiff s).memoriesGood :=
  State.memoriesGood_setMem h (wf_rowDiffForward (h.1 .tmp) ..) (below_rowDiffForward (h.2 .tmp) _ _ hn)

theorem stageRowDiffInv_good {s : State} (h : s.memoriesGood)
    (hn : 54 + s.geom.h * s.geom.stride ≤ s.params.bufCap) : (stageRowDiffInv s).memoriesGood :=
  State.memoriesGood_setMem h (wf_rowDiffInverse (h.1 .buf) ..) (below_rowDiffInverse (h.2 .buf) _ _ _ hn)

theorem stageBitTranspose_good {s : State} (h : s.memoriesGood) (hn : 54 + s.geom.n3 ≤ s.params.bufCap)
    (hl : s.len.toNat ≤ s.params.bufCap) : (stageBitTranspose s).memoriesGood :=
  State.memoriesGood_setMem h (wf_zeroTail (wf_bitTransposeForward (h.1 .buf) ..) ..)
    (below_zeroTail (below_bitTransposeForward (h.2 .buf) _ _ hn) _ hl)

theorem stageBitTransposeInv_good {s : State} (h : s.memoriesGood) (hn : s.geom.n3 ≤ s.params.tmpCap) :
    (stageBitTransposeInv s).memoriesGood :=
  State.memoriesGood_setMem h (wf_bitTransposeInverse (h.1 .tmp) ..) (below_bitTransposeInverse (h.2 .tmp) _ _ hn)

theorem stageZeDecode_good {s : State} (h : s.memoriesGood) {t : WordType} (hr : zeRangeOK t s = true) :
    (stageZeDecode t s).memoriesGood :=
  State.memoriesGood_setMem h (wf_zeDecode (h.1 .buf) ..)
    (below_zeDecode (h.2 .buf) _ _ _ (of_decide_eq_true hr))

/-! ### The two ZE commands -/

/-- Everything ZENC can do (43_zero_elimination.md R102, R103): a range error, a capacity failure, or the
encoding. -/
theorem execZenc_cases (chk : Bool) (t : WordType) (s : State) :
    (s.params.bufCap < s.zbase.toNat + s.zn.toNat * wordBytes t
      ∧ execZenc chk t s = .next (s.setCode .paramError))
    ∨ (s.zbase.toNat + s.zn.toNat * wordBytes t ≤ s.params.bufCap ∧ chk = true
      ∧ s.zcap.toNat < nonzeroCount (s.zeWord t) s.zn.toNat
      ∧ execZenc chk t s = .next ((overflowState t s).setCode .capacityExceeded))
    ∨ (s.zbase.toNat + s.zn.toNat * wordBytes t ≤ s.params.bufCap
      ∧ (chk = true → nonzeroCount (s.zeWord t) s.zn.toNat ≤ s.zcap.toNat)
      ∧ ∃ r, zeEncode t (s.zeWord t) s.zn.toNat (s.capOf chk) s.dns s.bmap = some r
        ∧ r.pos = nonzeroCount (s.zeWord t) s.zn.toNat
        ∧ execZenc chk t s
            = .next (State.setCode { s with dns := r.dns, bmap := r.bmap, zlen := BitVec.ofNat 32 r.pos } .ok)) := by
  unfold execZenc raiseErr finish
  by_cases hr : s.zbase.toNat + s.zn.toNat * wordBytes t ≤ s.params.bufCap
  · right
    have hok : zeRangeOK t s = true := by simpa [zeRangeOK] using hr
    obtain ⟨h1, h2⟩ := zeEncode_spec t (s.zeWord t) s.zn.toNat (s.capOf chk) s.dns s.bmap
    by_cases hc : chk = true ∧ s.zcap.toNat < nonzeroCount (s.zeWord t) s.zn.toNat
    · left
      refine ⟨hr, hc.1, hc.2, ?_⟩
      rw [h2 ⟨s.zcap.toNat, by simp [State.capOf, hc.1], hc.2⟩]
      simp [hok]
    · right
      have hfit : chk = true → nonzeroCount (s.zeWord t) s.zn.toNat ≤ s.zcap.toNat := fun e => by
        by_contra hlt
        exact hc ⟨e, by omega⟩
      obtain ⟨r, hre, hpos, -⟩ := h1 fun cap e => by
        cases chk with
        | false => simp [State.capOf] at e
        | true => simp only [State.capOf, if_true, Option.some.injEq] at e; rw [← e]; exact hfit rfl
      refine ⟨hr, hfit, r, hre, hpos, ?_⟩
      rw [hre]
      simp [hok]
  · left
    have hok : zeRangeOK t s = false := by simpa [zeRangeOK] using hr
    exact ⟨by omega, by simp [hok]⟩

/-- Everything ZDEC can do (43_zero_elimination.md R105). -/
theorem execZdec_cases (t : WordType) (s : State) :
    (s.params.bufCap < s.zbase.toNat + s.zn.toNat * wordBytes t
      ∧ execZdec t s = .next (s.setCode .paramError))
    ∨ (s.zbase.toNat + s.zn.toNat * wordBytes t ≤ s.params.bufCap
      ∧ execZdec t s = .next ((stageZeDecode t s).setCode .ok)) := by
  unfold execZdec raiseErr finish
  by_cases hr : s.zbase.toNat + s.zn.toNat * wordBytes t ≤ s.params.bufCap
  · right
    have hok : zeRangeOK t s = true := by simpa [zeRangeOK] using hr
    exact ⟨hr, by simp [hok]⟩
  · left
    have hok : zeRangeOK t s = false := by simpa [zeRangeOK] using hr
    exact ⟨by omega, by simp [hok]⟩

end Sys2Proof.Machine
end

