-- ==== Sys2Proof/Laws/Frames.lean ====
section
/-!
SUPPORT. What each stage keeps: every field but the memory it writes (spec/20_memory.md rules R30 and R38).
-/

namespace Sys2Proof.Machine

/-- Two states with equal fields are equal. -/
theorem State.ext_of_fields {s t : State} (h1 : s.cmd = t.cmd) (h2 : s.status = t.status) (h3 : s.len = t.len)
    (h4 : s.zbase = t.zbase) (h5 : s.zn = t.zn) (h6 : s.zcap = t.zcap) (h7 : s.zlen = t.zlen)
    (h8 : s.buf = t.buf) (h9 : s.tmp = t.tmp) (h10 : s.dns = t.dns) (h11 : s.bmap = t.bmap)
    (h12 : s.params = t.params) (h13 : s.pending = t.pending) (h14 : s.hostData = t.hostData)
    (h15 : s.epoch = t.epoch) (h16 : s.draws = t.draws) : s = t := by
  cases s; cases t; simp_all

theorem State.setMem_buf_keeps (s : State) (c : Memory) : s.setMem .buf c = { s with buf := (s.setMem .buf c).buf } :=
  rfl
theorem State.setMem_tmp_keeps (s : State) (c : Memory) : s.setMem .tmp c = { s with tmp := (s.setMem .tmp c).tmp } :=
  rfl

/-! ### stageNeutralise -/

@[simp] theorem stageNeutralise_cmd (s : State) : (stageNeutralise s).cmd = s.cmd := by simp [stageNeutralise]
@[simp] theorem stageNeutralise_status (s : State) : (stageNeutralise s).status = s.status := by simp [stageNeutralise]
@[simp] theorem stageNeutralise_len (s : State) : (stageNeutralise s).len = s.len := by simp [stageNeutralise]
@[simp] theorem stageNeutralise_zbase (s : State) : (stageNeutralise s).zbase = s.zbase := by simp [stageNeutralise]
@[simp] theorem stageNeutralise_zn (s : State) : (stageNeutralise s).zn = s.zn := by simp [stageNeutralise]
@[simp] theorem stageNeutralise_zcap (s : State) : (stageNeutralise s).zcap = s.zcap := by simp [stageNeutralise]
@[simp] theorem stageNeutralise_zlen (s : State) : (stageNeutralise s).zlen = s.zlen := by simp [stageNeutralise]
@[simp] theorem stageNeutralise_tmp_memory (s : State) : (stageNeutralise s).tmp = s.tmp := by simp [stageNeutralise]
@[simp] theorem stageNeutralise_dns_memory (s : State) : (stageNeutralise s).dns = s.dns := by simp [stageNeutralise]
@[simp] theorem stageNeutralise_bmap_memory (s : State) : (stageNeutralise s).bmap = s.bmap := by simp [stageNeutralise]
@[simp] theorem stageNeutralise_params (s : State) : (stageNeutralise s).params = s.params := by simp [stageNeutralise]
@[simp] theorem stageNeutralise_pending (s : State) : (stageNeutralise s).pending = s.pending := by simp [stageNeutralise]
@[simp] theorem stageNeutralise_hostData (s : State) : (stageNeutralise s).hostData = s.hostData := by simp [stageNeutralise]
@[simp] theorem stageNeutralise_epoch (s : State) : (stageNeutralise s).epoch = s.epoch := by simp [stageNeutralise]
@[simp] theorem stageNeutralise_draws (s : State) : (stageNeutralise s).draws = s.draws := by simp [stageNeutralise]
@[simp] theorem stageNeutralise_unwritten (s : State) (m : MemId) :
    (stageNeutralise s).unwritten m = s.unwritten m := by simp [State.unwritten]
theorem stageNeutralise_keeps (s : State) : stageNeutralise s = { s with buf := (stageNeutralise s).buf } :=
  State.setMem_buf_keeps s _

/-! ### stageRestore -/

@[simp] theorem stageRestore_cmd (s : State) : (stageRestore s).cmd = s.cmd := by simp [stageRestore]
@[simp] theorem stageRestore_status (s : State) : (stageRestore s).status = s.status := by simp [stageRestore]
@[simp] theorem stageRestore_len (s : State) : (stageRestore s).len = s.len := by simp [stageRestore]
@[simp] theorem stageRestore_zbase (s : State) : (stageRestore s).zbase = s.zbase := by simp [stageRestore]
@[simp] theorem stageRestore_zn (s : State) : (stageRestore s).zn = s.zn := by simp [stageRestore]
@[simp] theorem stageRestore_zcap (s : State) : (stageRestore s).zcap = s.zcap := by simp [stageRestore]
@[simp] theorem stageRestore_zlen (s : State) : (stageRestore s).zlen = s.zlen := by simp [stageRestore]
@[simp] theorem stageRestore_tmp_memory (s : State) : (stageRestore s).tmp = s.tmp := by simp [stageRestore]
@[simp] theorem stageRestore_dns_memory (s : State) : (stageRestore s).dns = s.dns := by simp [stageRestore]
@[simp] theorem stageRestore_bmap_memory (s : State) : (stageRestore s).bmap = s.bmap := by simp [stageRestore]
@[simp] theorem stageRestore_params (s : State) : (stageRestore s).params = s.params := by simp [stageRestore]
@[simp] theorem stageRestore_pending (s : State) : (stageRestore s).pending = s.pending := by simp [stageRestore]
@[simp] theorem stageRestore_hostData (s : State) : (stageRestore s).hostData = s.hostData := by simp [stageRestore]
@[simp] theorem stageRestore_epoch (s : State) : (stageRestore s).epoch = s.epoch := by simp [stageRestore]
@[simp] theorem stageRestore_draws (s : State) : (stageRestore s).draws = s.draws := by simp [stageRestore]
@[simp] theorem stageRestore_unwritten (s : State) (m : MemId) :
    (stageRestore s).unwritten m = s.unwritten m := by simp [State.unwritten]
theorem stageRestore_keeps (s : State) : stageRestore s = { s with buf := (stageRestore s).buf } :=
  State.setMem_buf_keeps s _

/-! ### stageRowDiff -/

@[simp] theorem stageRowDiff_cmd (s : State) : (stageRowDiff s).cmd = s.cmd := by simp [stageRowDiff]
@[simp] theorem stageRowDiff_status (s : State) : (stageRowDiff s).status = s.status := by simp [stageRowDiff]
@[simp] theorem stageRowDiff_len (s : State) : (stageRowDiff s).len = s.len := by simp [stageRowDiff]
@[simp] theorem stageRowDiff_zbase (s : State) : (stageRowDiff s).zbase = s.zbase := by simp [stageRowDiff]
@[simp] theorem stageRowDiff_zn (s : State) : (stageRowDiff s).zn = s.zn := by simp [stageRowDiff]
@[simp] theorem stageRowDiff_zcap (s : State) : (stageRowDiff s).zcap = s.zcap := by simp [stageRowDiff]
@[simp] theorem stageRowDiff_zlen (s : State) : (stageRowDiff s).zlen = s.zlen := by simp [stageRowDiff]
@[simp] theorem stageRowDiff_buf_memory (s : State) : (stageRowDiff s).buf = s.buf := by simp [stageRowDiff]
@[simp] theorem stageRowDiff_dns_memory (s : State) : (stageRowDiff s).dns = s.dns := by simp [stageRowDiff]
@[simp] theorem stageRowDiff_bmap_memory (s : State) : (stageRowDiff s).bmap = s.bmap := by simp [stageRowDiff]
@[simp] theorem stageRowDiff_params (s : State) : (stageRowDiff s).params = s.params := by simp [stageRowDiff]
@[simp] theorem stageRowDiff_pending (s : State) : (stageRowDiff s).pending = s.pending := by simp [stageRowDiff]
@[simp] theorem stageRowDiff_hostData (s : State) : (stageRowDiff s).hostData = s.hostData := by simp [stageRowDiff]
@[simp] theorem stageRowDiff_epoch (s : State) : (stageRowDiff s).epoch = s.epoch := by simp [stageRowDiff]
@[simp] theorem stageRowDiff_draws (s : State) : (stageRowDiff s).draws = s.draws := by simp [stageRowDiff]
@[simp] theorem stageRowDiff_unwritten (s : State) (m : MemId) :
    (stageRowDiff s).unwritten m = s.unwritten m := by simp [State.unwritten]
theorem stageRowDiff_keeps (s : State) : stageRowDiff s = { s with tmp := (stageRowDiff s).tmp } :=
  State.setMem_tmp_keeps s _

/-! ### stageRowDiffInv -/

@[simp] theorem stageRowDiffInv_cmd (s : State) : (stageRowDiffInv s).cmd = s.cmd := by simp [stageRowDiffInv]
@[simp] theorem stageRowDiffInv_status (s : State) : (stageRowDiffInv s).status = s.status := by simp [stageRowDiffInv]
@[simp] theorem stageRowDiffInv_len (s : State) : (stageRowDiffInv s).len = s.len := by simp [stageRowDiffInv]
@[simp] theorem stageRowDiffInv_zbase (s : State) : (stageRowDiffInv s).zbase = s.zbase := by simp [stageRowDiffInv]
@[simp] theorem stageRowDiffInv_zn (s : State) : (stageRowDiffInv s).zn = s.zn := by simp [stageRowDiffInv]
@[simp] theorem stageRowDiffInv_zcap (s : State) : (stageRowDiffInv s).zcap = s.zcap := by simp [stageRowDiffInv]
@[simp] theorem stageRowDiffInv_zlen (s : State) : (stageRowDiffInv s).zlen = s.zlen := by simp [stageRowDiffInv]
@[simp] theorem stageRowDiffInv_tmp_memory (s : State) : (stageRowDiffInv s).tmp = s.tmp := by simp [stageRowDiffInv]
@[simp] theorem stageRowDiffInv_dns_memory (s : State) : (stageRowDiffInv s).dns = s.dns := by simp [stageRowDiffInv]
@[simp] theorem stageRowDiffInv_bmap_memory (s : State) : (stageRowDiffInv s).bmap = s.bmap := by simp [stageRowDiffInv]
@[simp] theorem stageRowDiffInv_params (s : State) : (stageRowDiffInv s).params = s.params := by simp [stageRowDiffInv]
@[simp] theorem stageRowDiffInv_pending (s : State) : (stageRowDiffInv s).pending = s.pending := by simp [stageRowDiffInv]
@[simp] theorem stageRowDiffInv_hostData (s : State) : (stageRowDiffInv s).hostData = s.hostData := by simp [stageRowDiffInv]
@[simp] theorem stageRowDiffInv_epoch (s : State) : (stageRowDiffInv s).epoch = s.epoch := by simp [stageRowDiffInv]
@[simp] theorem stageRowDiffInv_draws (s : State) : (stageRowDiffInv s).draws = s.draws := by simp [stageRowDiffInv]
@[simp] theorem stageRowDiffInv_unwritten (s : State) (m : MemId) :
    (stageRowDiffInv s).unwritten m = s.unwritten m := by simp [State.unwritten]
theorem stageRowDiffInv_keeps (s : State) : stageRowDiffInv s = { s with buf := (stageRowDiffInv s).buf } :=
  State.setMem_buf_keeps s _

/-! ### stageBitTranspose -/

@[simp] theorem stageBitTranspose_cmd (s : State) : (stageBitTranspose s).cmd = s.cmd := by simp [stageBitTranspose]
@[simp] theorem stageBitTranspose_status (s : State) : (stageBitTranspose s).status = s.status := by simp [stageBitTranspose]
@[simp] theorem stageBitTranspose_len (s : State) : (stageBitTranspose s).len = s.len := by simp [stageBitTranspose]
@[simp] theorem stageBitTranspose_zbase (s : State) : (stageBitTranspose s).zbase = s.zbase := by simp [stageBitTranspose]
@[simp] theorem stageBitTranspose_zn (s : State) : (stageBitTranspose s).zn = s.zn := by simp [stageBitTranspose]
@[simp] theorem stageBitTranspose_zcap (s : State) : (stageBitTranspose s).zcap = s.zcap := by simp [stageBitTranspose]
@[simp] theorem stageBitTranspose_zlen (s : State) : (stageBitTranspose s).zlen = s.zlen := by simp [stageBitTranspose]
@[simp] theorem stageBitTranspose_tmp_memory (s : State) : (stageBitTranspose s).tmp = s.tmp := by simp [stageBitTranspose]
@[simp] theorem stageBitTranspose_dns_memory (s : State) : (stageBitTranspose s).dns = s.dns := by simp [stageBitTranspose]
@[simp] theorem stageBitTranspose_bmap_memory (s : State) : (stageBitTranspose s).bmap = s.bmap := by simp [stageBitTranspose]
@[simp] theorem stageBitTranspose_params (s : State) : (stageBitTranspose s).params = s.params := by simp [stageBitTranspose]
@[simp] theorem stageBitTranspose_pending (s : State) : (stageBitTranspose s).pending = s.pending := by simp [stageBitTranspose]
@[simp] theorem stageBitTranspose_hostData (s : State) : (stageBitTranspose s).hostData = s.hostData := by simp [stageBitTranspose]
@[simp] theorem stageBitTranspose_epoch (s : State) : (stageBitTranspose s).epoch = s.epoch := by simp [stageBitTranspose]
@[simp] theorem stageBitTranspose_draws (s : State) : (stageBitTranspose s).draws = s.draws := by simp [stageBitTranspose]
@[simp] theorem stageBitTranspose_unwritten (s : State) (m : MemId) :
    (stageBitTranspose s).unwritten m = s.unwritten m := by simp [State.unwritten]
theorem stageBitTranspose_keeps (s : State) : stageBitTranspose s = { s with buf := (stageBitTranspose s).buf } :=
  State.setMem_buf_keeps s _

/-! ### stageBitTransposeInv -/

@[simp] theorem stageBitTransposeInv_cmd (s : State) : (stageBitTransposeInv s).cmd = s.cmd := by simp [stageBitTransposeInv]
@[simp] theorem stageBitTransposeInv_status (s : State) : (stageBitTransposeInv s).status = s.status := by simp [stageBitTransposeInv]
@[simp] theorem stageBitTransposeInv_len (s : State) : (stageBitTransposeInv s).len = s.len := by simp [stageBitTransposeInv]
@[simp] theorem stageBitTransposeInv_zbase (s : State) : (stageBitTransposeInv s).zbase = s.zbase := by simp [stageBitTransposeInv]
@[simp] theorem stageBitTransposeInv_zn (s : State) : (stageBitTransposeInv s).zn = s.zn := by simp [stageBitTransposeInv]
@[simp] theorem stageBitTransposeInv_zcap (s : State) : (stageBitTransposeInv s).zcap = s.zcap := by simp [stageBitTransposeInv]
@[simp] theorem stageBitTransposeInv_zlen (s : State) : (stageBitTransposeInv s).zlen = s.zlen := by simp [stageBitTransposeInv]
@[simp] theorem stageBitTransposeInv_buf_memory (s : State) : (stageBitTransposeInv s).buf = s.buf := by simp [stageBitTransposeInv]
@[simp] theorem stageBitTransposeInv_dns_memory (s : State) : (stageBitTransposeInv s).dns = s.dns := by simp [stageBitTransposeInv]
@[simp] theorem stageBitTransposeInv_bmap_memory (s : State) : (stageBitTransposeInv s).bmap = s.bmap := by simp [stageBitTransposeInv]
@[simp] theorem stageBitTransposeInv_params (s : State) : (stageBitTransposeInv s).params = s.params := by simp [stageBitTransposeInv]
@[simp] theorem stageBitTransposeInv_pending (s : State) : (stageBitTransposeInv s).pending = s.pending := by simp [stageBitTransposeInv]
@[simp] theorem stageBitTransposeInv_hostData (s : State) : (stageBitTransposeInv s).hostData = s.hostData := by simp [stageBitTransposeInv]
@[simp] theorem stageBitTransposeInv_epoch (s : State) : (stageBitTransposeInv s).epoch = s.epoch := by simp [stageBitTransposeInv]
@[simp] theorem stageBitTransposeInv_draws (s : State) : (stageBitTransposeInv s).draws = s.draws := by simp [stageBitTransposeInv]
@[simp] theorem stageBitTransposeInv_unwritten (s : State) (m : MemId) :
    (stageBitTransposeInv s).unwritten m = s.unwritten m := by simp [State.unwritten]
theorem stageBitTransposeInv_keeps (s : State) : stageBitTransposeInv s = { s with tmp := (stageBitTransposeInv s).tmp } :=
  State.setMem_tmp_keeps s _

/-! ### stageZeDecode -/

@[simp] theorem stageZeDecode_cmd (t : WordType) (s : State) : (stageZeDecode t s).cmd = s.cmd := by simp [stageZeDecode]
@[simp] theorem stageZeDecode_status (t : WordType) (s : State) : (stageZeDecode t s).status = s.status := by simp [stageZeDecode]
@[simp] theorem stageZeDecode_len (t : WordType) (s : State) : (stageZeDecode t s).len = s.len := by simp [stageZeDecode]
@[simp] theorem stageZeDecode_zbase (t : WordType) (s : State) : (stageZeDecode t s).zbase = s.zbase := by simp [stageZeDecode]
@[simp] theorem stageZeDecode_zn (t : WordType) (s : State) : (stageZeDecode t s).zn = s.zn := by simp [stageZeDecode]
@[simp] theorem stageZeDecode_zcap (t : WordType) (s : State) : (stageZeDecode t s).zcap = s.zcap := by simp [stageZeDecode]
@[simp] theorem stageZeDecode_zlen (t : WordType) (s : State) : (stageZeDecode t s).zlen = s.zlen := by simp [stageZeDecode]
@[simp] theorem stageZeDecode_tmp_memory (t : WordType) (s : State) : (stageZeDecode t s).tmp = s.tmp := by simp [stageZeDecode]
@[simp] theorem stageZeDecode_dns_memory (t : WordType) (s : State) : (stageZeDecode t s).dns = s.dns := by simp [stageZeDecode]
@[simp] theorem stageZeDecode_bmap_memory (t : WordType) (s : State) : (stageZeDecode t s).bmap = s.bmap := by simp [stageZeDecode]
@[simp] theorem stageZeDecode_params (t : WordType) (s : State) : (stageZeDecode t s).params = s.params := by simp [stageZeDecode]
@[simp] theorem stageZeDecode_pending (t : WordType) (s : State) : (stageZeDecode t s).pending = s.pending := by simp [stageZeDecode]
@[simp] theorem stageZeDecode_hostData (t : WordType) (s : State) : (stageZeDecode t s).hostData = s.hostData := by simp [stageZeDecode]
@[simp] theorem stageZeDecode_epoch (t : WordType) (s : State) : (stageZeDecode t s).epoch = s.epoch := by simp [stageZeDecode]
@[simp] theorem stageZeDecode_draws (t : WordType) (s : State) : (stageZeDecode t s).draws = s.draws := by simp [stageZeDecode]
@[simp] theorem stageZeDecode_unwritten (t : WordType) (s : State) (m : MemId) :
    (stageZeDecode t s).unwritten m = s.unwritten m := by simp [State.unwritten]
theorem stageZeDecode_keeps (t : WordType) (s : State) : stageZeDecode t s = { s with buf := (stageZeDecode t s).buf } :=
  State.setMem_buf_keeps s _

/-! ### stagesEncode -/

@[simp] theorem stagesEncode_cmd (s : State) : (stagesEncode s).cmd = s.cmd := by simp [stagesEncode]
@[simp] theorem stagesEncode_status (s : State) : (stagesEncode s).status = s.status := by simp [stagesEncode]
@[simp] theorem stagesEncode_len (s : State) : (stagesEncode s).len = s.len := by simp [stagesEncode]
@[simp] theorem stagesEncode_zbase (s : State) : (stagesEncode s).zbase = s.zbase := by simp [stagesEncode]
@[simp] theorem stagesEncode_zn (s : State) : (stagesEncode s).zn = s.zn := by simp [stagesEncode]
@[simp] theorem stagesEncode_zcap (s : State) : (stagesEncode s).zcap = s.zcap := by simp [stagesEncode]
@[simp] theorem stagesEncode_zlen (s : State) : (stagesEncode s).zlen = s.zlen := by simp [stagesEncode]
@[simp] theorem stagesEncode_dns_memory (s : State) : (stagesEncode s).dns = s.dns := by simp [stagesEncode]
@[simp] theorem stagesEncode_bmap_memory (s : State) : (stagesEncode s).bmap = s.bmap := by simp [stagesEncode]
@[simp] theorem stagesEncode_params (s : State) : (stagesEncode s).params = s.params := by simp [stagesEncode]
@[simp] theorem stagesEncode_pending (s : State) : (stagesEncode s).pending = s.pending := by simp [stagesEncode]
@[simp] theorem stagesEncode_hostData (s : State) : (stagesEncode s).hostData = s.hostData := by simp [stagesEncode]
@[simp] theorem stagesEncode_epoch (s : State) : (stagesEncode s).epoch = s.epoch := by simp [stagesEncode]
@[simp] theorem stagesEncode_draws (s : State) : (stagesEncode s).draws = s.draws := by simp [stagesEncode]
@[simp] theorem stagesEncode_unwritten (s : State) (m : MemId) :
    (stagesEncode s).unwritten m = s.unwritten m := by simp [State.unwritten]
theorem stagesEncode_keeps (s : State) : stagesEncode s = { s with buf := (stagesEncode s).buf, tmp := (stagesEncode s).tmp } :=
  State.ext_of_fields (by simp) (by simp) (by simp) (by simp) (by simp) (by simp) (by simp) (by simp) (by simp) (by simp)
    (by simp) (by simp) (by simp) (by simp) (by simp) (by simp)

/-! ### stagesDecode -/

@[simp] theorem stagesDecode_cmd (s : State) : (stagesDecode s).cmd = s.cmd := by simp [stagesDecode]
@[simp] theorem stagesDecode_status (s : State) : (stagesDecode s).status = s.status := by simp [stagesDecode]
@[simp] theorem stagesDecode_len (s : State) : (stagesDecode s).len = s.len := by simp [stagesDecode]
@[simp] theorem stagesDecode_zbase (s : State) : (stagesDecode s).zbase = s.zbase := by simp [stagesDecode]
@[simp] theorem stagesDecode_zn (s : State) : (stagesDecode s).zn = s.zn := by simp [stagesDecode]
@[simp] theorem stagesDecode_zcap (s : State) : (stagesDecode s).zcap = s.zcap := by simp [stagesDecode]
@[simp] theorem stagesDecode_zlen (s : State) : (stagesDecode s).zlen = s.zlen := by simp [stagesDecode]
@[simp] theorem stagesDecode_dns_memory (s : State) : (stagesDecode s).dns = s.dns := by simp [stagesDecode]
@[simp] theorem stagesDecode_bmap_memory (s : State) : (stagesDecode s).bmap = s.bmap := by simp [stagesDecode]
@[simp] theorem stagesDecode_params (s : State) : (stagesDecode s).params = s.params := by simp [stagesDecode]
@[simp] theorem stagesDecode_pending (s : State) : (stagesDecode s).pending = s.pending := by simp [stagesDecode]
@[simp] theorem stagesDecode_hostData (s : State) : (stagesDecode s).hostData = s.hostData := by simp [stagesDecode]
@[simp] theorem stagesDecode_epoch (s : State) : (stagesDecode s).epoch = s.epoch := by simp [stagesDecode]
@[simp] theorem stagesDecode_draws (s : State) : (stagesDecode s).draws = s.draws := by simp [stagesDecode]
@[simp] theorem stagesDecode_unwritten (s : State) (m : MemId) :
    (stagesDecode s).unwritten m = s.unwritten m := by simp [State.unwritten]
theorem stagesDecode_keeps (s : State) : stagesDecode s = { s with buf := (stagesDecode s).buf, tmp := (stagesDecode s).tmp } :=
  State.ext_of_fields (by simp) (by simp) (by simp) (by simp) (by simp) (by simp) (by simp) (by simp) (by simp) (by simp)
    (by simp) (by simp) (by simp) (by simp) (by simp) (by simp)

/-! ### No stage reads the parameters (20_memory.md R44) -/

theorem stageNeutralise_params_free (s : State) (p : Config.Params) :
    stageNeutralise { s with params := p } = { stageNeutralise s with params := p } := by
  unfold stageNeutralise
  rw [show State.geom { s with params := p } = s.geom from rfl,
    show State.unwritten { s with params := p } .buf = s.unwritten .buf from rfl]
  dsimp only
  generalize neutraliseHeader _ _ _ = c
  rfl

theorem stageRestore_params_free (s : State) (p : Config.Params) :
    stageRestore { s with params := p } = { stageRestore s with params := p } := by
  unfold stageRestore
  rw [show State.geom { s with params := p } = s.geom from rfl,
    show State.unwritten { s with params := p } .buf = s.unwritten .buf from rfl]
  dsimp only
  generalize restoreHeader _ _ _ = c
  rfl

theorem stageRowDiff_params_free (s : State) (p : Config.Params) :
    stageRowDiff { s with params := p } = { stageRowDiff s with params := p } := rfl
theorem stageRowDiffInv_params_free (s : State) (p : Config.Params) :
    stageRowDiffInv { s with params := p } = { stageRowDiffInv s with params := p } := rfl
theorem stageBitTranspose_params_free (s : State) (p : Config.Params) :
    stageBitTranspose { s with params := p } = { stageBitTranspose s with params := p } := rfl
theorem stageBitTransposeInv_params_free (s : State) (p : Config.Params) :
    stageBitTransposeInv { s with params := p } = { stageBitTransposeInv s with params := p } := rfl
theorem stageZeDecode_params_free (t : WordType) (s : State) (p : Config.Params) :
    stageZeDecode t { s with params := p } = { stageZeDecode t s with params := p } := rfl
theorem stagesEncode_params_free (s : State) (p : Config.Params) :
    stagesEncode { s with params := p } = { stagesEncode s with params := p } := by
  unfold stagesEncode
  rw [stageNeutralise_params_free, stageRowDiff_params_free, stageBitTranspose_params_free]
theorem stagesDecode_params_free (s : State) (p : Config.Params) :
    stagesDecode { s with params := p } = { stagesDecode s with params := p } := by
  unfold stagesDecode
  rw [stageBitTransposeInv_params_free, stageRowDiffInv_params_free, stageRestore_params_free]

/-! ### No stage reads CMD or STATUS (10_state.md R11 and R12) -/

theorem stageNeutralise_command_free (s : State) (c d : Byte) :
    stageNeutralise { s with cmd := c, status := d } = { stageNeutralise s with cmd := c, status := d } := by
  unfold stageNeutralise
  rw [show State.geom { s with cmd := c, status := d } = s.geom from rfl,
    show State.unwritten { s with cmd := c, status := d } .buf = s.unwritten .buf from rfl]
  dsimp only
  generalize neutraliseHeader _ _ _ = m
  rfl

theorem stageRestore_command_free (s : State) (c d : Byte) :
    stageRestore { s with cmd := c, status := d } = { stageRestore s with cmd := c, status := d } := by
  unfold stageRestore
  rw [show State.geom { s with cmd := c, status := d } = s.geom from rfl,
    show State.unwritten { s with cmd := c, status := d } .buf = s.unwritten .buf from rfl]
  dsimp only
  generalize restoreHeader _ _ _ = m
  rfl

theorem stageRowDiff_command_free (s : State) (c d : Byte) :
    stageRowDiff { s with cmd := c, status := d } = { stageRowDiff s with cmd := c, status := d } := rfl
theorem stageRowDiffInv_command_free (s : State) (c d : Byte) :
    stageRowDiffInv { s with cmd := c, status := d } = { stageRowDiffInv s with cmd := c, status := d } := rfl
theorem stageBitTranspose_command_free (s : State) (c d : Byte) :
    stageBitTranspose { s with cmd := c, status := d } = { stageBitTranspose s with cmd := c, status := d } := rfl
theorem stageBitTransposeInv_command_free (s : State) (c d : Byte) :
    stageBitTransposeInv { s with cmd := c, status := d } = { stageBitTransposeInv s with cmd := c, status := d } := rfl

/-- A memory that is the same list with the same unwritten bytes reads the same. -/
theorem State.byte_congr {s t : State} {m : MemId} (h : t.mem m = s.mem m) (he : t.epoch = s.epoch) :
    t.byte m = s.byte m := by
  funext a
  unfold State.byte State.unwritten
  rw [h, he]

end Sys2Proof.Machine
end

