-- ==== Sys2Proof/Laws/Congruence.lean ====
section
/-!
SUPPORT. What each check and each stage reads: two states that agree on those bytes pass alike and end
alike (spec/10_state.md rule R13, spec/20_memory.md rule R38).
-/

namespace Sys2Proof.Machine

theorem get32_congr {rd rd' : Nat → Byte} {a : Nat} (h : ∀ x, a ≤ x → x < a + 4 → rd x = rd' x) :
    get32 rd a = get32 rd' a := by
  unfold get32; rw [readLE_congr h]

theorem get16_congr {rd rd' : Nat → Byte} {a : Nat} (h : ∀ x, a ≤ x → x < a + 2 → rd x = rd' x) :
    get16 rd a = get16 rd' a := by
  unfold get16; rw [readLE_congr h]

/-! ### The header checks -/

/-- The fields of the header are functions of its 54 bytes. -/
theorem header_fields_congr {rd rd' : Nat → Byte} (h : ∀ a, a < 54 → rd a = rd' a) :
    (∀ a, a + 4 ≤ 54 → get32 rd a = get32 rd' a) ∧ (∀ a, a + 2 ≤ 54 → get16 rd a = get16 rd' a) :=
  ⟨fun _ _ => get32_congr fun x _ _ => h x (by omega), fun _ _ => get16_congr fun x _ _ => h x (by omega)⟩

theorem acceptFwd_congr {s t : State} (hl : t.len = s.len)
    (h : ∀ a, a < 54 → t.byte .buf a = s.byte .buf a) : acceptFwd t = acceptFwd s := by
  obtain ⟨h1, h2, h3⟩ := geom_congr (s := s) (t := t) fun a _ _ => h a (by omega)
  obtain ⟨g32, g16⟩ := header_fields_congr h
  unfold acceptFwd
  dsimp only
  rw [h1, h2, h3, hl, h 0 (by omega), h 1 (by omega)]
  simp (disch := omega) only [g32, g16]

theorem acceptInv_congr {s t : State} (hl : t.len = s.len)
    (h : ∀ a, a < 54 → t.byte .buf a = s.byte .buf a) : acceptInv t = acceptInv s := by
  obtain ⟨g32, g16⟩ := header_fields_congr h
  unfold acceptInv
  dsimp only
  rw [geomOK_congr (fun a _ _ => h a (by omega)) hl, hl, h 0 (by omega), h 1 (by omega)]
  simp (disch := omega) only [g32, g16]

/-! ### Component B -/

theorem stageNeutralise_congr {s t : State} {n : Nat} (hn : 54 ≤ n)
    (h : ∀ a, a < n → t.byte .buf a = s.byte .buf a) {a : Nat} (ha : a < n) :
    (stageNeutralise t).byte .buf a = (stageNeutralise s).byte .buf a := by
  obtain ⟨h1, h2, h3⟩ := geom_congr (s := s) (t := t) fun a _ _ => h a (by omega)
  have h' : ∀ a, a < n → Memory.read (t.unwritten .buf) t.buf a = Memory.read (s.unwritten .buf) s.buf a := h
  obtain ⟨g32, g16⟩ := header_fields_congr fun a ha => h' a (by omega)
  rw [stageNeutralise, stageNeutralise, State.setMem_byte_self, State.setMem_byte_self,
    neutraliseHeader_eq, neutraliseHeader_eq, read_headerWith, read_headerWith, h3, h' _ ha, h' 0 (by omega), h' 1 (by omega)]
  simp (disch := omega) only [g32, g16]

theorem stageRestore_congr {s t : State} {n : Nat} (hn : 54 ≤ n)
    (h : ∀ a, a < n → t.byte .buf a = s.byte .buf a) {a : Nat} (ha : a < n) :
    (stageRestore t).byte .buf a = (stageRestore s).byte .buf a := by
  obtain ⟨h1, h2, h3⟩ := geom_congr (s := s) (t := t) fun a _ _ => h a (by omega)
  have h' : ∀ a, a < n → Memory.read (t.unwritten .buf) t.buf a = Memory.read (s.unwritten .buf) s.buf a := h
  obtain ⟨g32, g16⟩ := header_fields_congr fun a ha => h' a (by omega)
  rw [stageRestore, stageRestore, State.setMem_byte_self, State.setMem_byte_self,
    restoreHeader_eq, restoreHeader_eq, read_headerWith, read_headerWith, h3, h' _ ha, h' 0 (by omega), h' 1 (by omega)]
  simp (disch := omega) only [g32, g16]

/-! ### Component C -/

/-- Every pixel lies in the pixel region. -/
theorem Geom.pixelAddr_lt (g : Geom) {y x c : Nat} (hy : y < g.h) (hx : x < g.w) (hc : c < 3) :
    g.pixelAddr y x + c < 54 + g.h * g.stride := by
  have := g.row_lt (i := 3 * x + c) hy (by have := g.stride_ge; omega)
  unfold Geom.pixelAddr; omega

theorem stageRowDiff_congr {s t : State}
    (h : ∀ a, a < 54 + s.geom.h * s.geom.stride → t.byte .buf a = s.byte .buf a) (ht : t.tmp = s.tmp) :
    (stageRowDiff t).tmp = (stageRowDiff s).tmp := by
  obtain ⟨h1, h2, h3⟩ := geom_congr (s := s) (t := t) fun a _ _ => h a (by omega)
  rw [stageRowDiff, stageRowDiff, State.setMem_tmp_self, State.setMem_tmp_self, h3, ht]
  exact rowDiffForward_congr _ _ fun y x c hy hx hc => h _ (Geom.pixelAddr_lt _ hy hx hc)

theorem residualAt_congr (g : Geom) {rd rd' : Nat → Byte} (h : ∀ a, a < g.n3 → rd a = rd' a) {y x : Nat}
    (hy : y < g.h) (hx : x < g.w) : residualAt g rd y x = residualAt g rd' y x := by
  unfold residualAt
  rw [h _ (g.planeAddr_lt (by omega) hy hx), h _ (g.planeAddr_lt (by omega) hy hx),
    h _ (g.planeAddr_lt (by omega) hy hx)]

theorem rebuiltAt_congr (g : Geom) {rd rd' : Nat → Byte} (h : ∀ a, a < g.n3 → rd a = rd' a) {y x : Nat}
    (hy : y < g.h) (hx : x < g.w) : rebuiltAt g rd y x = rebuiltAt g rd' y x := by
  have h1 : rowPredictor g rd y = rowPredictor g rd' y := by
    induction y with
    | zero => rfl
    | succ y ih => rw [rowPredictor, rowPredictor, ih (by omega), residualAt_congr g h (by omega) (by omega)]
  unfold rebuiltAt
  rw [h1]
  induction x with
  | zero => rw [rebuiltFrom, rebuiltFrom, residualAt_congr g h hy hx]
  | succ x ih => rw [rebuiltFrom, rebuiltFrom, residualAt_congr g h hy hx, ih (by omega)]

theorem stageRowDiffInv_congr {s t : State} (hw : 0 < s.geom.w) {n : Nat}
    (hn : 54 + s.geom.h * s.geom.stride ≤ n) (h : ∀ a, a < n → t.byte .buf a = s.byte .buf a)
    (ht : ∀ a, a < s.geom.n3 → t.byte .tmp a = s.byte .tmp a) {a : Nat} (ha : a < n) :
    (stageRowDiffInv t).byte .buf a = (stageRowDiffInv s).byte .buf a := by
  obtain ⟨h1, h2, h3⟩ := geom_congr (s := s) (t := t) fun a _ _ => h a (by omega)
  by_cases hout : a < 54 ∨ 54 + s.geom.h * s.geom.stride ≤ a
  · rw [stageRowDiffInv_outside s hw hout, stageRowDiffInv_outside t (by rwa [h3]) (by rwa [h3]), h a ha]
  · obtain ⟨y, i, hy, hi, rfl⟩ := s.geom.exists_row (a := a) (by omega) (by omega)
    by_cases hp : 3 * s.geom.w ≤ i
    · rw [stageRowDiffInv_padding s hw hy hp hi]
      have := stageRowDiffInv_padding t (by rwa [h3]) (y := y) (i := i) (by rwa [h3]) (by rwa [h3]) (by rwa [h3])
      rw [h3] at this; exact this
    · have e : 54 + y * s.geom.stride + i = s.geom.pixelAddr y (i / 3) + i % 3 := by unfold Geom.pixelAddr; omega
      rw [e, stageRowDiffInv_pixel s hy (by omega) (by omega)]
      have := stageRowDiffInv_pixel t (y := y) (x := i / 3) (c := i % 3) (by rwa [h3]) (by rw [h3]; omega)
        (by omega)
      rw [h3] at this; rw [this, rebuiltAt_congr _ ht hy (by omega)]

/-! ### Component D -/

/-- Every residual byte of BUF is a byte of a slab or of the remainder (30_encoding.md R62). -/
theorem Geom.slab_or_extra (g : Geom) {a : Nat} (h1 : 54 ≤ a) (h2 : a < 54 + g.n3) :
    (∃ j i, j < 8 ∧ i < g.groups ∧ a = g.slabAddr j i) ∨ ∃ k, k < g.extra ∧ a = 54 + g.esize + k := by
  have e1 := g.esize_add_extra
  have e2 := g.esize_eq
  rcases Nat.lt_or_ge a (54 + g.esize) with h | h
  · left
    have hg : 0 < g.groups := by omega
    refine ⟨(a - 54) / g.groups, (a - 54) % g.groups, ?_, Nat.mod_lt _ hg, ?_⟩
    · rw [Nat.div_lt_iff_lt_mul hg]; omega
    · rw [Geom.slabAddr_eq]; have := Nat.div_add_mod' (a - 54) g.groups; omega
  · exact .inr ⟨a - 54 - g.esize, by omega, by omega⟩

theorem groupWord_congr {rd rd' : Nat → Byte} {i n : Nat} (h : ∀ a, a < n → rd a = rd' a)
    (hi : 8 * i + 8 ≤ n) : groupWord rd i = groupWord rd' i := by
  unfold groupWord; rw [readLE_congr fun x h1 h2 => h x (by omega)]

theorem stageBitTranspose_congr {s t : State} (hl : t.len = s.len) (hn : 54 + s.geom.n3 ≤ s.len.toNat)
    (h : ∀ a, a < s.len.toNat → t.byte .buf a = s.byte .buf a) (h3 : t.geom = s.geom)
    (ht : ∀ a, a < s.geom.n3 → t.byte .tmp a = s.byte .tmp a) {a : Nat} (ha : a < s.len.toNat) :
    (stageBitTranspose t).byte .buf a = (stageBitTranspose s).byte .buf a := by
  have e1 := s.geom.esize_add_extra
  have e2 := s.geom.esize_eq
  rcases Nat.lt_or_ge a 54 with h54 | h54
  · rw [stageBitTranspose_outside s hn (by omega), stageBitTranspose_outside t (by rwa [h3, hl]) (by omega),
      h a ha]
  rcases Nat.lt_or_ge a (54 + s.geom.n3) with h2 | h2
  · rcases s.geom.slab_or_extra h54 h2 with ⟨j, i, hj, hi, rfl⟩ | ⟨k, hk, rfl⟩
    · rw [stageBitTranspose_slab s hj hi]
      have := stageBitTranspose_slab t (j := j) (i := i) hj (by rw [h3]; exact hi)
      rw [h3] at this
      rw [this, groupWord_congr ht (by omega)]
    · rw [stageBitTranspose_extra s hk]
      have := stageBitTranspose_extra t (k := k) (by rw [h3]; exact hk)
      rw [h3] at this
      rw [this, ht _ (by omega)]
  · rw [stageBitTranspose_tail s h2 ha, stageBitTranspose_tail t (by rw [h3]; exact h2) (by rw [hl]; exact ha)]

theorem stageBitTransposeInv_congr {s t : State}
    (h : ∀ a, a < 54 + s.geom.n3 → t.byte .buf a = s.byte .buf a) (ht : t.tmp = s.tmp) (h3 : t.geom = s.geom) :
    (stageBitTransposeInv t).tmp = (stageBitTransposeInv s).tmp := by
  rw [stageBitTransposeInv, stageBitTransposeInv, State.setMem_tmp_self, State.setMem_tmp_self, ht, h3]
  exact bitTransposeInverse_congr _ _ fun a _ h2 => h a h2

end Sys2Proof.Machine
end

