-- ==== Sys2Proof/Laws/PerInstr.lean ====
section
/-!
SUPPORT. What holds of the encoding of every command, one lemma per command (spec/30_encoding.md rules R50
to R54).
-/

namespace Sys2Proof.Laws.EncodesLegally

/-- The command's fields pass the four checks of R54, its byte has bit 7 clear, and the byte's fields are
the command's (R50). -/
def Statement (i : Instr) : Prop :=
  i.wellFormed = true ∧ (encode i).getLsbD 7 = false ∧ splitByte (encode i) = i.fields

theorem hdrn : Statement .hdrn := ⟨rfl, rfl, rfl⟩
theorem hdrr : Statement .hdrr := ⟨rfl, rfl, rfl⟩
theorem rcdf : Statement .rcdf := ⟨rfl, rfl, rfl⟩
theorem rcdi : Statement .rcdi := ⟨rfl, rfl, rfl⟩
theorem bmtf : Statement .bmtf := ⟨rfl, rfl, rfl⟩
theorem bmti : Statement .bmti := ⟨rfl, rfl, rfl⟩
theorem zenc (chk : Bool) (t : WordType) : Statement (.zenc chk t) := by
  cases chk <;> cases t <;> exact ⟨rfl, rfl, rfl⟩
theorem zdec (t : WordType) : Statement (.zdec t) := by cases t <;> exact ⟨rfl, rfl, rfl⟩
theorem enc : Statement .enc := ⟨rfl, rfl, rfl⟩
theorem dec : Statement .dec := ⟨rfl, rfl, rfl⟩

end Sys2Proof.Laws.EncodesLegally
end

