-- ==== Sys2Proof/Laws/Step.lean ====
section
/-!
SUPPORT. The meaning each command dispatches to, and what a step does for each access of the host
(spec/10_state.md rules R11 to R18 and R28, spec/30_encoding.md rule R51).
-/

namespace Sys2Proof.Machine

/-! ### Dispatch -/

theorem exec_hdrn (s : State) : exec .hdrn s = guarded acceptFwd stageNeutralise s := rfl
theorem exec_hdrr (s : State) : exec .hdrr s = guarded acceptInv stageRestore s := rfl
theorem exec_rcdf (s : State) : exec .rcdf s = guarded geomOK stageRowDiff s := rfl
theorem exec_rcdi (s : State) : exec .rcdi s = guarded geomOK stageRowDiffInv s := rfl
theorem exec_bmtf (s : State) : exec .bmtf s = guarded geomOK stageBitTranspose s := rfl
theorem exec_bmti (s : State) : exec .bmti s = guarded geomOK stageBitTransposeInv s := rfl
theorem exec_zenc (chk : Bool) (t : WordType) (s : State) : exec (.zenc chk t) s = execZenc chk t s := rfl
theorem exec_zdec (t : WordType) (s : State) : exec (.zdec t) s = execZdec t s := rfl
theorem exec_enc (s : State) : exec .enc s = guarded acceptFwd stagesEncode s := rfl
theorem exec_dec (s : State) : exec .dec s = guarded acceptInv stagesDecode s := rfl

/-! ### Steps -/

theorem step_of_nil {s : State} (h : s.pending = []) : step s = .next s := by
  unfold step; rw [h]

theorem step_of_cons {s : State} {a : HostAccess} {rest : List HostAccess} (h : s.pending = a :: rest) :
    step s = serve a { s with pending := rest } := by
  unfold step; rw [h]

theorem runCommand_of_ok {c : Byte} {i : Instr} (h : decode c = .ok i) (s : State) :
    runCommand c s = exec i (s.setCmd c) := by
  unfold runCommand; rw [h]

theorem runCommand_of_error {c : Byte} {why : IllegalByte} (h : decode c = .error why) (s : State) :
    runCommand c s = .next ((s.setCmd c).setCode .illegalCommand) := by
  unfold runCommand; rw [h]; rfl

/-- What a register write that answers `t` did: one of the four writable registers, or nothing. -/
theorem writeReg_next {n : Nat} {v : Word} {s t : State} (h : writeReg n v s = .next t) :
    t = { s with len := v } ∨ t = { s with zbase := v } ∨ t = { s with zn := v } ∨ t = { s with zcap := v }
      ∨ t = s := by
  unfold writeReg at h
  split at h <;> cases h <;> simp

/-- Everything a step that answers `t` did. -/
theorem step_cases {s t : State} (h : step s = .next t) :
    (s.pending = [] ∧ t = s)
    ∨ ∃ a rest, s.pending = a :: rest ∧
      ((∃ c i, a = .writeCmd c ∧ decode c = .ok i
          ∧ exec i (State.setCmd { s with pending := rest } c) = .next t)
      ∨ (∃ c why, a = .writeCmd c ∧ decode c = .error why
          ∧ t = (State.setCmd { s with pending := rest } c).setCode .illegalCommand)
      ∨ (∃ n v, a = .writeReg n v ∧ writeReg n v { s with pending := rest } = .next t)
      ∨ (∃ n, a = .readReg n ∧ t = State.deliver { s with pending := rest } (s.readReg n))
      ∨ (∃ m x b, a = .writeMem m x b ∧ x < s.params.cap m ∧ t = State.setByte { s with pending := rest } m x b)
      ∨ (∃ m x, a = .readMem m x ∧ x < s.params.cap m
          ∧ t = State.deliver { s with pending := rest } ((s.byte m x).setWidth 32))
      ∨ (a = .reset ∧ t = State.applyReset { s with pending := rest })) := by
  rcases hp : s.pending with _ | ⟨a, rest⟩
  · rw [step_of_nil hp] at h
    cases h
    exact .inl ⟨rfl, rfl⟩
  · rw [step_of_cons hp] at h
    refine .inr ⟨a, rest, rfl, ?_⟩
    cases a with
    | writeCmd c =>
      rcases hd : decode c with why | i
      · rw [serve, runCommand_of_error hd] at h
        cases h
        exact .inr (.inl ⟨c, why, rfl, hd, rfl⟩)
      · rw [serve, runCommand_of_ok hd] at h
        exact .inl ⟨c, i, rfl, hd, h⟩
    | writeReg n v => exact .inr (.inr (.inl ⟨n, v, rfl, h⟩))
    | readReg n =>
      rw [serve] at h
      cases h
      exact .inr (.inr (.inr (.inl ⟨n, rfl, rfl⟩)))
    | writeMem m x b =>
      rw [serve, hostWriteMem] at h
      split at h
      · rename_i hx
        cases h
        exact .inr (.inr (.inr (.inr (.inl ⟨m, x, b, rfl, hx, rfl⟩))))
      · cases h
    | readMem m x =>
      rw [serve, hostReadMem] at h
      split at h
      · rename_i hx
        cases h
        refine .inr (.inr (.inr (.inr (.inr (.inl ⟨m, x, rfl, hx, ?_⟩)))))
        cases m <;> rfl
      · cases h
    | reset =>
      rw [serve] at h
      cases h
      exact .inr (.inr (.inr (.inr (.inr (.inr ⟨rfl, rfl⟩)))))

end Sys2Proof.Machine
end

