-- ==== Sys2Proof/Tests/Slice0.lean ====
section
/-!
SUPPORT. Tests of one step each, whose expected results are the spec's own (spec/95_test_vectors.md and the worked
examples of the command rules), and, for every statement with hypotheses, a witness that meets them.
-/

namespace Sys2Proof.Tests

open Sys2Proof Sys2Proof.Machine

/-! ### Helpers -/

/-- A memory that holds some bytes from an offset. -/
def cells (a : Nat) : List Byte → Memory
  | [] => []
  | b :: bs => (a, b) :: cells (a + 1) bs

/-- The machine after reset, with some bytes loaded at offset 0 of BUF and LEN set to their number. -/
def image (bytes : List Byte) : State :=
  { State.reset with len := BitVec.ofNat 32 bytes.length, buf := cells 0 bytes }

/-- A 32-bit field, low byte first. -/
def field32 (v : Nat) : List Byte :=
  [BitVec.ofNat 8 v, BitVec.ofNat 8 (v / 256), BitVec.ofNat 8 (v / 65536), BitVec.ofNat 8 (v / 16777216)]

def zeros (n : Nat) : List Byte := List.replicate n 0#8

/-- RAWHDR(W,H) of 95_test_vectors.md, with the pixel region's size and the two resolutions. -/
def rawHdr (w h size xres yres : Nat) : List Byte :=
  [0x42#8, 0x4D#8] ++ field32 (54 + size) ++ zeros 4 ++ field32 54 ++ field32 40 ++ field32 w ++ field32 h
    ++ [1#8, 0#8, 24#8, 0#8] ++ zeros 4 ++ field32 size ++ field32 xres ++ field32 yres ++ zeros 8

/-- NEUHDR(W,H) of 95_test_vectors.md, with the two resolution fields. -/
def neuHdr (w h xres diff : Nat) : List Byte :=
  zeros 18 ++ field32 w ++ field32 h ++ zeros 12 ++ field32 xres ++ field32 diff ++ zeros 8

/-- The state after a step that goes on; State.reset where it does not. -/
def stateOf (o : Host.Outcome State Fault Refusal) : State :=
  match o with
  | .next t => t
  | .fault _ => State.reset
  | .refused _ => State.reset

def isNext (o : Host.Outcome State Fault Refusal) : Bool :=
  match o with
  | .next _ => true
  | .fault _ => false
  | .refused _ => false

theorem next_stateOf {o : Host.Outcome State Fault Refusal} (h : isNext o = true) : o = .next (stateOf o) := by
  cases o <;> first | rfl | cases h

/-- The state after the host has written a command byte. -/
def after (c : Nat) (s : State) : State := stateOf (step (s.withFetchWord 8 c))

/-- STATUS and some bytes of a memory. -/
def shows (s : State) (m : MemId) (a n : Nat) : Nat × List Byte :=
  (s.status.toNat, (List.range n).map (fun k => s.byte m (a + k)))

/-! ### Ill-formed command bytes -/

theorem test_wf_reserved_bit :
    CommandFields.wellFormed { reserved := 1#1, chk := 0#1, wsel := 0#2, op := 1#4 } = false := by decide
theorem test_wf_undefined_op :
    CommandFields.wellFormed { reserved := 0#1, chk := 0#1, wsel := 0#2, op := 0xB#4 } = false := by decide
theorem test_wf_wsel :
    CommandFields.wellFormed { reserved := 0#1, chk := 0#1, wsel := 1#2, op := 1#4 } = false := by decide
theorem test_wf_chk :
    CommandFields.wellFormed { reserved := 0#1, chk := 1#1, wsel := 0#2, op := 8#4 } = false := by decide

/-! ### Command bytes written out bit by bit: reserved, CHK, WSEL, OP (30_encoding.md R50 to R53) -/

theorem test_decode_hdrn : decode 0b00000001#8 = .ok .hdrn := rfl
theorem test_decode_hdrr : decode 0b00000010#8 = .ok .hdrr := rfl
theorem test_decode_rcdf : decode 0b00000011#8 = .ok .rcdf := rfl
theorem test_decode_rcdi : decode 0b00000100#8 = .ok .rcdi := rfl
theorem test_decode_bmtf : decode 0b00000101#8 = .ok .bmtf := rfl
theorem test_decode_bmti : decode 0b00000110#8 = .ok .bmti := rfl
theorem test_decode_zenc_h_c : decode 0b01010111#8 = .ok (.zenc true .u16) := rfl
theorem test_decode_zenc_d : decode 0b00110111#8 = .ok (.zenc false .u64) := rfl
theorem test_decode_zdec_w : decode 0b00101000#8 = .ok (.zdec .u32) := rfl
theorem test_decode_enc : decode 0b00001001#8 = .ok .enc := rfl
theorem test_decode_dec : decode 0b00001010#8 = .ok .dec := rfl
theorem test_decode_zdec_chk : decode 0b01001000#8 = .error .chkNotAllowed := rfl

/-! ### One command each -/

/-- The header printed in full in 40_header.md R72's example is RAWHDR(1,1). -/
theorem test_rawHdr : rawHdr 1 1 4 0 0 =
    [0x42#8, 0x4D#8, 0x3A#8, 0#8, 0#8, 0#8, 0#8, 0#8, 0#8, 0#8, 0x36#8, 0#8, 0#8, 0#8, 0x28#8, 0#8, 0#8, 0#8,
      1#8, 0#8, 0#8, 0#8, 1#8, 0#8, 0#8, 0#8, 1#8, 0#8, 0x18#8, 0#8, 0#8, 0#8, 0#8, 0#8, 4#8, 0#8, 0#8, 0#8]
      ++ zeros 16 := by decide

/-- V2: xres 2835, yres 2834 store FF FF FF FF. -/
theorem test_hdrn : shows (after 0x01 (image (rawHdr 1 1 4 2835 2834 ++ zeros 4))) .buf 0 54
    = (0, neuHdr 1 1 2835 0xFFFFFFFF) := by decide +kernel
/-- V3: LEN 57, one less than declared, is UNSUPPORTED_FORMAT. -/
theorem test_hdrn_rejects : shows (after 0x01 (image (rawHdr 1 1 4 0 0 ++ zeros 3))) .buf 0 54
    = (2, rawHdr 1 1 4 0 0) := by decide +kernel

/-- V2: xres FFFFFFFF with the stored difference 80000001 restores yres 80000000. -/
theorem test_hdrr : shows (after 0x02 (image (neuHdr 1 1 0xFFFFFFFF 0x80000001 ++ zeros 4))) .buf 0 54
    = (0, rawHdr 1 1 4 0xFFFFFFFF 0x80000000) := by decide +kernel
/-- V4: a raw header is not a neutralised one. -/
theorem test_hdrr_rejects : shows (after 0x02 (image (rawHdr 1 1 4 0 0 ++ zeros 4))) .buf 0 2
    = (2, [0x42#8, 0x4D#8]) := by decide +kernel

/-- The image of V6: 3×2, padding zero. -/
def pixels6 : List Byte :=
  [0x0A#8, 0x14#8, 0x1E#8, 0x0C#8, 0x19#8, 0x1C#8, 0xFF#8, 0x00#8, 0x80#8, 0#8, 0#8, 0#8,
    0x09#8, 0x16#8, 0x21#8, 0x09#8, 0x16#8, 0x21#8, 0x00#8, 0xFF#8, 0x01#8, 0#8, 0#8, 0#8]
def image6 : State := image (rawHdr 3 2 24 2835 2834 ++ pixels6)
/-- TMP of V6. -/
def planes6 : List Byte :=
  [0x13#8, 0x05#8, 0x05#8, 0x00#8, 0x18#8, 0x1C#8, 0x28#8, 0x04#8, 0x0A#8, 0x00#8, 0x31#8, 0x2D#8,
    0x14#8, 0x02#8, 0x0D#8, 0x00#8, 0xFA#8, 0x11#8]
/-- The pixel region of V10. -/
def slabs6 : List Byte :=
  [0x07#8, 0x4C#8, 0x01#8, 0x21#8, 0xA6#8, 0x58#8, 0x70#8, 0x49#8, 0x31#8, 0x14#8, 0x40#8, 0x0C#8,
    0#8, 0#8, 0#8, 0#8, 0xFA#8, 0x11#8, 0#8, 0#8, 0#8, 0#8, 0#8, 0#8]
/-- The image of V7: 1×3, every pixel in column 0. -/
def pixels7 : List Byte :=
  [0x05#8, 0x05#8, 0x05#8, 0#8, 0x07#8, 0x04#8, 0xC8#8, 0#8, 0x00#8, 0xFF#8, 0x64#8, 0#8]
def planes7 : List Byte := [0x00#8, 0x06#8, 0x03#8, 0x0A#8, 0x01#8, 0x09#8, 0x00#8, 0x77#8, 0xBD#8]

theorem test_rcdf : shows (after 0x03 image6) .tmp 0 18 = (0, planes6) := by decide +kernel
theorem test_rcdf_column :
    shows (after 0x03 (image (rawHdr 1 3 12 0 0 ++ pixels7))) .tmp 0 9 = (0, planes7) := by decide +kernel

/-- V8: the inverse of V6, over a pixel region of other bytes. -/
theorem test_rcdi : shows (after 0x04 { image (rawHdr 3 2 24 0 0 ++ List.replicate 24 0xAB#8) with
    tmp := cells 0 planes6 }) .buf 54 24 = (0, pixels6) := by decide +kernel
/-- V8: the inverse of V7, where every addition of row 2 wraps. -/
theorem test_rcdi_column : shows (after 0x04 { image (neuHdr 1 3 0 0 ++ List.replicate 12 0xAB#8) with
    tmp := cells 0 planes7 }) .buf 54 12 = (0, pixels7) := by decide +kernel

/-- V10, with the tail overwritten. -/
theorem test_bmtf : shows (after 0x05 { image (rawHdr 3 2 24 0 0 ++ List.replicate 24 0xAB#8) with
    tmp := cells 0 planes6 }) .buf 54 24 = (0, slabs6) := by decide +kernel
/-- S1: three residual bytes are all remainder. -/
theorem test_bmtf_remainder : shows (after 0x05 { image (neuHdr 1 1 0 0 ++ List.replicate 4 0xAB#8) with
    tmp := cells 0 [0#8, 1#8, 0#8] }) .buf 54 4 = (0, [0#8, 1#8, 0#8, 0#8]) := by decide +kernel

/-- V10. -/
theorem test_bmti : shows (after 0x06 (image (neuHdr 3 2 0 0 ++ slabs6))) .tmp 0 18 = (0, planes6) := by
  decide +kernel
/-- The example of 42_bit_transpose.md R96. -/
theorem test_bmti_group : shows (after 0x06 (image (neuHdr 4 1 0 0 ++ [0#8, 0xE0#8] ++ zeros 10))) .tmp 0 12
    = (0, zeros 5 ++ [2#8, 2#8, 2#8] ++ zeros 4) := by decide +kernel

/-- The word stream of V14: 19 words of 16 bits, five of them nonzero. -/
def stream14 : State :=
  { State.reset with
    buf := cells 0 ([0x00#8, 0x00#8, 0x34#8, 0x12#8, 0x00#8, 0x00#8, 0x00#8, 0x80#8] ++ zeros 8
      ++ [0x01#8] ++ zeros 15 ++ [0xFF#8, 0xFF#8, 0x00#8, 0x00#8, 0x00#8, 0x01#8])
    zn := 19#32, zcap := 5#32 }

/-- V14 and V15: ZENC.H.C with exactly as many words as ZCAP allows. -/
theorem test_zenc : let t := after 0x57 stream14
    shows t .dns 0 10 = (0, [0x34#8, 0x12#8, 0x00#8, 0x80#8, 0x01#8, 0x00#8, 0xFF#8, 0xFF#8, 0x00#8, 0x01#8])
      ∧ shows t .bmap 0 4 = (0, [0x0A#8, 0x01#8, 0x05#8, 0x00#8]) ∧ t.zlen = 5#32 := by decide +kernel
/-- V15: with ZCAP 4 it ends with CAPACITY_EXCEEDED; DNS[8] and BMAP[4] are kept. -/
theorem test_zenc_overflow : let t := after 0x57 { stream14 with
      zcap := 4#32, dns := cells 8 [0x77#8], bmap := cells 4 [0x66#8] }
    shows t .dns 8 1 = (3, [0x77#8]) ∧ shows t .bmap 4 1 = (3, [0x66#8]) := by decide +kernel

/-- V16: the unused bits of the bitmap and the second dense word are not read. -/
theorem test_zdec : shows (after 0x08 { State.reset with
    zn := 3#32, zbase := 4093#32, bmap := cells 0 [0xFA#8], dns := cells 0 [0x09#8, 0x08#8] }) .buf 4093 3
    = (0, [0x00#8, 0x09#8, 0x00#8]) := by decide +kernel
/-- V14: ZDEC.D. -/
theorem test_zdec_d : shows (after 0x38 { State.reset with
    zn := 3#32, bmap := cells 0 (0x06#8 :: zeros 7), dns := cells 0 (zeros 7 ++ [0x80#8, 0x01#8] ++ zeros 7) })
      .buf 0 24 = (0, zeros 15 ++ [0x80#8, 0x01#8] ++ zeros 7) := by decide +kernel

/-- V11: 4×2, no padding and no remainder, xres 100 and yres 300. -/
def pixels11 : List Byte :=
  [0x10#8, 0x20#8, 0x30#8, 0x11#8, 0x21#8, 0x32#8, 0x11#8, 0x21#8, 0x32#8, 0x14#8, 0x1E#8, 0x28#8,
    0x0F#8, 0x1F#8, 0x2F#8, 0x0F#8, 0x1F#8, 0x2F#8, 0x00#8, 0x00#8, 0x00#8, 0xFF#8, 0xFF#8, 0xFF#8]
def slabs11 : List Byte :=
  [0x01#8, 0xE2#8, 0x60#8, 0x01#8, 0x04#8, 0x24#8, 0x41#8, 0x60#8, 0x60#8, 0x41#8, 0x20#8, 0x60#8,
    0x01#8, 0x20#8, 0x20#8, 0x20#8, 0x20#8, 0x01#8, 0x00#8, 0x01#8, 0x00#8, 0x00#8, 0x00#8, 0x00#8]

theorem test_enc : shows (after 0x09 (image (rawHdr 4 2 24 100 300 ++ pixels11))) .buf 0 78
    = (0, neuHdr 4 2 100 200 ++ slabs11) := by decide +kernel
/-- V18: LEN 4097 is PARAM_ERROR. -/
theorem test_enc_param_error :
    (after 0x09 { image (rawHdr 1 1 4 0 0) with len := 4097#32 }).status = 4#8 := by decide +kernel

theorem test_dec : shows (after 0x0A (image (neuHdr 4 2 100 200 ++ slabs11))) .buf 0 78
    = (0, rawHdr 4 2 24 100 300 ++ pixels11) := by decide +kernel
/-- V12 (and V10): the padding is zero after DEC. -/
theorem test_dec_padding : shows (after 0x0A (image (neuHdr 3 2 2835 0xFFFFFFFF ++ slabs6))) .buf 0 78
    = (0, rawHdr 3 2 24 2835 2834 ++ pixels6) := by decide +kernel

/-- V9. -/
theorem test_transpose8 : transpose8 0x0123456789ABCDEF#64 = 0x0F3355000F3355FF#64 := by decide
/-- S5 as corrected (90_conflicts.md C1). -/
theorem test_transpose8_fixed : transpose8 0x0102040810204080#64 = 0x0102040810204080#64 := by decide
/-- V5: 268, -265 and 200. -/
theorem test_tcms : tcms 268#32 = 24#8 ∧ tcms (BitVec.ofInt 32 (-265)) = 17#8 ∧ tcms 200#32 = 111#8 := by decide
/-- V1. -/
theorem test_get32 : get32 ((State.byte (image [0x78#8, 0x56#8, 0x34#8, 0x12#8, 0#8, 0#8, 0#8, 0x80#8])) .buf) 4
    = -2147483648 := by decide +kernel

/-! ### Witnesses -/

/-- The host is about to make one access. -/
def hostDoes (a : HostAccess) : State := { State.reset with pending := [a] }

/-- The 1×1 white pixel of S2, and its neutralised form. -/
def white : State := image (rawHdr 1 1 4 0 0 ++ [0xFF#8, 0xFF#8, 0xFF#8, 0#8])
def whiteEncoded : State := image (neuHdr 1 1 0 0 ++ [0#8, 1#8, 0#8, 0#8])

theorem witness_MemWriteStoresLittleEndian :
    (0 < 4 ∧ 3 < 4) ∧ ((9 < 10 ∨ 10 + 4 ≤ 9) ∧ (14 < 10 ∨ 10 + 4 ≤ 14)) := by decide
theorem witness_HostResetClearsRegisters : (hostDoes .reset).pending = .reset :: [] := rfl
theorem witness_HostReadsRegisters :
    ∀ n ∈ [0, 1, 2, 3, 4, 5, 6, 7, 8], (hostDoes (.readReg n)).pending = .readReg n :: [] := by decide
theorem witness_HostWritesRegisters :
    ∀ n ∈ [0, 1, 2, 3, 4, 5, 6, 7], (hostDoes (.writeReg n 0xFFFFFFFF#32)).pending
      = .writeReg n 0xFFFFFFFF#32 :: [] := by decide
theorem witness_HostWritesOneByte :
    ∀ p ∈ [(MemId.buf, 4095), (.tmp, 4047), (.dns, 4095), (.bmap, 519)],
      (hostDoes (.writeMem p.1 p.2 1#8)).pending = .writeMem p.1 p.2 1#8 :: []
      ∧ p.2 < State.reset.params.cap p.1 := by decide
theorem witness_HostWritesOneByte_above :
    ∀ p ∈ [(MemId.buf, 4096), (.tmp, 4048), (.dns, 4096), (.bmap, 520)],
      (hostDoes (.writeMem p.1 p.2 1#8)).pending = .writeMem p.1 p.2 1#8 :: []
      ∧ State.reset.params.cap p.1 ≤ p.2 := by decide
theorem witness_HostReadsOneByte :
    ∀ p ∈ [(MemId.buf, 4095), (.tmp, 4047), (.dns, 4095), (.bmap, 519)],
      (hostDoes (.readMem p.1 p.2)).pending = .readMem p.1 p.2 :: []
      ∧ p.2 < State.reset.params.cap p.1 := by decide
theorem witness_HostReadsOneByte_above :
    ∀ p ∈ [(MemId.buf, 4096), (.tmp, 4048), (.dns, 4096), (.bmap, 520)],
      (hostDoes (.readMem p.1 p.2)).pending = .readMem p.1 p.2 :: []
      ∧ State.reset.params.cap p.1 ≤ p.2 := by decide
theorem witness_IdleEngineChangesNothing : State.reset.pending = [] := rfl
theorem witness_StepRunsTheDecodedCommand :
    ((hostDoes (.writeCmd 0x77#8)).pending = .writeCmd 0x77#8 :: [] ∧ decode 0x77#8 = .ok (.zenc true .u64))
    ∧ (0x01 < 256 ∧ decodeTableWord 8 0x01 = some .hdrn) ∧ (0x77 < 256 ∧ decodeTableWord 8 0x77 = some (.zenc true .u64)) := by
  decide
/-- One byte for each of the four conditions and both ends of the two ranges of OP. -/
theorem witness_IllegalBytesOnlySetStatus :
    (hostDoes (.writeCmd 0x80#8)).pending = .writeCmd 0x80#8 :: []
    ∧ (0x80#8).getLsbD 7 = true ∧ (0x00#8).toNat % 16 = 0 ∧ 0xB ≤ (0x0B#8).toNat % 16 ∧ 0xB ≤ (0x0F#8).toNat % 16
    ∧ ((0x11#8).toNat / 16 % 4 ≠ 0 ∧ (0x11#8).toNat % 16 ≠ 7 ∧ (0x11#8).toNat % 16 ≠ 8)
    ∧ ((0x48#8).getLsbD 6 = true ∧ (0x48#8).toNat % 16 ≠ 7) := by decide
theorem witness_DecodeAndEncodeAgree : decode 0x0A#8 = .ok .dec := rfl
theorem witness_HeaderChecksComeInOrder :
    acceptOf .hdrn = some acceptFwd
    ∧ (let s := { white with len := 4097#32 }; s.params.bufCap < s.len.toNat)
    ∧ (let s := { white with len := 53#32 }; s.len.toNat ≤ s.params.bufCap ∧ s.len.toNat < 54)
    ∧ (let s := { white with len := 54#32 }; s.len.toNat ≤ s.params.bufCap ∧ 54 ≤ s.len.toNat ∧ acceptFwd s = false)
    ∧ (let s := { white with len := 4096#32 }; s.len.toNat ≤ s.params.bufCap ∧ 54 ≤ s.len.toNat ∧ acceptFwd s = false) :=
  ⟨rfl, by decide +kernel⟩
/-- V18: the last stream that does not fit, with and without words. -/
theorem witness_ZeRangeErrorOnlySetsStatus :
    (let s := { State.reset with zbase := 4097#32 }; s.params.bufCap < s.zbase.toNat + s.zn.toNat * wordBytes .u8)
    ∧ (let s := { State.reset with zbase := 4089#32, zn := 1#32 };
        s.params.bufCap < s.zbase.toNat + s.zn.toNat * wordBytes .u64) := by decide

/-- For the statements about `exec i s = .next t`: each command runs to OK in a state, and here is that state. -/
def okState : Instr → State
  | .hdrn => white
  | .hdrr => whiteEncoded
  | .rcdf => white
  | .rcdi => { white with tmp := cells 0 [0#8, 1#8, 0#8] }
  | .bmtf => { white with tmp := cells 0 [0#8, 1#8, 0#8] }
  | .bmti => whiteEncoded
  | .zenc _ _ => { stream14 with zn := 3#32 }
  | .zdec _ => { State.reset with zn := 1#32, bmap := cells 0 (1#8 :: zeros 7), dns := cells 0 (zeros 8) }
  | .enc => white
  | .dec => whiteEncoded
/-- Witness of CommandsEndWithTheirCodes, CommandsKeepOperandRegisters and CommandsStayInsideTheirMemories. -/
theorem witness_exec_next :
    ∀ i ∈ [Instr.hdrn, .hdrr, .rcdf, .rcdi, .bmtf, .bmti, .zenc true .u8, .zenc false .u64, .zdec .u16, .enc, .dec],
      exec i (okState i) = .next (stateOf (exec i (okState i))) ∧ (stateOf (exec i (okState i))).status = 0#8 := by
  have h : ∀ i ∈ [Instr.hdrn, .hdrr, .rcdf, .rcdi, .bmtf, .bmti, .zenc true .u8, .zenc false .u64, .zdec .u16, .enc, .dec],
      isNext (exec i (okState i)) = true ∧ (stateOf (exec i (okState i))).status = 0#8 := by decide +kernel
  exact fun i hi => ⟨next_stateOf (h i hi).1, (h i hi).2⟩
theorem witness_CommandsKeepOperandRegisters : ∀ chk ty, Instr.enc ≠ .zenc chk ty := by intro _ _ h; cases h

theorem witness_BytesBeyondLenDoNotMatter :
    acceptOf .enc = some acceptFwd ∧ white.len.toNat = 58
    ∧ (∀ a, a < white.len.toNat →
        ({ white with buf := Memory.write white.buf 58 0xAB#8 } : State).byte .buf a = white.byte .buf a) :=
  ⟨rfl, by decide +kernel⟩
theorem witness_OnlyBufCapMatters :
    ({ bufCap := 4096, tmpCap := 5000, dnsCap := 9000, bmapCap := 600, lanes := 8 } : Config.Params).bufCap
      = State.reset.params.bufCap := rfl
/-- Witness of ValidatorAcceptsTheBmpSubset, HdrnNeutralisesTheHeader, EncTransformsTheImage and
EncEqualsItsThreeStages; with padding of zeros, of DecUndoesEnc. -/
theorem witness_accepted :
    white.len.toNat ≤ white.params.bufCap ∧ acceptFwd white = true ∧ acceptFwd image6 = true
    ∧ image6.len.toNat ≤ image6.params.bufCap := by decide +kernel
theorem witness_DecUndoesEnc : PaddingZero image6.geom image6 := by unfold PaddingZero; decide +kernel
/-- Witness of HdrrRestoresTheHeader, DecRestoresTheImage and DecEqualsItsThreeStages. -/
theorem witness_acceptedInverse :
    whiteEncoded.len.toNat ≤ whiteEncoded.params.bufCap ∧ acceptInv whiteEncoded = true := by decide +kernel
theorem witness_EncUndoesDec : TailZero whiteEncoded.geom whiteEncoded := by unfold TailZero; decide +kernel
/-- Witness of the statements about RCDF, RCDI, BMTF and BMTI: 3×2, with padding, groups and a remainder. -/
theorem witness_geomOK :
    image6.len.toNat ≤ image6.params.bufCap ∧ geomOK image6 = true
    ∧ image6.geom.groups = 2 ∧ image6.geom.extra = 2 := by decide +kernel
theorem witness_RcdfRowsInAnyOrder :
    Memory.wf [] = true ∧ [1, 0].Perm (List.range ({ w := 3, h := 2 } : Geom).h) := by decide
theorem witness_BmtfGroupsInAnyOrder :
    Memory.wf [] = true ∧ [1, 0].Perm (List.range ({ w := 3, h := 2 } : Geom).groups) := by decide
/-- The largest and the smallest delta. -/
theorem witness_EqualDeltasLeaveOneResidual :
    (((255#8).toNat : Int) = (0#8).toNat + 255) ∧ (((0#8).toNat : Int) = (255#8).toNat + (-255)) := by decide
theorem witness_ButterflyTransposesTheBitMatrix : 7 < 8 ∧ 0 < 8 := by decide
/-- S6: residuals below 4 leave slabs 2 to 7 zero. -/
theorem witness_SmallResidualsLeaveHighSlabsZero :
    let s : State := { image (neuHdr 4 1 0 0 ++ zeros 12) with tmp := cells 0 (zeros 5 ++ [2#8, 2#8, 2#8] ++ zeros 4) }
    s.len.toNat ≤ s.params.bufCap ∧ geomOK s = true ∧ (∀ a, a < s.geom.n3 → (s.byte .tmp a).toNat < 2 ^ 2)
      ∧ 54 + 2 * s.geom.groups ≤ 56 ∧ 61 < 54 + 8 * s.geom.groups := by decide +kernel

/-- V15: five nonzero words and a ZCAP of five. -/
theorem witness_ZencEncodesTheWordStream :
    stream14.zbase.toNat + stream14.zn.toNat * wordBytes .u16 ≤ stream14.params.bufCap
    ∧ nonzeroBelow stream14 .u16 stream14.zn.toNat = 5 ∧ stream14.zcap.toNat = 5 := by decide +kernel
theorem witness_CheckedZencFailsBeyondZcap :
    let s := { stream14 with zcap := 4#32 }
    s.zbase.toNat + s.zn.toNat * wordBytes .u16 ≤ s.params.bufCap
    ∧ s.zcap.toNat < nonzeroBelow s .u16 s.zn.toNat := by decide +kernel
/-- Witness of ZlenIsThePopcountOfTheBitmap and ZdecUndoesZenc. -/
theorem witness_ZdecUndoesZenc :
    exec (.zenc true .u16) stream14 = .next (stateOf (exec (.zenc true .u16) stream14))
    ∧ (stateOf (exec (.zenc true .u16) stream14)).status = 0#8 :=
  ⟨next_stateOf (by decide +kernel), by decide +kernel⟩
/-- A stream that ends at the last byte of BUF, and the empty stream at the capacity. -/
theorem witness_ZdecDecodesTheWordStream :
    (let s := { State.reset with zbase := 4088#32, zn := 4#32 };
      s.zbase.toNat + s.zn.toNat * wordBytes .u16 ≤ s.params.bufCap ∧ 3 < s.zn.toNat)
    ∧ (let s := { State.reset with zbase := 4096#32 };
      s.zbase.toNat + s.zn.toNat * wordBytes .u8 ≤ s.params.bufCap) := by decide

/-- V12: the image of V6 with every padding byte AB. -/
def padded6 : Memory :=
  Memory.write (Memory.write (Memory.write (Memory.write (Memory.write (Memory.write image6.buf
    63 0xAB#8) 64 0xAB#8) 65 0xAB#8) 75 0xAB#8) 76 0xAB#8) 77 0xAB#8
theorem witness_EncIgnoresThePadding :
    (∀ a, a < 54 → ({ image6 with buf := padded6 } : State).byte .buf a = image6.byte .buf a)
    ∧ (∀ y, y < image6.geom.h → ∀ x, x < image6.geom.w → ∀ c, c < 3 →
        pixelByte image6.geom { image6 with buf := padded6 } y x c = pixelByte image6.geom image6 y x c) := by
  decide +kernel

/-- ENC and ZENC.B over the pixel region, whose first byte the host then overwrites. -/
def encoded6 : State := stateOf (exec .enc image6)
def compacted6 : State := stateOf (exec (.zenc false .u8) { encoded6 with zbase := 54#32, zn := 24#32, zcap := 0#32 })
theorem overwrite_first (s : State) {a : Nat} (h : a ≠ 54) :
    ({ s with buf := Memory.write s.buf 54 0x5A#8 } : State).byte .buf a = s.byte .buf a :=
  Memory.read_write_ne (s.unwritten .buf) s.buf 0x5A#8 h
theorem witness_WholeFlowRestoresTheImage :
    exec .enc image6 = .next encoded6
    ∧ exec (.zenc false .u8) { encoded6 with zbase := 54#32, zn := 24#32, zcap := 0#32 } = .next compacted6
    ∧ compacted6.status = 0#8
    ∧ (∀ a, a < 54 ∨ 54 + 24 * wordBytes .u8 ≤ a →
      ({ compacted6 with buf := Memory.write compacted6.buf 54 0x5A#8 } : State).byte .buf a
        = compacted6.byte .buf a) :=
  ⟨next_stateOf (by decide +kernel), next_stateOf (by decide +kernel), by decide +kernel,
    fun a ha => overwrite_first compacted6 (by simp only [wordBytes] at ha; omega)⟩

/-- Witness of StepKeepsGoodStates and StepKeepsTheParameters. -/
theorem witness_StepKeepsGoodStates :
    (image6.withFetchWord 8 0x09).good = true
    ∧ step (image6.withFetchWord 8 0x09) = .next (stateOf (step (image6.withFetchWord 8 0x09))) :=
  ⟨by decide +kernel, next_stateOf (by decide +kernel)⟩

end Sys2Proof.Tests
end

section
/-!
PROOF. The parameters of 00_scope.md R7: no command's result depends on any but BUF_CAP, and no step changes
one (20_memory.md R44, 60_exceptions.md R132).
-/

namespace Sys2Proof.Machine

/-! ### Parameters that a command does not see -/

/-- A command ends in a next state, and with the parameters `p` in its place in the same one but for them. -/
def EndsAlike (f : State → Host.Outcome State Fault Refusal) (s : State) (p : Config.Params) : Prop :=
  ∃ t, f s = .next t ∧ f { s with params := p } = .next { t with params := p }

theorem acceptFwd_params_free (s : State) (p : Config.Params) :
    acceptFwd { s with params := p } = acceptFwd s :=
  acceptFwd_congr rfl fun _ _ => rfl

theorem acceptInv_params_free (s : State) (p : Config.Params) :
    acceptInv { s with params := p } = acceptInv s :=
  acceptInv_congr rfl fun _ _ => rfl

theorem geomOK_params_free (s : State) (p : Config.Params) :
    geomOK { s with params := p } = geomOK s :=
  geomOK_congr (fun _ _ _ => rfl) rfl

theorem zeRangeOK_params_congr (ty : WordType) {s : State} {p : Config.Params}
    (hp : p.bufCap = s.params.bufCap) : zeRangeOK ty { s with params := p } = zeRangeOK ty s := by
  simp only [zeRangeOK, hp]

/-- The checks of R123 read LEN, BUF_CAP and the header only, so an acceptance and a transform that do not
read the parameters make a command that sees BUF_CAP alone. -/
theorem guarded_endsAlike {accept : State → Bool} {tr : State → State} {s : State} {p : Config.Params}
    (ha : accept { s with params := p } = accept s)
    (htr : tr { s with params := p } = { tr s with params := p })
    (hp : p.bufCap = s.params.bufCap) : EndsAlike (guarded accept tr) s p := by
  simp only [EndsAlike, guarded, ha, htr, hp]
  split_ifs
  · exact ⟨_, rfl, rfl⟩
  · exact ⟨_, rfl, rfl⟩
  · exact ⟨_, rfl, rfl⟩
  · exact ⟨_, rfl, rfl⟩

theorem execZenc_endsAlike (chk : Bool) (ty : WordType) {s : State} {p : Config.Params}
    (hp : p.bufCap = s.params.bufCap) : EndsAlike (execZenc chk ty) s p := by
  have hw : State.zeWord { s with params := p } = s.zeWord := rfl
  have hc : State.capOf { s with params := p } = s.capOf := rfl
  simp only [EndsAlike, execZenc, zeRangeOK_params_congr ty hp, hw, hc]
  split_ifs
  · exact ⟨_, rfl, rfl⟩
  · cases zeEncode ty (s.zeWord ty) s.zn.toNat (s.capOf chk) s.dns s.bmap with
    | none => exact ⟨_, rfl, rfl⟩
    | some r => exact ⟨_, rfl, rfl⟩

theorem execZdec_endsAlike (ty : WordType) {s : State} {p : Config.Params}
    (hp : p.bufCap = s.params.bufCap) : EndsAlike (execZdec ty) s p := by
  simp only [EndsAlike, execZdec, zeRangeOK_params_congr ty hp, stageZeDecode_params_free]
  split_ifs
  · exact ⟨_, rfl, rfl⟩
  · exact ⟨_, rfl, rfl⟩

/-- Every command sees BUF_CAP alone among the parameters. -/
theorem exec_endsAlike (i : Instr) {s : State} {p : Config.Params} (hp : p.bufCap = s.params.bufCap) :
    EndsAlike (exec i) s p := by
  cases i with
  | hdrn => exact guarded_endsAlike (acceptFwd_params_free s p) (stageNeutralise_params_free s p) hp
  | hdrr => exact guarded_endsAlike (acceptInv_params_free s p) (stageRestore_params_free s p) hp
  | rcdf => exact guarded_endsAlike (geomOK_params_free s p) (stageRowDiff_params_free s p) hp
  | rcdi => exact guarded_endsAlike (geomOK_params_free s p) (stageRowDiffInv_params_free s p) hp
  | bmtf => exact guarded_endsAlike (geomOK_params_free s p) (stageBitTranspose_params_free s p) hp
  | bmti => exact guarded_endsAlike (geomOK_params_free s p) (stageBitTransposeInv_params_free s p) hp
  | zenc chk ty => exact execZenc_endsAlike chk ty hp
  | zdec ty => exact execZdec_endsAlike ty hp
  | enc => exact guarded_endsAlike (acceptFwd_params_free s p) (stagesEncode_params_free s p) hp
  | dec => exact guarded_endsAlike (acceptInv_params_free s p) (stagesDecode_params_free s p) hp

/-- Settles O23: each command's checks and transform see BUF_CAP alone. -/
theorem onlyBufCapMatters : Obligations.OnlyBufCapMatters :=
  fun i _ _ hp => exec_endsAlike i hp

/-! ### Parameters that a step keeps -/

/-- No command writes the parameters. It ends alike with the parameters replaced by themselves, which is the
same run, so the state it leaves is the one that has them put back. -/
theorem exec_params {i : Instr} {s t : State} (h : exec i s = .next t) : t.params = s.params := by
  obtain ⟨t', h1, h2⟩ := exec_endsAlike i (s := s) (p := s.params) rfl
  have e : t = { t' with params := s.params } := Host.Outcome.next.inj (h.symm.trans h2)
  rw [e]

theorem writeReg_params {n : Nat} {v : Word} {s t : State} (h : writeReg n v s = .next t) :
    t.params = s.params := by
  rcases writeReg_next h with rfl | rfl | rfl | rfl | rfl <;> rfl

/-- Settles O60, by the cases of a step. -/
theorem stepKeepsTheParameters : Obligations.StepKeepsTheParameters := by
  intro s t h
  rcases step_cases h with ⟨-, rfl⟩ | ⟨a, rest, -, hcmd | hill | hreg | hread | hwm | hrm | hreset⟩
  · rfl
  · obtain ⟨c, i, -, -, he⟩ := hcmd
    simpa using exec_params he
  · obtain ⟨c, why, -, -, rfl⟩ := hill
    rfl
  · obtain ⟨n, v, -, hw⟩ := hreg
    simpa using writeReg_params hw
  · obtain ⟨n, -, rfl⟩ := hread
    rfl
  · obtain ⟨m, x, b, -, -, rfl⟩ := hwm
    exact State.setMem_params ..
  · obtain ⟨m, x, -, -, rfl⟩ := hrm
    rfl
  · obtain ⟨-, rfl⟩ := hreset
    rfl

end Sys2Proof.Machine
end

section
/-!
PROOF. The transforms of the eight header, stage and pipeline commands, as one family: what every stage keeps,
and that what it keeps is kept by stages run one after another (10_state.md R10 to R22, 44_pipeline.md R110
and R111).
-/

namespace Sys2Proof.Machine

/-! ### States that differ in BUF at and above LEN only -/

/-- Two states that agree but for the bytes of BUF at and above LEN (10_state.md R13). -/
structure AgreeBelowLen (s t : State) : Prop where
  fields : t = { s with buf := t.buf }
  bytes : ∀ a, a < s.len.toNat → t.byte .buf a = s.byte .buf a

namespace AgreeBelowLen

variable {s t s' t' : State}

theorem len_eq (h : AgreeBelowLen s t) : t.len = s.len := by rw [h.fields]
theorem tmp_eq (h : AgreeBelowLen s t) : t.tmp = s.tmp := by rw [h.fields]
theorem params_eq (h : AgreeBelowLen s t) : t.params = s.params := by rw [h.fields]
theorem epoch_eq (h : AgreeBelowLen s t) : t.epoch = s.epoch := by rw [h.fields]

theorem tmp_byte_eq (h : AgreeBelowLen s t) : t.byte .tmp = s.byte .tmp :=
  State.byte_congr h.tmp_eq h.epoch_eq

theorem header_eq (h : AgreeBelowLen s t) (hl : 54 ≤ s.len.toNat) {a : Nat} (ha : a < 54) :
    t.byte .buf a = s.byte .buf a :=
  h.bytes a (by omega)

theorem geom_eq (h : AgreeBelowLen s t) (hl : 54 ≤ s.len.toNat) : t.geom = s.geom :=
  (geom_congr fun _ _ _ => h.header_eq hl (by omega)).2.2

theorem geomOK_eq (h : AgreeBelowLen s t) (hl : 54 ≤ s.len.toNat) : geomOK t = geomOK s :=
  geomOK_congr (fun _ _ _ => h.header_eq hl (by omega)) h.len_eq

theorem setCode (h : AgreeBelowLen s t) (c : Code) : AgreeBelowLen (s.setCode c) (t.setCode c) where
  fields := by rw [h.fields]; rfl
  bytes := by simpa using h.bytes

/-- Two runs of a stage that writes BUF alone. -/
theorem of_buf_writes (h : AgreeBelowLen s t) (hs : s' = { s with buf := s'.buf })
    (ht : t' = { t with buf := t'.buf })
    (hb : ∀ a, a < s.len.toNat → t'.byte .buf a = s'.byte .buf a) : AgreeBelowLen s' t' where
  fields :=
    calc t' = { t with buf := t'.buf } := ht
      _ = { s with buf := t'.buf } := by rw [h.fields]
      _ = { s' with buf := t'.buf } := by rw [hs]
  bytes := by rwa [show s'.len = s.len by rw [hs]]

/-- Two runs of a stage that writes TMP alone, and writes the same. -/
theorem of_tmp_writes (h : AgreeBelowLen s t) (hs : s' = { s with tmp := s'.tmp })
    (ht : t' = { t with tmp := t'.tmp }) (htmp : t'.tmp = s'.tmp) : AgreeBelowLen s' t' where
  fields :=
    calc t' = { t with tmp := t'.tmp } := ht
      _ = { s with buf := t'.buf, tmp := s'.tmp } := by rw [htmp, ht, h.fields]
      _ = { s' with buf := t'.buf } := by rw [hs]
  bytes := by
    have hs' : s'.byte .buf = s.byte .buf :=
      State.byte_congr (by rw [hs]; rfl) (by rw [hs])
    have ht' : t'.byte .buf = t.byte .buf :=
      State.byte_congr (by rw [ht]; rfl) (by rw [ht])
    rw [hs', ht', show s'.len = s.len by rw [hs]]
    exact h.bytes

end AgreeBelowLen

/-! ### Lawful stages -/

/-- What every transform of a header, stage or pipeline command reads and writes; the last four clauses speak
of a state that GeomOK accepts, the only ones on which a command runs it. -/
structure LawfulStage (tr : State → State) : Prop where
  /-- It writes BUF and TMP alone. -/
  keeps : ∀ s, tr s = { s with buf := (tr s).buf, tmp := (tr s).tmp }
  /-- It does not read STATUS. -/
  status_free : ∀ s d, tr { s with status := d } = { tr s with status := d }
  /-- It leaves W, H and LEN such that the next stage can run. -/
  keeps_geomOK : ∀ {s}, geomOK s = true → geomOK (tr s) = true
  /-- It writes inside the capacities. -/
  good : ∀ {s}, geomOK s = true → s.len.toNat ≤ s.params.bufCap → s.memoriesGood → (tr s).memoriesGood
  /-- It writes no byte of BUF at or above LEN. -/
  above_len : ∀ {s}, geomOK s = true → ∀ a, s.len.toNat ≤ a → (tr s).byte .buf a = s.byte .buf a
  /-- It reads no byte of BUF at or above LEN. -/
  agree : ∀ {s t}, geomOK s = true → AgreeBelowLen s t → AgreeBelowLen (tr s) (tr t)

namespace LawfulStage

variable {tr tr' : State → State}

theorem len_eq (h : LawfulStage tr) (s : State) : (tr s).len = s.len := by rw [h.keeps]
theorem params_eq (h : LawfulStage tr) (s : State) : (tr s).params = s.params := by
  rw [h.keeps]

/-- One stage after another. -/
theorem comp (h' : LawfulStage tr') (h : LawfulStage tr) : LawfulStage (fun s => tr' (tr s)) where
  keeps s :=
    calc tr' (tr s) = { tr s with buf := (tr' (tr s)).buf, tmp := (tr' (tr s)).tmp } := h'.keeps (tr s)
      _ = { s with buf := (tr' (tr s)).buf, tmp := (tr' (tr s)).tmp } := by
        generalize tr' (tr s) = t
        rw [h.keeps s]
  status_free s d := by rw [h.status_free, h'.status_free]
  keeps_geomOK hg := h'.keeps_geomOK (h.keeps_geomOK hg)
  good {s} hg hl hm :=
    h'.good (h.keeps_geomOK hg) (by rwa [h.len_eq, h.params_eq]) (h.good hg hl hm)
  above_len {s} hg a ha :=
    (h'.above_len (h.keeps_geomOK hg) a (by rwa [h.len_eq])).trans (h.above_len hg a ha)
  agree hg ha := h'.agree (h.keeps_geomOK hg) (h.agree hg ha)

end LawfulStage

theorem stageNeutralise_lawful : LawfulStage stageNeutralise where
  keeps s := by rw [stageNeutralise_tmp_memory]; exact stageNeutralise_keeps s
  status_free s d := (stageNeutralise_command_free s s.cmd d).trans (by simp)
  keeps_geomOK {s} hg :=
    (geomOK_congr (fun _ _ _ => stageNeutralise_frame s (by omega)) (stageNeutralise_len s)).trans hg
  good _ _ hm := stageNeutralise_good hm
  above_len {s} hg a ha := stageNeutralise_frame s (by have := geomOK_len_ge hg; omega)
  agree {s t} hg h := h.of_buf_writes (stageNeutralise_keeps s) (stageNeutralise_keeps t)
    fun _ ha => stageNeutralise_congr (geomOK_len_ge hg) h.bytes ha

theorem stageRestore_lawful : LawfulStage stageRestore where
  keeps s := by rw [stageRestore_tmp_memory]; exact stageRestore_keeps s
  status_free s d := (stageRestore_command_free s s.cmd d).trans (by simp)
  keeps_geomOK {s} hg :=
    (geomOK_congr (fun _ _ _ => stageRestore_frame s (by omega)) (stageRestore_len s)).trans hg
  good _ _ hm := stageRestore_good hm
  above_len {s} hg a ha := stageRestore_frame s (by have := geomOK_len_ge hg; omega)
  agree {s t} hg h := h.of_buf_writes (stageRestore_keeps s) (stageRestore_keeps t)
    fun _ ha => stageRestore_congr (geomOK_len_ge hg) h.bytes ha

theorem stageRowDiff_lawful : LawfulStage stageRowDiff where
  keeps s := by rw [stageRowDiff_buf_memory]; exact stageRowDiff_keeps s
  status_free s d := (stageRowDiff_command_free s s.cmd d).trans (by simp)
  keeps_geomOK {s} hg := by
    rwa [geomOK_congr (s := s) (fun _ _ _ => by rw [stageRowDiff_buf]) (stageRowDiff_len s)]
  good hg hl hm := stageRowDiff_good hm (geomOK_tmp hg hl)
  above_len {s} _ a _ := by rw [stageRowDiff_buf]
  agree {s t} hg h := h.of_tmp_writes (stageRowDiff_keeps s) (stageRowDiff_keeps t)
    (stageRowDiff_congr (fun a ha => h.bytes a (by rwa [← geomOK_len hg])) h.tmp_eq)

theorem stageRowDiffInv_lawful : LawfulStage stageRowDiffInv where
  keeps s := by rw [stageRowDiffInv_tmp_memory]; exact stageRowDiffInv_keeps s
  status_free s d := (stageRowDiffInv_command_free s s.cmd d).trans (by simp)
  keeps_geomOK {s} hg :=
    (geomOK_congr (fun _ _ _ => stageRowDiffInv_outside s (geomOK_width hg).2 (by omega))
      (stageRowDiffInv_len s)).trans hg
  good hg hl hm := stageRowDiffInv_good hm (by rwa [geomOK_len hg])
  above_len {s} hg a ha := stageRowDiffInv_outside s (geomOK_width hg).2 (by rw [geomOK_len hg]; exact .inr ha)
  agree {s t} hg h := h.of_buf_writes (stageRowDiffInv_keeps s) (stageRowDiffInv_keeps t)
    fun _ ha => stageRowDiffInv_congr (geomOK_width hg).2 (geomOK_len hg).le h.bytes
      (fun _ _ => by rw [h.tmp_byte_eq]) ha

theorem stageBitTranspose_lawful : LawfulStage stageBitTranspose where
  keeps s := by rw [stageBitTranspose_tmp_memory]; exact stageBitTranspose_keeps s
  status_free s d := (stageBitTranspose_command_free s s.cmd d).trans (by simp)
  keeps_geomOK {s} hg :=
    (geomOK_congr (fun _ _ _ => stageBitTranspose_outside s (geomOK_n3 hg) (by omega))
      (stageBitTranspose_len s)).trans hg
  good hg hl hm := stageBitTranspose_good hm ((geomOK_n3 hg).trans hl) hl
  above_len {s} hg a ha := stageBitTranspose_outside s (geomOK_n3 hg) (.inr ha)
  agree {s t} hg h := h.of_buf_writes (stageBitTranspose_keeps s) (stageBitTranspose_keeps t)
    fun _ ha => stageBitTranspose_congr h.len_eq (geomOK_n3 hg) h.bytes (h.geom_eq (geomOK_len_ge hg))
      (fun _ _ => by rw [h.tmp_byte_eq]) ha

theorem stageBitTransposeInv_lawful : LawfulStage stageBitTransposeInv where
  keeps s := by rw [stageBitTransposeInv_buf_memory]; exact stageBitTransposeInv_keeps s
  status_free s d := (stageBitTransposeInv_command_free s s.cmd d).trans (by simp)
  keeps_geomOK {s} hg := by
    rwa [geomOK_congr (s := s) (fun _ _ _ => by rw [stageBitTransposeInv_buf]) (stageBitTransposeInv_len s)]
  good hg hl hm := stageBitTransposeInv_good hm (geomOK_tmp hg hl)
  above_len {s} _ a _ := by rw [stageBitTransposeInv_buf]
  agree {s t} hg h := h.of_tmp_writes (stageBitTransposeInv_keeps s) (stageBitTransposeInv_keeps t)
    (stageBitTransposeInv_congr (fun a ha => h.bytes a (by have := geomOK_n3 hg; omega)) h.tmp_eq
      (h.geom_eq (geomOK_len_ge hg)))

theorem stagesEncode_lawful : LawfulStage stagesEncode :=
  stageBitTranspose_lawful.comp (stageRowDiff_lawful.comp stageNeutralise_lawful)

theorem stagesDecode_lawful : LawfulStage stagesDecode :=
  stageRestore_lawful.comp (stageRowDiffInv_lawful.comp stageBitTransposeInv_lawful)

/-! ### The eight commands -/

/-- A header, stage or pipeline command is a lawful stage behind the checks of 60_exceptions.md R123. -/
theorem exec_eq_guarded {i : Instr} {accept : State → Bool} (h : acceptOf i = some accept) :
    ∃ tr, LawfulStage tr ∧ exec i = guarded accept tr := by
  cases i with
  | hdrn => cases h; exact ⟨_, stageNeutralise_lawful, funext exec_hdrn⟩
  | hdrr => cases h; exact ⟨_, stageRestore_lawful, funext exec_hdrr⟩
  | rcdf => cases h; exact ⟨_, stageRowDiff_lawful, funext exec_rcdf⟩
  | rcdi => cases h; exact ⟨_, stageRowDiffInv_lawful, funext exec_rcdi⟩
  | bmtf => cases h; exact ⟨_, stageBitTranspose_lawful, funext exec_bmtf⟩
  | bmti => cases h; exact ⟨_, stageBitTransposeInv_lawful, funext exec_bmti⟩
  | zenc chk ty => cases h
  | zdec ty => cases h
  | enc => cases h; exact ⟨_, stagesEncode_lawful, funext exec_enc⟩
  | dec => cases h; exact ⟨_, stagesDecode_lawful, funext exec_dec⟩

/-- Every command is one of the eight that check the header, or one of the two ZE commands. -/
theorem instr_guarded_or_codec (i : Instr) :
    (∃ accept, acceptOf i = some accept) ∨ (∃ chk ty, i = .zenc chk ty) ∨ ∃ ty, i = .zdec ty := by
  cases i <;> simp [acceptOf]

/-- What a command requires of the header is one of the three checks of 40_header.md. -/
theorem acceptOf_eq {i : Instr} {accept : State → Bool} (h : acceptOf i = some accept) :
    accept = acceptFwd ∨ accept = acceptInv ∨ accept = geomOK := by
  cases i <;> cases h <;> simp

/-- Each check implies GeomOK (40_header.md R71 and R73). -/
theorem geomOK_of_acceptOf {i : Instr} {accept : State → Bool} (h : acceptOf i = some accept) {s : State}
    (ha : accept s = true) : geomOK s = true := by
  rcases acceptOf_eq h with rfl | rfl | rfl
  · exact acceptFwd_geomOK ha
  · exact acceptInv_geomOK ha
  · exact ha

/-- Each check reads LEN and the 54 header bytes only. -/
theorem acceptOf_congr {i : Instr} {accept : State → Bool} (h : acceptOf i = some accept) {s t : State}
    (hl : t.len = s.len) (hb : ∀ a, a < 54 → t.byte .buf a = s.byte .buf a) : accept t = accept s := by
  rcases acceptOf_eq h with rfl | rfl | rfl
  · exact acceptFwd_congr hl hb
  · exact acceptInv_congr hl hb
  · exact geomOK_congr (fun a _ _ => hb a (by omega)) hl

end Sys2Proof.Machine
end

section
/-!
PROOF. Good states: every step keeps the memories canonical and within their capacities and STATUS legal
(10_state.md R12 and R19 to R22, 20_memory.md R38).
-/

namespace Sys2Proof.Machine

/-! ### What goodness rests on -/

@[simp] theorem State.applyReset_mem (s : State) (m : MemId) : s.applyReset.mem m = [] := by
  cases m <;> rfl

@[simp] theorem State.reset_mem (m : MemId) : State.reset.mem m = [] := by
  cases m <;> rfl

theorem State.memoriesGood_of_good {s : State} (h : s.good = true) : s.memoriesGood := by
  obtain ⟨hw, hb, -⟩ := s.good_iff.1 h
  exact ⟨hw, hb⟩

/-- A state whose memories list nothing is good when STATUS is 0. -/
theorem State.good_of_empty {s : State} (hm : ∀ m, s.mem m = []) (hs : s.status = 0#8) : s.good = true := by
  rw [State.good_iff]
  refine ⟨fun m => ?_, fun m => ?_, ?_⟩
  · rw [hm]; rfl
  · rw [hm]; rfl
  · rw [hs]; decide

/-! ### Every command leaves a good state -/

theorem guarded_good {accept : State → Bool} {tr : State → State} {s t : State} (hm : s.memoriesGood)
    (htr : s.len.toNat ≤ s.params.bufCap → accept s = true → (tr s).memoriesGood)
    (h : guarded accept tr s = .next t) : t.good = true := by
  rcases guarded_next h with ⟨c, -, rfl⟩ | ⟨hc, -, ha, rfl⟩
  · exact State.good_setCode hm c
  · exact State.good_setCode (htr hc ha) .ok

/-- What a word stream inside BUF may fill of the other memories of the codec (20_memory.md R38). -/
theorem zeRange_capacities (s : State) {ty : WordType}
    (hr : s.zbase.toNat + s.zn.toNat * wordBytes ty ≤ s.params.bufCap) :
    s.zn.toNat * wordBytes ty ≤ s.params.dnsCap
    ∧ bitmapWords ty s.zn.toNat * wordBytes ty ≤ s.params.bmapCap := by
  have hn : s.zn.toNat * wordBytes ty ≤ s.params.bufCap := by omega
  exact ⟨hn.trans s.params.dnsCap_ge, (bitmap_fits ty hn).trans s.params.bmapCap_ge⟩

/-- Contents for DNS and BMAP that are good make a good state, whatever ZLEN and the count of free values. -/
theorem memoriesGood_of_codec {s : State} (hm : s.memoriesGood) {dns bmap : Memory} (v : Word) (k : Nat)
    (hdw : Memory.wf dns = true) (hdb : Memory.below s.params.dnsCap dns = true)
    (hbw : Memory.wf bmap = true) (hbb : Memory.below s.params.bmapCap bmap = true) :
    State.memoriesGood { s with dns := dns, bmap := bmap, zlen := v, draws := k } := by
  constructor
  · intro m
    cases m with
    | buf => exact hm.1 .buf
    | tmp => exact hm.1 .tmp
    | dns => exact hdw
    | bmap => exact hbw
  · intro m
    cases m with
    | buf => exact hm.2 .buf
    | tmp => exact hm.2 .tmp
    | dns => exact hdb
    | bmap => exact hbb

/-- An encode that does not fail keeps the canonical form and the capacities of its two memories. -/
theorem zeEncode_memories {ty : WordType} {word : Nat → Nat} {n : Nat} {cap? : Option Nat} {dns bmap : Memory}
    {r : EncodeAcc} (h : zeEncode ty word n cap? dns bmap = some r) :
    (Memory.wf dns = true → Memory.wf r.dns = true) ∧ (Memory.wf bmap = true → Memory.wf r.bmap = true)
    ∧ (∀ cap, n * wordBytes ty ≤ cap → Memory.below cap dns = true → Memory.below cap r.dns = true)
    ∧ (∀ cap, bitmapWords ty n * wordBytes ty ≤ cap → Memory.below cap bmap = true →
        Memory.below cap r.bmap = true) := by
  obtain ⟨hrun, hfail⟩ := zeEncode_spec ty word n cap? dns bmap
  have hfits : ∀ cap, cap? = some cap → nonzeroCount word n ≤ cap := fun cap e => by
    by_contra hlt
    rw [hfail ⟨cap, e, by omega⟩] at h
    cases h
  obtain ⟨r', hr', -, -, -, -, -, hkept⟩ := hrun hfits
  obtain rfl : r = r' := Option.some.inj (h.symm.trans hr')
  exact hkept

theorem execZenc_good {chk : Bool} {ty : WordType} {s t : State} (hm : s.memoriesGood)
    (h : execZenc chk ty s = .next t) : t.good = true := by
  rcases execZenc_cases chk ty s with ⟨-, e⟩ | ⟨hr, -, hlt, e⟩ | ⟨hr, -, r, hre, -, e⟩ <;>
    rw [e] at h <;> cases h
  · exact State.good_setCode hm _
  · obtain ⟨hd, hb⟩ := zeRange_capacities s hr
    have hcap : s.zcap.toNat ≤ s.zn.toNat := hlt.le.trans (nonzeroCount_le _ _)
    exact State.good_setCode (memoriesGood_of_codec hm _ _
      (wf_fillFirst (hm.1 .dns) _ _) (below_fillFirst (hm.2 .dns) ((Nat.mul_le_mul_right _ hcap).trans hd) _)
      (wf_fillFirst (hm.1 .bmap) _ _) (below_fillFirst (hm.2 .bmap) hb _)) _
  · obtain ⟨hd, hb⟩ := zeRange_capacities s hr
    obtain ⟨hdw, hbw, hdb, hbb⟩ := zeEncode_memories hre
    exact State.good_setCode (memoriesGood_of_codec hm _ _
      (hdw (hm.1 .dns)) (hdb _ hd (hm.2 .dns)) (hbw (hm.1 .bmap)) (hbb _ hb (hm.2 .bmap))) _

theorem execZdec_good {ty : WordType} {s t : State} (hm : s.memoriesGood)
    (h : execZdec ty s = .next t) : t.good = true := by
  rcases execZdec_cases ty s with ⟨-, e⟩ | ⟨hr, e⟩ <;> rw [e] at h <;> cases h
  · exact State.good_setCode hm _
  · exact State.good_setCode (stageZeDecode_good hm (decide_eq_true hr)) _

theorem exec_good {i : Instr} {s t : State} (h : exec i s = .next t) (hm : s.memoriesGood) :
    t.good = true := by
  rcases instr_guarded_or_codec i with ⟨accept, hacc⟩ | ⟨chk, ty, rfl⟩ | ⟨ty, rfl⟩
  · obtain ⟨tr, htr, e⟩ := exec_eq_guarded hacc
    rw [e] at h
    exact guarded_good hm (fun hl ha => htr.good (geomOK_of_acceptOf hacc ha) hl hm) h
  · exact execZenc_good hm h
  · exact execZdec_good hm h

/-! ### Every access of the host leaves a good state -/

theorem writeReg_good {n : Nat} {v : Word} {s t : State} (hg : s.good = true)
    (h : writeReg n v s = .next t) : t.good = true := by
  rcases writeReg_next h with rfl | rfl | rfl | rfl | rfl
  · exact hg
  · exact hg
  · exact hg
  · exact hg
  · exact hg

theorem State.setByte_good {s : State} (hg : s.good = true) {m : MemId} {a : Nat} (ha : a < s.params.cap m)
    (b : Byte) : (s.setByte m a b).good = true := by
  obtain ⟨hw, hb, hs⟩ := s.good_iff.1 hg
  obtain ⟨hw', hb'⟩ := State.memoriesGood_setMem ⟨hw, hb⟩ (Memory.wf_write (hw m) a b)
    (Memory.below_write (hb m) ha b)
  exact (State.good_iff _).2 ⟨hw', hb', by rwa [State.setByte, State.setMem_status]⟩

/-- Settles O58, by the cases of a step. Goodness looks at no field that an access leaves as it was, so the
removal of the access, the byte in CMD and the value delivered make no difference to it. -/
theorem stepKeepsGoodStates : Obligations.StepKeepsGoodStates := by
  intro s t hg h
  have hrest (rest : List HostAccess) : State.good { s with pending := rest } = true := hg
  rcases step_cases h with ⟨-, rfl⟩ | ⟨a, rest, -, hcmd | hill | hreg | hread | hwm | hrm | hreset⟩
  · exact hg
  · obtain ⟨c, i, -, -, he⟩ := hcmd
    exact exec_good he (State.memoriesGood_of_good hg)
  · obtain ⟨c, why, -, -, rfl⟩ := hill
    exact State.good_setCode (State.memoriesGood_of_good hg) _
  · obtain ⟨n, v, -, hw⟩ := hreg
    exact writeReg_good (hrest rest) hw
  · obtain ⟨n, -, rfl⟩ := hread
    exact hg
  · obtain ⟨m, x, b, -, hx, rfl⟩ := hwm
    exact State.setByte_good (hrest rest) hx b
  · obtain ⟨m, x, -, -, rfl⟩ := hrm
    exact hg
  · obtain ⟨-, rfl⟩ := hreset
    exact State.good_of_empty (State.applyReset_mem _) rfl

/-- Settles O59: no memory lists a byte, and STATUS is 0. -/
theorem resetIsGood : Obligations.ResetIsGood :=
  State.good_of_empty State.reset_mem rfl

end Sys2Proof.Machine
end

section
/-!
PROOF. What a command reads and writes of the registers and of BUF: the operand registers it keeps, STATUS and
the ZCAP of an unchecked ZENC, which it does not read, and the bytes of BUF at and above LEN, which the header,
stage and pipeline commands neither read nor write (10_state.md R11 to R17).
-/

namespace Sys2Proof.Machine

/-! ### The registers a command keeps -/

theorem guarded_keeps {accept : State → Bool} {tr : State → State} (htr : LawfulStage tr) {s t : State}
    (h : guarded accept tr s = .next t) : t = { s with status := t.status, buf := t.buf, tmp := t.tmp } := by
  rcases guarded_next h with ⟨c, -, rfl⟩ | ⟨-, -, -, rfl⟩
  · rfl
  · exact congrArg (State.setCode · .ok) (htr.keeps s)

theorem execZenc_keeps {chk : Bool} {ty : WordType} {s t : State} (h : execZenc chk ty s = .next t) :
    t = { s with status := t.status, dns := t.dns, bmap := t.bmap, zlen := t.zlen, draws := t.draws } := by
  rcases execZenc_cases chk ty s with ⟨-, e⟩ | ⟨-, -, -, e⟩ | ⟨-, -, r, -, -, e⟩ <;> rw [e] at h <;> cases h
  · rfl
  · rfl
  · rfl

theorem execZdec_keeps {ty : WordType} {s t : State} (h : execZdec ty s = .next t) :
    t = { s with status := t.status, buf := t.buf } := by
  rcases execZdec_cases ty s with ⟨-, e⟩ | ⟨-, e⟩ <;> rw [e] at h <;> cases h
  · rfl
  · exact congrArg (State.setCode · .ok) (stageZeDecode_keeps ty s)

/-- Every field that some command writes. -/
theorem exec_keeps {i : Instr} {s t : State} (h : exec i s = .next t) :
    t = { s with status := t.status, buf := t.buf, tmp := t.tmp, dns := t.dns, bmap := t.bmap,
                 zlen := t.zlen, draws := t.draws } := by
  rcases instr_guarded_or_codec i with ⟨accept, hacc⟩ | ⟨chk, ty, rfl⟩ | ⟨ty, rfl⟩
  · obtain ⟨tr, htr, e⟩ := exec_eq_guarded hacc
    rw [e] at h
    rw [guarded_keeps htr h]
  · rw [execZenc_keeps h]
  · rw [execZdec_keeps h]

/-- ZLEN and the count of free values are ZENC's. -/
theorem exec_keeps_zlen {i : Instr} (hi : ∀ chk ty, i ≠ .zenc chk ty) {s t : State}
    (h : exec i s = .next t) : t.zlen = s.zlen ∧ t.draws = s.draws := by
  rcases instr_guarded_or_codec i with ⟨accept, hacc⟩ | ⟨chk, ty, rfl⟩ | ⟨ty, rfl⟩
  · obtain ⟨tr, htr, e⟩ := exec_eq_guarded hacc
    rw [e] at h
    rw [guarded_keeps htr h]
    exact ⟨rfl, rfl⟩
  · exact absurd rfl (hi chk ty)
  · rw [execZdec_keeps h]
    exact ⟨rfl, rfl⟩

/-- Settles O20: every command's outcome is the state before it with the fields that commands write replaced. -/
theorem commandsKeepOperandRegisters : Obligations.CommandsKeepOperandRegisters := by
  intro i s t h
  have e := exec_keeps h
  refine ⟨?_, ?_, ?_, ?_, ?_, ?_, ?_, ?_, ?_, fun hi => exec_keeps_zlen hi h⟩ <;> rw [e]

/-! ### Bytes of BUF at and above LEN -/

theorem guarded_paramError {accept : State → Bool} {tr : State → State} {s : State}
    (h : s.params.bufCap < s.len.toNat) : guarded accept tr s = .next (s.setCode .paramError) :=
  if_pos h

theorem guarded_inputTooSmall {accept : State → Bool} {tr : State → State} {s : State}
    (hc : s.len.toNat ≤ s.params.bufCap) (hl : s.len.toNat < 54) :
    guarded accept tr s = .next (s.setCode .inputTooSmall) := by
  rw [guarded, if_neg (by omega), if_pos hl]; rfl

theorem guarded_unsupportedFormat {accept : State → Bool} {tr : State → State} {s : State}
    (hc : s.len.toNat ≤ s.params.bufCap) (hl : 54 ≤ s.len.toNat) (ha : accept s = false) :
    guarded accept tr s = .next (s.setCode .unsupportedFormat) := by
  rw [guarded, if_neg (by omega), if_neg (by omega), if_pos (by rw [ha]; rfl)]; rfl

/-- Two states with the same bytes of BUF below LEN end a guarded command with the same error, or both run
its transform. -/
theorem guarded_agree {accept : State → Bool} {tr : State → State} {s t : State}
    (ha : 54 ≤ s.len.toNat → accept t = accept s) (h : AgreeBelowLen s t) :
    (∃ c, guarded accept tr s = .next (s.setCode c) ∧ guarded accept tr t = .next (t.setCode c))
    ∨ (54 ≤ s.len.toNat ∧ accept s = true
      ∧ guarded accept tr s = .next ((tr s).setCode .ok) ∧ guarded accept tr t = .next ((tr t).setCode .ok)) := by
  have hl := h.len_eq
  have hp := h.params_eq
  rcases guarded_cases accept tr s with ⟨hc, e⟩ | ⟨hc, h54, e⟩ | ⟨hc, h54, hs, e⟩ | ⟨hc, h54, hs, e⟩
  · exact .inl ⟨_, e, guarded_paramError (by rwa [hl, hp])⟩
  · exact .inl ⟨_, e, guarded_inputTooSmall (by rwa [hl, hp]) (by rwa [hl])⟩
  · exact .inl ⟨_, e, guarded_unsupportedFormat (by rwa [hl, hp]) (by rwa [hl]) (by rwa [ha h54])⟩
  · exact .inr ⟨h54, hs, e, guarded_run tr (by rwa [hl, hp]) (by rwa [hl]) (by rwa [ha h54])⟩

/-- Settles O22: the commands' checks read the header alone, and a lawful stage neither reads nor writes the
bytes of BUF at and above LEN. -/
theorem bytesBeyondLenDoNotMatter : Obligations.BytesBeyondLenDoNotMatter := by
  intro i accept s other hacc hb
  obtain ⟨tr, htr, e⟩ := exec_eq_guarded hacc
  have h : AgreeBelowLen s { s with buf := other } := ⟨rfl, hb⟩
  have hcongr (hl : 54 ≤ s.len.toNat) : accept { s with buf := other } = accept s :=
    acceptOf_congr hacc rfl fun a ha => h.header_eq hl ha
  rw [e]
  rcases guarded_agree hcongr h with ⟨c, es, et⟩ | ⟨hl, ha, es, et⟩
  · refine ⟨_, _, es, et, (h.setCode c).fields, (h.setCode c).bytes, fun a _ => ⟨?_, ?_⟩⟩
    · rw [State.setCode_byte]
    · rw [State.setCode_byte]
  · have hs := geomOK_of_acceptOf hacc ha
    have ht : geomOK { s with buf := other } = true := (h.geomOK_eq hl).trans hs
    have h' := (htr.agree hs h).setCode .ok
    refine ⟨_, _, es, et, h'.fields, fun a hla => h'.bytes a ?_, fun a hla => ⟨?_, ?_⟩⟩
    · rwa [State.setCode_len, htr.len_eq]
    · rw [State.setCode_byte]; exact htr.above_len hs a hla
    · rw [State.setCode_byte]; exact htr.above_len ht a hla

/-! ### Registers a command does not read -/

theorem guarded_status_free {i : Instr} {accept : State → Bool} (hacc : acceptOf i = some accept)
    {tr : State → State} (htr : LawfulStage tr) (s : State) (old : Byte) :
    guarded accept tr { s with status := old } = guarded accept tr s := by
  unfold guarded
  rw [acceptOf_congr hacc (s := s) (t := { s with status := old }) rfl fun _ _ => rfl, htr.status_free]
  rfl

theorem execZenc_status_free (chk : Bool) (ty : WordType) (s : State) (old : Byte) :
    execZenc chk ty { s with status := old } = execZenc chk ty s := rfl

theorem execZdec_status_free (ty : WordType) (s : State) (old : Byte) :
    execZdec ty { s with status := old } = execZdec ty s := rfl

/-- Settles O19: neither the checks nor the transforms read STATUS, and every end of a command overwrites it. -/
theorem statusIsNotSticky : Obligations.StatusIsNotSticky := by
  intro i s old
  rcases instr_guarded_or_codec i with ⟨accept, hacc⟩ | ⟨chk, ty, rfl⟩ | ⟨ty, rfl⟩
  · obtain ⟨tr, htr, e⟩ := exec_eq_guarded hacc
    rw [e, guarded_status_free hacc htr]
  · exact execZenc_status_free chk ty s old
  · exact execZdec_status_free ty s old

/-- An unchecked ZENC ends in a range error or runs the encode without a capacity. -/
theorem execZenc_unchecked_cases (ty : WordType) (s : State) :
    (s.params.bufCap < s.zbase.toNat + s.zn.toNat * wordBytes ty
      ∧ execZenc false ty s = .next (s.setCode .paramError))
    ∨ (s.zbase.toNat + s.zn.toNat * wordBytes ty ≤ s.params.bufCap
      ∧ ∃ r, zeEncode ty (s.zeWord ty) s.zn.toNat none s.dns s.bmap = some r
        ∧ execZenc false ty s
            = .next (State.setCode { s with dns := r.dns, bmap := r.bmap, zlen := BitVec.ofNat 32 r.pos } .ok)) := by
  rcases execZenc_cases false ty s with h | ⟨-, h, -⟩ | ⟨hr, -, r, hre, -, e⟩
  · exact .inl h
  · cases h
  · exact .inr ⟨hr, r, hre, e⟩

/-- Settles O46: the range check and the encode without a capacity do not read ZCAP, and such an encode has no
capacity failure, which alone would. -/
theorem uncheckedZencIgnoresZcap : Obligations.UncheckedZencIgnoresZcap := by
  intro s ty cap
  rw [exec_zenc, exec_zenc]
  rcases execZenc_unchecked_cases ty s with ⟨hlt, e⟩ | ⟨hle, r, hr, e⟩ <;>
    rcases execZenc_unchecked_cases ty { s with zcap := cap } with ⟨hlt', e'⟩ | ⟨hle', r', hr', e'⟩
  · exact ⟨_, e, e'⟩
  · exact absurd hlt (Nat.not_lt.2 hle')
  · exact absurd hlt' (Nat.not_lt.2 hle)
  · obtain rfl : r = r' := Option.some.inj (hr.symm.trans hr')
    exact ⟨_, e, e'⟩

end Sys2Proof.Machine
end

section
/-!
PROOF. The host's accesses, one per step: reset, registers, memory bytes and the byte written to CMD
(10_state.md R11 to R18, R27 and R28, 70_reset_and_hazards.md R140).
-/

namespace Sys2Proof.Machine

/-! ### Reset -/

/-- A byte that nothing has written since reset is the free value of its epoch (10_state.md R27). -/
theorem State.byte_of_empty {s : State} {m : MemId} (h : s.mem m = []) (a : Nat) :
    s.byte m a = Config.unwritten s.epoch m a := by
  unfold State.byte
  rw [h]
  rfl

/-- Settles O4: the seven registers by definition, the bytes because no memory lists one. -/
theorem resetLeavesRegistersZero : Obligations.ResetLeavesRegistersZero :=
  ⟨rfl, rfl, rfl, rfl, rfl, rfl, rfl, fun m => State.byte_of_empty (State.reset_mem m)⟩

/-- Settles O5: the step is `applyReset`, which empties the memories and counts the epoch on. -/
theorem hostResetClearsRegisters : Obligations.HostResetClearsRegisters := by
  intro s rest h
  exact ⟨State.applyReset { s with pending := rest }, step_of_cons h, rfl, rfl, rfl, rfl, rfl, rfl, rfl,
    fun m => State.byte_of_empty (State.applyReset_mem _ m), rfl, rfl, rfl⟩

/-! ### Registers -/

theorem State.statusRead_toNat (s : State) : s.statusRead.toNat = s.status.toNat % 8 := by
  rw [State.statusRead, State.code, BitVec.toNat_append, BitVec.extractLsb'_toNat]
  simp

theorem State.readReg_cmd (s : State) : (s.readReg 0).toNat = s.cmd.toNat := by
  simp only [State.readReg, BitVec.toNat_setWidth]
  omega

theorem State.readReg_status (s : State) : (s.readReg 1).toNat = s.status.toNat % 8 := by
  simp only [State.readReg, BitVec.toNat_setWidth, State.statusRead_toNat]
  omega

theorem State.readReg_of_ge (s : State) {n : Nat} (h : 7 ≤ n) : s.readReg n = 0#32 := by
  obtain ⟨k, rfl⟩ := Nat.exists_eq_add_of_le' h
  rfl

/-- The registers that ignore a write: STATUS, ZLEN and the numbers that do not exist. -/
theorem writeReg_ignored {n : Nat} (h : n = 1 ∨ 6 ≤ n) (v : Word) (s : State) : writeReg n v s = .next s := by
  rcases h with rfl | h
  · rfl
  · obtain ⟨k, rfl⟩ := Nat.exists_eq_add_of_le' h
    rfl

/-- Settles O6: one register number at a time. -/
theorem hostReadsRegisters : Obligations.HostReadsRegisters := by
  intro s n rest h
  refine ⟨s.readReg n, step_of_cons h, ?_, ?_, ?_, ?_, ?_, ?_, ?_, s.readReg_of_ge⟩
  · rintro rfl; exact s.readReg_cmd
  · rintro rfl; exact s.readReg_status
  · rintro rfl; rfl
  · rintro rfl; rfl
  · rintro rfl; rfl
  · rintro rfl; rfl
  · rintro rfl; rfl

/-- Settles O7: one register number at a time. -/
theorem hostWritesRegisters : Obligations.HostWritesRegisters := by
  intro s n v rest h
  have hstep : step s = writeReg n v { s with pending := rest } := step_of_cons h
  rw [hstep]
  refine ⟨?_, ?_, ?_, ?_, fun hn => writeReg_ignored hn v _, ?_⟩
  · rintro rfl; rfl
  · rintro rfl; rfl
  · rintro rfl; rfl
  · rintro rfl; rfl
  · rintro rfl; rfl

/-! ### Memory bytes -/

theorem State.setByte_byte (s : State) (m m' : MemId) (a a' : Nat) (b : Byte) :
    (s.setByte m a b).byte m' a' = if m' = m ∧ a' = a then b else s.byte m' a' := by
  rw [State.setByte, State.setMem_byte]
  by_cases hm : m' = m
  · subst hm
    simp only [if_true, true_and, Memory.read_write]
    rfl
  · simp [hm]

theorem State.setByte_keeps (s : State) (m : MemId) (a : Nat) (b : Byte) :
    s.setByte m a b = { s with buf := (s.setByte m a b).buf, tmp := (s.setByte m a b).tmp,
                               dns := (s.setByte m a b).dns, bmap := (s.setByte m a b).bmap } := by
  cases m <;> rfl

/-- Which access is next makes no difference to the bytes. -/
theorem State.withPending_byte (s : State) (rest : List HostAccess) :
    ({ s with pending := rest } : State).byte = s.byte := by
  funext m
  exact State.byte_congr (by cases m <;> rfl) rfl

/-- Settles O8: a read after a write, in the same and in another memory. -/
theorem hostWritesOneByte : Obligations.HostWritesOneByte := by
  intro s m a b rest h
  have hstep : step s = hostWriteMem m a b { s with pending := rest } := step_of_cons h
  rw [hstep]
  constructor
  · intro ha
    refine ⟨_, if_pos ha, ?_, fun m' a' hne => ?_, State.setByte_keeps ..⟩
    · rw [State.setByte_byte, if_pos ⟨rfl, rfl⟩]
    · rw [State.setByte_byte, if_neg (by tauto), State.withPending_byte]
  · exact fun ha => if_neg (Nat.not_lt.2 ha)

/-- Settles O9: a byte zero-extended to 32 bits keeps its value. -/
theorem hostReadsOneByte : Obligations.HostReadsOneByte := by
  intro s m a rest h
  have hstep : step s = hostReadMem m a { s with pending := rest } := step_of_cons h
  rw [hstep, hostReadMem, State.withPending_byte]
  constructor
  · intro ha
    refine ⟨(s.byte m a).setWidth 32, ?_, if_pos ha⟩
    rw [BitVec.toNat_setWidth]
    omega
  · exact fun ha => if_neg (Nat.not_lt.2 ha)

/-! ### The byte written to CMD -/

/-- The byte of a table word of eight bits decodes as the word does. -/
theorem decode_of_decodeTableWord {nbits w : Nat} {i : Instr} (h : decodeTableWord nbits w = some i) :
    decode (tableByte nbits w) = .ok i := by
  unfold decodeTableWord at h
  unfold tableByte
  split at h
  · rename_i hd
    rw [hd, Option.some.inj h]
  · cases h

theorem tableByte_eight {w : Nat} (h : w < 256) : tableByte 8 w = BitVec.ofNat 8 w := by
  rw [tableByte, Nat.mod_eq_of_lt (show w < 2 ^ 8 from h)]

theorem step_writeCmd {s : State} {c : Byte} {rest : List HostAccess} {i : Instr}
    (h : s.pending = .writeCmd c :: rest) (hd : decode c = .ok i) :
    step s = exec i { s with pending := rest, cmd := c } := by
  rw [step_of_cons h, serve, runCommand_of_ok hd]
  rfl

/-- Settles O11: the table word of the second clause is a byte written to CMD. -/
theorem stepRunsTheDecodedCommand : Obligations.StepRunsTheDecodedCommand := by
  refine ⟨fun s c rest i => step_writeCmd, fun s w i hw hd => ?_⟩
  rw [← tableByte_eight hw]
  exact step_writeCmd rfl (decode_of_decodeTableWord hd)

end Sys2Proof.Machine
end

section
/-!
PROOF. Component A: MemRead, MemWrite and the four field helpers, byte by byte (20_memory.md R31 to R36).
-/

namespace Sys2Proof.Machine

/-! ### MemWrite -/

theorem Memory.read_writeLE_at (u : Nat → Byte) (m : Memory) (a n : Nat) (v : Int) {k : Nat} (hk : k < n) :
    Memory.read u (writeLE m a n v) (a + k) = BitVec.ofInt 8 (v / 256 ^ k) := by
  rw [Memory.read_writeLE, if_pos (by omega), Nat.add_sub_cancel_left]

/-- Settles O1: a shift right by `8 * k` is a division by `256 ^ k`. -/
theorem memWriteStoresLittleEndian : Obligations.MemWriteStoresLittleEndian := by
  intro u m a n v
  refine ⟨fun k hk => ?_, fun x hx => Memory.read_writeLE_ne u m v hx⟩
  have hshift : v >>> (8 * k) = v / 256 ^ k := by
    rw [Int.shiftRight_eq_div_pow, pow_mul]
    norm_num
  rw [Memory.read_writeLE_at u m a n v hk, hshift]

/-! ### MemRead -/

/-- MemRead from the other end: one byte more is the next more significant byte (20_memory.md R31). -/
theorem readLE_succ_top (rd : Nat → Byte) (a n : Nat) :
    readLE rd a (n + 1) = readLE rd a n + 256 ^ n * (rd (a + n)).toNat := by
  induction n generalizing a with
  | zero => simp [readLE]
  | succ n ih =>
    rw [readLE_succ, ih (a + 1), readLE_succ rd a n, show a + 1 + n = a + (n + 1) by omega]
    ring

/-- The bytes of a value do not overlap, so that the sum of 20_memory.md R31 is an or. -/
theorem readLE_succ_or (rd : Nat → Byte) (a n : Nat) :
    readLE rd a (n + 1) = readLE rd a n ||| (rd (a + n)).toNat <<< (8 * n) := by
  have hpow : 256 ^ n = 2 ^ (8 * n) := by rw [pow_mul]; norm_num
  have hlt : readLE rd a n < 2 ^ (8 * n) := hpow ▸ readLE_lt rd a n
  rw [readLE_succ_top, Nat.or_comm, ← Nat.shiftLeft_add_eq_or_of_lt hlt, Nat.shiftLeft_eq, hpow]
  ring

/-- Settles O2: the or by induction on the number of bytes; the round trip is `readLE_of_writeLE`. -/
theorem memReadIsLittleEndian : Obligations.MemReadIsLittleEndian := by
  intro a n
  constructor
  · intro rd
    induction n with
    | zero => rfl
    | succ n ih => rw [List.range_succ, List.foldl_append, ← ih, readLE_succ_or]; rfl
  · intro u m v
    rw [readLE_of_writeLE, pow_mul]
    norm_num

/-! ### The helpers -/

theorem get16_eq_or (rd : Nat → Byte) (a : Nat) :
    get16 rd a = (((rd a).toNat ||| (rd (a + 1)).toNat <<< 8 : Nat) : Int) := by
  simp [get16, readLE_succ_or]

theorem get32_eq_or (rd : Nat → Byte) (a : Nat) :
    get32 rd a = asI32 ((rd a).toNat ||| (rd (a + 1)).toNat <<< 8 ||| (rd (a + 2)).toNat <<< 16
      ||| (rd (a + 3)).toNat <<< 24) := by
  simp [get32, readLE_succ_or]

theorem get16_bounds (rd : Nat → Byte) (a : Nat) : 0 ≤ get16 rd a ∧ get16 rd a ≤ 65535 := by
  have := readLE_lt rd a 2
  unfold get16
  omega

theorem get32_bounds (rd : Nat → Byte) (a : Nat) : -2147483648 ≤ get32 rd a ∧ get32 rd a ≤ 2147483647 := by
  have := readLE_lt rd a 4
  unfold get32 asI32
  split <;> omega

/-- The sign of a 32-bit field is bit 31 of its unsigned value, which is bit 7 of its last byte. -/
theorem get32_neg_iff (rd : Nat → Byte) (a : Nat) : get32 rd a < 0 ↔ (rd (a + 3)).getLsbD 7 = true := by
  have hlt := readLE_lt rd a 4
  have hbit : (rd (a + 3)).getLsbD 7 = decide (readLE rd a 4 / 2 ^ 31 % 2 = 1) := by
    rw [← readLE_testBit rd a 4 3 7 (by omega) (by omega), Nat.testBit_eq_decide_div_mod_eq]
  rw [hbit, decide_eq_true_eq]
  unfold get32 asI32
  split <;> omega

theorem read_set16 (u : Nat → Byte) (m : Memory) (a : Nat) (v : Int) (x : Nat) :
    Memory.read u (set16 m a v) x
      = if x = a then BitVec.ofInt 8 v
        else if x = a + 1 then BitVec.ofInt 8 (v / 256)
        else Memory.read u m x := by
  have hbyte := fun k => Memory.read_writeLE_at u m a 2 v (k := k)
  unfold set16
  split
  · next h => simpa [h] using hbyte 0 (by omega)
  split
  · next h => simpa [h] using hbyte 1 (by omega)
  · exact Memory.read_writeLE_ne u m v (by omega)

theorem read_set32 (u : Nat → Byte) (m : Memory) (a : Nat) (v : Int) (x : Nat) :
    Memory.read u (set32 m a v) x
      = if x = a then BitVec.ofInt 8 v
        else if x = a + 1 then BitVec.ofInt 8 (v / 256)
        else if x = a + 2 then BitVec.ofInt 8 (v / 65536)
        else if x = a + 3 then BitVec.ofInt 8 (v / 16777216)
        else Memory.read u m x := by
  have hbyte := fun k => Memory.read_writeLE_at u m a 4 v (k := k)
  unfold set32
  split
  · next h => simpa [h] using hbyte 0 (by omega)
  split
  · next h => simpa [h] using hbyte 1 (by omega)
  split
  · next h => simpa [h] using hbyte 2 (by omega)
  split
  · next h => simpa [h] using hbyte 3 (by omega)
  · exact Memory.read_writeLE_ne u m v (by omega)

/-- Settles O3: the helpers are MemRead and MemWrite of two and four bytes by definition; their bytes, ranges
and sign are the lemmas above. -/
theorem helpersReadAndStoreFields : Obligations.HelpersReadAndStoreFields := by
  intro rd a
  obtain ⟨h16, h16'⟩ := get16_bounds rd a
  obtain ⟨h32, h32'⟩ := get32_bounds rd a
  exact ⟨get16_eq_or rd a, h16, h16', get32_eq_or rd a, h32, h32', get32_neg_iff rd a, rfl, rfl,
    fun _ _ => ⟨rfl, rfl⟩, fun u m v x => ⟨read_set16 u m a v x, read_set32 u m a v x⟩⟩

end Sys2Proof.Machine
end

section
/-!
PROOF. Passes over a memory that write at different offsets may be run in any order: the rows of RCDF and the
groups of BMTF (20_memory.md R44, 41_rowdiff_tcms.md R88, 42_bit_transpose.md R97).
-/

namespace Sys2Proof.Machine

/-- A fold of passes that commute on canonical memories does not depend on their order. -/
theorem foldl_perm_of_wf {body : Nat → Memory → Memory}
    (hwf : ∀ i m, Memory.wf m = true → Memory.wf (body i m) = true) {l l' : List Nat} (hp : l.Perm l')
    (hcomm : ∀ i ∈ l, ∀ j ∈ l, ∀ m, Memory.wf m = true → body i (body j m) = body j (body i m))
    {m : Memory} (hm : Memory.wf m = true) :
    l.foldl (fun m i => body i m) m = l'.foldl (fun m i => body i m) m := by
  induction hp generalizing m with
  | nil => rfl
  | cons i _ ih =>
    exact ih (fun i hi j hj => hcomm i (.tail _ hi) j (.tail _ hj)) (hwf i m hm)
  | swap i j l =>
    rw [List.foldl_cons, List.foldl_cons, List.foldl_cons, List.foldl_cons,
      hcomm i (.tail _ (.head _)) j (.head _) m hm]
  | trans hp₁ _ ih₁ ih₂ =>
    exact (ih₁ hcomm hm).trans
      (ih₂ (fun i hi j hj => hcomm i (hp₁.mem_iff.2 hi) j (hp₁.mem_iff.2 hj)) hm)

/-- A loop of passes that commute on canonical memories may be run in any order. -/
theorem foldl_perm_range_eq_loop {n : Nat} {body : Nat → Memory → Memory}
    (hwf : ∀ i m, Memory.wf m = true → Memory.wf (body i m) = true)
    (hcomm : ∀ i j m, i < n → j < n → Memory.wf m = true → body i (body j m) = body j (body i m))
    {order : List Nat} (hp : order.Perm (List.range n)) {m : Memory} (hm : Memory.wf m = true) :
    order.foldl (fun m i => body i m) m = loop n body m := by
  have hlt : ∀ i ∈ order, i < n := fun i hi => List.mem_range.1 (hp.mem_iff.1 hi)
  rw [loop_eq_foldl]
  exact foldl_perm_of_wf hwf hp (fun i hi j hj m => hcomm i j m (hlt i hi) (hlt j hj)) hm

/-- Two rows write at different offsets, and what they write does not depend on TMP. -/
theorem rowForward_comm (g : Geom) (rd : Nat → Byte) {y y' : Nat} (hy : y < g.h) (hy' : y' < g.h) {m : Memory}
    (hm : Memory.wf m = true) :
    rowForward g rd y (rowForward g rd y' m) = rowForward g rd y' (rowForward g rd y m) := by
  refine Memory.ext_of_wf (wf_rowForward (wf_rowForward hm ..) ..) (wf_rowForward (wf_rowForward hm ..) ..)
    fun a => ?_
  rcases Nat.lt_or_ge a g.n3 with ha | ha
  · obtain ⟨k, r, x, hk, hr, hx, rfl⟩ := g.exists_planeAddr ha
    simp only [lookup_rowForward g rd _ hy hk hr hx, lookup_rowForward g rd _ hy' hk hr hx]
    -- an offset lies in row `r` alone; where both passes are that row, they store the same byte
    split <;> split <;> simp_all
  · simp only [lookup_rowForward_above g rd _ hy ha, lookup_rowForward_above g rd _ hy' ha]

/-- Settles O33: the rows commute. -/
theorem rcdfRowsInAnyOrder : Obligations.RcdfRowsInAnyOrder := by
  intro g rd tmp rows hm hp
  exact foldl_perm_range_eq_loop (fun _ _ h => wf_rowForward h ..)
    (fun _ _ _ hy hy' => rowForward_comm g rd hy hy') hp hm

theorem wf_groupForward {m : Memory} (h : Memory.wf m = true) (g : Geom) (rd : Nat → Byte) (i : Nat) :
    Memory.wf (groupForward g rd i m) = true :=
  wf_loop h fun _ _ h' => Memory.wf_write h' _ _

/-- Two groups write at different offsets, and what they write does not depend on BUF. -/
theorem groupForward_comm (g : Geom) (rd : Nat → Byte) {i i' : Nat} (hi : i < g.groups) (hi' : i' < g.groups)
    {m : Memory} (hm : Memory.wf m = true) :
    groupForward g rd i (groupForward g rd i' m) = groupForward g rd i' (groupForward g rd i m) := by
  refine Memory.ext_of_wf (wf_groupForward (wf_groupForward hm ..) ..)
    (wf_groupForward (wf_groupForward hm ..) ..) fun a => ?_
  have he := g.esize_add_extra
  by_cases ha : a < 54 ∨ 54 + g.esize ≤ a
  · simp only [lookup_groupForward_outside g rd _ hi ha, lookup_groupForward_outside g rd _ hi' ha]
  · obtain ⟨j, r, hj, hr, rfl⟩ | ⟨k, hk, rfl⟩ := g.slab_or_extra (a := a) (by omega) (by omega)
    · simp only [lookup_groupForward g rd _ hi hj hr, lookup_groupForward g rd _ hi' hj hr]
      split <;> split <;> simp_all
    · omega

/-- Settles O43: the groups commute. -/
theorem bmtfGroupsInAnyOrder : Obligations.BmtfGroupsInAnyOrder := by
  intro g rd buf order hm hp
  exact foldl_perm_range_eq_loop (fun _ _ h => wf_groupForward h ..)
    (fun _ _ _ hi hi' => groupForward_comm g rd hi hi') hp hm

end Sys2Proof.Machine
end

section
/-!
PROOF. The bytes each command may change: stage by stage, and then for the checks before a stage, which change
no byte (20_memory.md R30 and R38).
-/

namespace Sys2Proof.Machine

/-! ### Where a state may differ from another -/

/-- Of the four memories only BUF may differ, and there only the offsets `lo .. hi-1`. -/
def OnlyBuf (lo hi : Nat) (s t : State) : Prop :=
  t.tmp = s.tmp ∧ t.dns = s.dns ∧ t.bmap = s.bmap ∧ KeptOutside .buf lo hi s t

/-- Of the four memories only TMP may differ, and there only the first `n` offsets. -/
def OnlyTmp (n : Nat) (s t : State) : Prop :=
  t.buf = s.buf ∧ t.dns = s.dns ∧ t.bmap = s.bmap ∧ KeptOutside .tmp 0 n s t

/-- Of the four memories only BUF and TMP may differ, and there only the first `len` and `n` offsets. -/
def OnlyBufAndTmp (len n : Nat) (s t : State) : Prop :=
  t.dns = s.dns ∧ t.bmap = s.bmap ∧ KeptOutside .buf 0 len s t ∧ KeptOutside .tmp 0 n s t

/-- What a guarded command establishes, for a property that does not speak of STATUS: an error leaves the state
before it but for STATUS, and otherwise the transform has run. -/
theorem guarded_satisfies {P : State → Prop} {accept : State → Bool} {tr : State → State} {s t : State}
    (h : guarded accept tr s = .next t) (hcode : ∀ r c, P r → P (r.setCode c)) (hs : P s)
    (htr : accept s = true → P (tr s)) : P t := by
  rcases guarded_next h with ⟨c, -, rfl⟩ | ⟨-, -, ha, rfl⟩
  · exact hcode s c hs
  · exact hcode (tr s) .ok (htr ha)

theorem guarded_onlyBuf {lo hi : Nat} {accept : State → Bool} {tr : State → State} {s t : State}
    (h : guarded accept tr s = .next t) (htr : accept s = true → OnlyBuf lo hi s (tr s)) : OnlyBuf lo hi s t :=
  guarded_satisfies h (fun _ _ hr => hr) ⟨rfl, rfl, rfl, fun _ _ => rfl⟩ htr

theorem guarded_onlyTmp {n : Nat} {accept : State → Bool} {tr : State → State} {s t : State}
    (h : guarded accept tr s = .next t) (htr : accept s = true → OnlyTmp n s (tr s)) : OnlyTmp n s t :=
  guarded_satisfies h (fun _ _ hr => hr) ⟨rfl, rfl, rfl, fun _ _ => rfl⟩ htr

theorem guarded_onlyBufAndTmp {len n : Nat} {accept : State → Bool} {tr : State → State} {s t : State}
    (h : guarded accept tr s = .next t) (htr : accept s = true → OnlyBufAndTmp len n s (tr s)) :
    OnlyBufAndTmp len n s t :=
  guarded_satisfies h (fun _ _ hr => hr) ⟨rfl, rfl, fun _ _ => rfl, fun _ _ => rfl⟩ htr

/-! ### The stages -/

theorem stageNeutralise_onlyBuf (s : State) : OnlyBuf 0 54 s (stageNeutralise s) :=
  ⟨stageNeutralise_tmp_memory s, stageNeutralise_dns_memory s, stageNeutralise_bmap_memory s,
    fun _ _ => stageNeutralise_frame s (by omega)⟩

theorem stageRestore_onlyBuf (s : State) : OnlyBuf 0 54 s (stageRestore s) :=
  ⟨stageRestore_tmp_memory s, stageRestore_dns_memory s, stageRestore_bmap_memory s,
    fun _ _ => stageRestore_frame s (by omega)⟩

theorem stageRowDiff_onlyTmp (s : State) : OnlyTmp s.geom.n3 s (stageRowDiff s) :=
  ⟨stageRowDiff_buf_memory s, stageRowDiff_dns_memory s, stageRowDiff_bmap_memory s,
    fun _ _ => stageRowDiff_above s (by omega)⟩

theorem stageBitTransposeInv_onlyTmp (s : State) : OnlyTmp s.geom.n3 s (stageBitTransposeInv s) :=
  ⟨stageBitTransposeInv_buf_memory s, stageBitTransposeInv_dns_memory s, stageBitTransposeInv_bmap_memory s,
    fun _ _ => stageBitTransposeInv_above s (by omega)⟩

theorem stageRowDiffInv_onlyBuf {s : State} (hg : geomOK s = true) :
    OnlyBuf 54 s.len.toNat s (stageRowDiffInv s) :=
  ⟨stageRowDiffInv_tmp_memory s, stageRowDiffInv_dns_memory s, stageRowDiffInv_bmap_memory s,
    fun _ ha => stageRowDiffInv_outside s (geomOK_width hg).2 (by rwa [geomOK_len hg])⟩

theorem stageBitTranspose_onlyBuf {s : State} (hg : geomOK s = true) :
    OnlyBuf 54 s.len.toNat s (stageBitTranspose s) :=
  ⟨stageBitTranspose_tmp_memory s, stageBitTranspose_dns_memory s, stageBitTranspose_bmap_memory s,
    fun _ ha => stageBitTranspose_outside s (geomOK_n3 hg) ha⟩

theorem stageZeDecode_onlyBuf (ty : WordType) (s : State) :
    OnlyBuf s.zbase.toNat (s.zbase.toNat + s.zn.toNat * wordBytes ty) s (stageZeDecode ty s) :=
  ⟨stageZeDecode_tmp_memory ty s, stageZeDecode_dns_memory ty s, stageZeDecode_bmap_memory ty s,
    fun _ ha => State.setMem_byte_same (lookup_zeDecode_outside _ _ _ _ _ _ ha)⟩

/-- The stages of ENC write TMP in component C alone, at the geometry that component B leaves as it was. -/
theorem stagesEncode_tmp_above (s : State) {a : Nat} (ha : s.geom.n3 ≤ a) :
    (stagesEncode s).byte .tmp a = s.byte .tmp a := by
  have hB : (stageNeutralise s).byte .tmp = s.byte .tmp :=
    State.byte_congr (stageNeutralise_tmp_memory s) (stageNeutralise_epoch s)
  rw [stagesEncode, stageBitTranspose_tmp, stageRowDiff_above _ (by rwa [stageNeutralise_geom]), hB]

/-- The stages of DEC write TMP in component D alone. -/
theorem stagesDecode_tmp_above (s : State) {a : Nat} (ha : s.geom.n3 ≤ a) :
    (stagesDecode s).byte .tmp a = s.byte .tmp a := by
  have hB (r : State) : (stageRestore r).byte .tmp = r.byte .tmp :=
    State.byte_congr (stageRestore_tmp_memory r) (stageRestore_epoch r)
  rw [stagesDecode, hB, stageRowDiffInv_tmp, stageBitTransposeInv_above s ha]

theorem stagesEncode_onlyBufAndTmp {s : State} (hg : geomOK s = true) :
    OnlyBufAndTmp s.len.toNat s.geom.n3 s (stagesEncode s) :=
  ⟨stagesEncode_dns_memory s, stagesEncode_bmap_memory s,
    fun a _ => stagesEncode_lawful.above_len hg a (by omega), fun _ _ => stagesEncode_tmp_above s (by omega)⟩

theorem stagesDecode_onlyBufAndTmp {s : State} (hg : geomOK s = true) :
    OnlyBufAndTmp s.len.toNat s.geom.n3 s (stagesDecode s) :=
  ⟨stagesDecode_dns_memory s, stagesDecode_bmap_memory s,
    fun a _ => stagesDecode_lawful.above_len hg a (by omega), fun _ _ => stagesDecode_tmp_above s (by omega)⟩

/-! ### The two ZE commands -/

/-- An encode that does not fail writes `N` dense words and the `num` bitmap words at the most. -/
theorem lookup_zeEncode_above {ty : WordType} {word : Nat → Nat} {n : Nat} {cap? : Option Nat}
    {dns bmap : Memory} {r : EncodeAcc} (h : zeEncode ty word n cap? dns bmap = some r) :
    (∀ a, n * wordBytes ty ≤ a → Memory.lookup r.dns a = Memory.lookup dns a)
    ∧ (∀ a, bitmapWords ty n * wordBytes ty ≤ a → Memory.lookup r.bmap a = Memory.lookup bmap a) := by
  obtain ⟨hrun, hfail⟩ := zeEncode_spec ty word n cap? dns bmap
  have hfits : ∀ cap, cap? = some cap → nonzeroCount word n ≤ cap := fun cap e => by
    by_contra hlt
    rw [hfail ⟨cap, e, by omega⟩] at h
    cases h
  obtain ⟨r', hr', -, -, hdns, -, hbmap, -⟩ := hrun hfits
  obtain rfl : r = r' := Option.some.inj (h.symm.trans hr')
  exact ⟨fun a ha => hdns a ((Nat.mul_le_mul_right _ (nonzeroCount_le word n)).trans ha), hbmap⟩

theorem execZenc_memories {chk : Bool} {ty : WordType} {s t : State} (h : execZenc chk ty s = .next t) :
    t.buf = s.buf ∧ t.tmp = s.tmp
    ∧ KeptOutside .dns 0 (s.zn.toNat * wordBytes ty) s t
    ∧ KeptOutside .bmap 0 (bitmapWords ty s.zn.toNat * wordBytes ty) s t := by
  rcases execZenc_cases chk ty s with ⟨-, e⟩ | ⟨-, -, hcap, e⟩ | ⟨-, -, r, hr, -, e⟩ <;> rw [e] at h <;> cases h
  · exact ⟨rfl, rfl, fun _ _ => rfl, fun _ _ => rfl⟩
  · -- a capacity failure leaves free values in the first ZCAP words of DNS, and ZCAP is less than N
    have hlt : s.zcap.toNat ≤ s.zn.toNat := (hcap.trans_le (nonzeroCount_le _ _)).le
    have hbytes := Nat.mul_le_mul_right (wordBytes ty) hlt
    refine ⟨rfl, rfl, fun a ha => Memory.read_eq_of_lookup ?_, fun a ha => Memory.read_eq_of_lookup ?_⟩
    · exact (lookup_fillFirst _ _ _ a).trans (if_neg (by omega))
    · exact (lookup_fillFirst _ _ _ a).trans (if_neg (by omega))
  · obtain ⟨hdns, hbmap⟩ := lookup_zeEncode_above hr
    exact ⟨rfl, rfl, fun a ha => Memory.read_eq_of_lookup (hdns a (by omega)),
      fun a ha => Memory.read_eq_of_lookup (hbmap a (by omega))⟩

theorem execZdec_onlyBuf {ty : WordType} {s t : State} (h : execZdec ty s = .next t) :
    OnlyBuf s.zbase.toNat (s.zbase.toNat + s.zn.toNat * wordBytes ty) s t := by
  rcases execZdec_cases ty s with ⟨-, e⟩ | ⟨-, e⟩ <;> rw [e] at h <;> cases h
  · exact ⟨rfl, rfl, rfl, fun _ _ => rfl⟩
  · exact stageZeDecode_onlyBuf ty s

/-- Settles O21: one command at a time, each by what its transform may change. -/
theorem commandsStayInsideTheirMemories : Obligations.CommandsStayInsideTheirMemories := by
  intro i s t h
  cases i with
  | hdrn => exact guarded_onlyBuf h fun _ => stageNeutralise_onlyBuf s
  | hdrr => exact guarded_onlyBuf h fun _ => stageRestore_onlyBuf s
  | rcdf => exact guarded_onlyTmp h fun _ => stageRowDiff_onlyTmp s
  | rcdi => exact guarded_onlyBuf h stageRowDiffInv_onlyBuf
  | bmtf => exact guarded_onlyBuf h stageBitTranspose_onlyBuf
  | bmti => exact guarded_onlyTmp h fun _ => stageBitTransposeInv_onlyTmp s
  | zenc chk ty => exact execZenc_memories h
  | zdec ty => exact execZdec_onlyBuf h
  | enc => exact guarded_onlyBufAndTmp h fun ha => stagesEncode_onlyBufAndTmp (acceptFwd_geomOK ha)
  | dec => exact guarded_onlyBufAndTmp h fun ha => stagesDecode_onlyBufAndTmp (acceptInv_geomOK ha)

end Sys2Proof.Machine
end

section
/-!
PROOF. The command byte: the twenty commands and the twenty legal bytes, each the other's (30_encoding.md R50
to R57).
-/

namespace Sys2Proof

/-! ### Bytes and their fields -/

/-- A byte is put together again from its four fields (R50). -/
theorem packByte_splitByte (c : Byte) : packByte (splitByte c) = c := by
  refine BitVec.eq_of_getLsbD_eq fun i hi => ?_
  simp only [packByte, splitByte, BitVec.getLsbD_append, BitVec.getLsbD_extractLsb']
  split_ifs with h1 h2 h3
  · simp [h1]
  · simp [h2, show 4 + (i - 4) = i by omega]
  · simp [h3, show 6 + (i - 4 - 2) = i by omega]
  · simp [show i = 7 by omega]

theorem splitByte_reserved_eq_zero (c : Byte) : (splitByte c).reserved = 0#1 ↔ c.getLsbD 7 = false := by
  rw [splitByte, BitVec.toNat_eq, BitVec.extractLsb'_toNat, BitVec.getLsbD, Nat.testBit_eq_decide_div_mod_eq,
    Nat.shiftRight_eq_div_pow]
  simp

theorem splitByte_chk_eq_zero (c : Byte) : (splitByte c).chk = 0#1 ↔ c.getLsbD 6 = false := by
  rw [splitByte, BitVec.toNat_eq, BitVec.extractLsb'_toNat, BitVec.getLsbD, Nat.testBit_eq_decide_div_mod_eq,
    Nat.shiftRight_eq_div_pow]
  simp

theorem splitByte_wsel_toNat (c : Byte) : (splitByte c).wsel.toNat = c.toNat / 16 % 4 := by
  rw [splitByte, BitVec.extractLsb'_toNat, Nat.shiftRight_eq_div_pow]

theorem splitByte_op_toNat (c : Byte) : (splitByte c).op.toNat = c.toNat % 16 := by
  rw [splitByte, BitVec.extractLsb'_toNat, Nat.shiftRight_zero]

/-! ### Commands and their fields -/

theorem WordType.wsel_decodeWordType (w : BitVec 2) : (decodeWordType w).wsel = w := by
  revert w; decide

theorem ofBool_beq_one (b : BitVec 1) : BitVec.ofBool (b == 1#1) = b := by
  revert b; decide

/-- The four checks of R54, one clause each. -/
theorem CommandFields.wellFormed_iff (f : CommandFields) :
    f.wellFormed = true ↔ f.reserved = 0#1 ∧ (1 ≤ f.op.toNat ∧ f.op.toNat ≤ 10)
      ∧ (f.wsel = 0#2 ∨ f.op = 7#4 ∨ f.op = 8#4) ∧ (f.chk = 0#1 ∨ f.op = 7#4) := by
  simp [wellFormed, reservedClear, opDefined, wselAllowed, chkAllowed, and_assoc, or_assoc]

/-- The ten values of OP that name a command (R51). -/
theorem op_cases {o : BitVec 4} (h : 1 ≤ o.toNat ∧ o.toNat ≤ 10) :
    o = 1#4 ∨ o = 2#4 ∨ o = 3#4 ∨ o = 4#4 ∨ o = 5#4 ∨ o = 6#4 ∨ o = 7#4 ∨ o = 8#4 ∨ o = 9#4 ∨ o = 10#4 := by
  revert o; decide

/-- Well-formed fields are those of a command: the table of R51 names one for each OP, R52 and R53 its
operands. -/
theorem exists_fields_eq {f : CommandFields} (h : f.wellFormed = true) : ∃ i : Instr, i.fields = f := by
  obtain ⟨hr, hop, hwsel, hchk⟩ := f.wellFormed_iff.1 h
  obtain ⟨r, c, w, o⟩ := f
  dsimp only at hr hop hwsel hchk
  subst hr
  rcases op_cases hop with rfl | rfl | rfl | rfl | rfl | rfl | rfl | rfl | rfl | rfl <;> simp at hwsel hchk
  · exact ⟨.hdrn, by rw [hwsel, hchk]; rfl⟩
  · exact ⟨.hdrr, by rw [hwsel, hchk]; rfl⟩
  · exact ⟨.rcdf, by rw [hwsel, hchk]; rfl⟩
  · exact ⟨.rcdi, by rw [hwsel, hchk]; rfl⟩
  · exact ⟨.bmtf, by rw [hwsel, hchk]; rfl⟩
  · exact ⟨.bmti, by rw [hwsel, hchk]; rfl⟩
  · exact ⟨.zenc (c == 1#1) (decodeWordType w), by
      rw [Instr.fields, ofBool_beq_one, WordType.wsel_decodeWordType]⟩
  · exact ⟨.zdec (decodeWordType w), by rw [Instr.fields, hchk, WordType.wsel_decodeWordType]⟩
  · exact ⟨.enc, by rw [hwsel, hchk]; rfl⟩
  · exact ⟨.dec, by rw [hwsel, hchk]; rfl⟩

/-- The decoder reads a command from its fields. -/
theorem decodeOp_fields (i : Instr) : decodeOp i.fields = .ok i := by
  cases i with
  | zenc chk ty => cases chk <;> cases ty <;> rfl
  | zdec ty => cases ty <;> rfl
  | hdrn | hdrr | rcdf | rcdi | bmtf | bmti | enc | dec => rfl

/-! ### Decode and encode -/

/-- What the encoding of every command satisfies, from the lemmas per command. -/
theorem encodesLegally (i : Instr) : Laws.EncodesLegally.Statement i := by
  cases i with
  | hdrn => exact Laws.EncodesLegally.hdrn
  | hdrr => exact Laws.EncodesLegally.hdrr
  | rcdf => exact Laws.EncodesLegally.rcdf
  | rcdi => exact Laws.EncodesLegally.rcdi
  | bmtf => exact Laws.EncodesLegally.bmtf
  | bmti => exact Laws.EncodesLegally.bmti
  | zenc chk ty => exact Laws.EncodesLegally.zenc chk ty
  | zdec ty => exact Laws.EncodesLegally.zdec ty
  | enc => exact Laws.EncodesLegally.enc
  | dec => exact Laws.EncodesLegally.dec

/-- The decoder answers a command exactly for well-formed fields, and then what the table of R51 names. -/
theorem decode_eq_ok_iff (c : Byte) (i : Instr) :
    decode c = .ok i ↔ (splitByte c).wellFormed = true ∧ decodeOp (splitByte c) = .ok i := by
  simp only [decode, CommandFields.wellFormed]
  split_ifs <;> simp_all

theorem decode_encode (i : Instr) : decode (encode i) = .ok i := by
  obtain ⟨hwf, -, hsplit⟩ := encodesLegally i
  rw [decode_eq_ok_iff, hsplit]
  exact ⟨hwf, decodeOp_fields i⟩

theorem encode_of_decode {c : Byte} {i : Instr} (h : decode c = .ok i) : encode i = c := by
  obtain ⟨hwf, hop⟩ := (decode_eq_ok_iff c i).1 h
  obtain ⟨j, hj⟩ := exists_fields_eq hwf
  have hij : i = j := by
    rw [← hj, decodeOp_fields] at hop
    exact (Except.ok.inj hop).symm
  rw [encode, hij, hj, packByte_splitByte]

theorem exists_decode_iff_wellFormed (c : Byte) :
    (∃ i, decode c = .ok i) ↔ (splitByte c).wellFormed = true := by
  constructor
  · rintro ⟨i, hi⟩
    exact ((decode_eq_ok_iff c i).1 hi).1
  · intro h
    obtain ⟨i, hi⟩ := exists_fields_eq h
    exact ⟨i, (decode_eq_ok_iff c i).2 ⟨h, by rw [← hi]; exact decodeOp_fields i⟩⟩

theorem exists_decode_iff_encode (c : Byte) : (∃ i, decode c = .ok i) ↔ ∃ i, encode i = c := by
  constructor
  · rintro ⟨i, hi⟩
    exact ⟨i, encode_of_decode hi⟩
  · rintro ⟨i, rfl⟩
    exact ⟨i, decode_encode i⟩

/-- A byte decodes to a command or is illegal. -/
theorem exists_decode_error {c : Byte} (h : ¬ ∃ i, decode c = .ok i) : ∃ why, decode c = .error why := by
  cases hd : decode c with
  | error why => exact ⟨why, rfl⟩
  | ok i => exact absurd ⟨i, hd⟩ h

/-- A table word of eight bits is the byte (R56). -/
theorem decodeTableWord_of_decode {c : Byte} {i : Instr} (h : decode c = .ok i) :
    decodeTableWord 8 c.toNat = some i := by
  rw [decodeTableWord, Nat.mod_eq_of_lt c.isLt, BitVec.ofNat_toNat, BitVec.setWidth_eq, h]

/-- Settles O14: the decoder reads back the fields that the encoder packs, and well-formed fields are those of
one command alone. -/
theorem decodeAndEncodeAgree : Obligations.DecodeAndEncodeAgree :=
  ⟨fun i => ⟨(encodesLegally i).1, decode_encode i, decodeTableWord_of_decode (decode_encode i)⟩,
    fun _ _ => encode_of_decode⟩

/-- Settles O13: each byte is the encoding of its command. -/
theorem writtenOutBytesDecode : Obligations.WrittenOutBytesDecode :=
  ⟨decode_encode .hdrn, decode_encode .hdrr, decode_encode .rcdf, decode_encode .rcdi, decode_encode .bmtf,
    decode_encode .bmti, decode_encode (.zenc false .u8), decode_encode (.zenc false .u16),
    decode_encode (.zenc false .u32), decode_encode (.zenc false .u64), decode_encode (.zenc true .u8),
    decode_encode (.zenc true .u16), decode_encode (.zenc true .u32), decode_encode (.zenc true .u64),
    decode_encode (.zdec .u8), decode_encode (.zdec .u16), decode_encode (.zdec .u32),
    decode_encode (.zdec .u64), decode_encode .enc, decode_encode .dec⟩

/-! ### The illegal bytes -/

/-- The four conditions of R54 on a byte. -/
def MeetsR54 (c : Byte) : Prop :=
  c.getLsbD 7 = true
    ∨ (c.toNat % 16 = 0 ∨ 0xB ≤ c.toNat % 16)
    ∨ (c.toNat / 16 % 4 ≠ 0 ∧ c.toNat % 16 ≠ 7 ∧ c.toNat % 16 ≠ 8)
    ∨ (c.getLsbD 6 = true ∧ c.toNat % 16 ≠ 7)

theorem wellFormed_splitByte_iff (c : Byte) : (splitByte c).wellFormed = true ↔ ¬ MeetsR54 c := by
  have hop (n : Nat) (hn : n < 16) : (splitByte c).op = BitVec.ofNat 4 n ↔ c.toNat % 16 = n := by
    rw [BitVec.toNat_eq, splitByte_op_toNat, BitVec.toNat_ofNat, Nat.mod_eq_of_lt hn]
  have hwsel : (splitByte c).wsel = 0#2 ↔ c.toNat / 16 % 4 = 0 := by
    rw [BitVec.toNat_eq, splitByte_wsel_toNat]; rfl
  rw [CommandFields.wellFormed_iff, splitByte_reserved_eq_zero, splitByte_op_toNat, hwsel, hop 7 (by decide),
    hop 8 (by decide), splitByte_chk_eq_zero, MeetsR54, not_or, not_or, not_or, not_or,
    Bool.not_eq_true]
  refine and_congr Iff.rfl (and_congr (by omega) (and_congr (by omega) ?_))
  cases c.getLsbD 6 <;> simp

/-- The twenty commands, in the order of the statement's list of bytes. -/
def allCommands : List Instr :=
  [.hdrn, .hdrr, .rcdf, .rcdi, .bmtf, .bmti, .enc, .dec,
    .zenc false .u8, .zenc false .u16, .zenc false .u32, .zenc false .u64,
    .zenc true .u8, .zenc true .u16, .zenc true .u32, .zenc true .u64,
    .zdec .u8, .zdec .u16, .zdec .u32, .zdec .u64]

theorem mem_allCommands (i : Instr) : i ∈ allCommands := by
  cases i with
  | zenc chk ty => cases chk <;> cases ty <;> decide
  | zdec ty => cases ty <;> decide
  | hdrn | hdrr | rcdf | rcdi | bmtf | bmti | enc | dec => decide

/-- The legal bytes are the encodings of the twenty commands. -/
theorem exists_decode_iff_mem (c : Byte) :
    (∃ i, decode c = .ok i) ↔ c.toNat ∈ allCommands.map (fun i => (encode i).toNat) := by
  rw [exists_decode_iff_encode, List.mem_map]
  constructor
  · rintro ⟨i, rfl⟩
    exact ⟨i, mem_allCommands i, rfl⟩
  · rintro ⟨i, -, h⟩
    exact ⟨i, BitVec.eq_of_toNat_eq h⟩

end Sys2Proof

namespace Sys2Proof.Machine

theorem step_writeCmd_illegal {s : State} {c : Byte} {rest : List HostAccess} {why : IllegalByte}
    (h : s.pending = .writeCmd c :: rest) (hd : decode c = .error why) :
    step s = .next { s with pending := rest, cmd := c, status := 5#8 } := by
  rw [step_of_cons h, serve, runCommand_of_error hd]
  rfl

/-- Settles O12: the conditions of R54 are those of ill-formed fields. -/
theorem illegalBytesOnlySetStatus : Obligations.IllegalBytesOnlySetStatus := by
  have hlegal (c : Byte) : ¬ MeetsR54 c ↔ ∃ i, decode c = .ok i := by
    rw [exists_decode_iff_wellFormed, wellFormed_splitByte_iff]
  refine ⟨fun s c rest hp hc => ?_, hlegal, exists_decode_iff_mem⟩
  obtain ⟨why, hwhy⟩ := exists_decode_error fun hd => (hlegal c).2 hd hc
  exact ⟨⟨why, hwhy⟩, step_writeCmd_illegal hp hwhy⟩

end Sys2Proof.Machine
end

section
/-!
PROOF. Component B: the header as a list of required fields, the two header checks in terms of them, and what
HDRN and HDRR leave in them (30_encoding.md R58 and R60, 40_header.md R70 to R76).
-/

namespace Sys2Proof.Machine

/-! ### Fields as unsigned values -/

/-- Byte `k` of a natural, as MemWrite stores it. -/
theorem ofNat_div_eq_ofInt (v k : Nat) :
    BitVec.ofNat 8 (v / 256 ^ k) = BitVec.ofInt 8 ((v : Int) / 256 ^ k) := by
  rw [← BitVec.ofInt_natCast]
  push_cast
  rfl

/-- A little-endian value names the bytes of its field. -/
theorem readLE_eq_iff {rd : Nat → Byte} {a n v : Nat} (hv : v < 256 ^ n) :
    readLE rd a n = v ↔ ∀ x, a ≤ x → x < a + n → rd x = BitVec.ofNat 8 (v / 256 ^ (x - a)) := by
  constructor
  · rintro rfl x h1 h2
    have hbyte := readLE_byte rd a n (x - a) (by omega)
    apply BitVec.eq_of_toNat_eq
    rw [BitVec.toNat_ofNat, hbyte, Nat.add_sub_cancel' h1]
  · intro h
    -- the same bytes as those of a write of `v`
    have hwrite : ∀ x, a ≤ x → x < a + n → rd x = Memory.read rd (writeLE [] a n v) x := fun x h1 h2 => by
      rw [h x h1 h2, Memory.read_writeLE, if_pos ⟨h1, h2⟩, ofNat_div_eq_ofInt]
    have hread := readLE_of_writeLE rd [] a n v
    rw [← readLE_congr hwrite] at hread
    rw [Int.emod_eq_of_lt (by positivity) (by exact_mod_cast hv)] at hread
    exact_mod_cast hread

theorem readLE_one (rd : Nat → Byte) (a : Nat) : readLE rd a 1 = (rd a).toNat := by
  simp [readLE]

/-- A signed field and its unsigned value agree modulo `2^32`. -/
theorem get32_add_emod (rd : Nat → Byte) (a : Nat) (d : Int) :
    (get32 rd a + d) % 256 ^ 4 = (readLE rd a 4 + d) % 256 ^ 4 := by
  unfold get32 asI32
  split <;> omega

theorem get32_add_mul_emod (rd : Nat → Byte) (a b : Nat) (e : Int) :
    (get32 rd a + e * get32 rd b) % 256 ^ 4 = (readLE rd a 4 + e * readLE rd b 4) % 256 ^ 4 := by
  have hb : get32 rd b ≡ readLE rd b 4 [ZMOD 256 ^ 4] := by
    have := get32_add_emod rd b 0
    rwa [Int.add_zero, Int.add_zero] at this
  rw [get32_add_emod]
  exact (hb.mul_left e).add_left _

/-- A signed field below `2^31` is its unsigned value. -/
theorem get32_eq_iff_readLE {rd : Nat → Byte} {a v : Nat} (hv : v < 2147483648) :
    get32 rd a = (v : Int) ↔ readLE rd a 4 = v := by
  have := readLE_lt rd a 4
  unfold get32 asI32
  split <;> omega

theorem readLE_writeLE_ne (u : Nat → Byte) (m : Memory) {a n b k : Nat} (v : Int) (h : a + n ≤ b ∨ b + k ≤ a) :
    readLE (Memory.read u (writeLE m a n v)) b k = readLE (Memory.read u m) b k :=
  readLE_congr fun _ _ _ => Memory.read_writeLE_ne u m v (by omega)

/-! ### The required fields -/

/-- A header field with a required value. -/
structure RequiredField where
  offset : Nat
  width  : Nat
  value  : Nat

/-- The offset lies in the field. -/
def RequiredField.Covers (f : RequiredField) (x : Nat) : Prop := f.offset ≤ x ∧ x < f.offset + f.width

/-- The fields with a required value in the header of a buffer of `len` bytes (30_encoding.md R58). -/
def requiredFields (len : Nat) : List RequiredField :=
  [⟨0, 1, 0x42⟩, ⟨1, 1, 0x4D⟩, ⟨2, 4, len⟩, ⟨6, 4, 0⟩, ⟨10, 4, 54⟩, ⟨14, 4, 40⟩, ⟨26, 2, 1⟩, ⟨28, 2, 24⟩,
    ⟨30, 4, 0⟩, ⟨34, 4, len - 54⟩, ⟨46, 4, 0⟩, ⟨50, 4, 0⟩]

/-- A property of every required field, field by field. -/
theorem forall_requiredFields {len : Nat} {P : RequiredField → Prop} :
    (∀ f ∈ requiredFields len, P f)
      ↔ P ⟨0, 1, 0x42⟩ ∧ P ⟨1, 1, 0x4D⟩ ∧ P ⟨2, 4, len⟩ ∧ P ⟨6, 4, 0⟩ ∧ P ⟨10, 4, 54⟩ ∧ P ⟨14, 4, 40⟩
        ∧ P ⟨26, 2, 1⟩ ∧ P ⟨28, 2, 24⟩ ∧ P ⟨30, 4, 0⟩ ∧ P ⟨34, 4, len - 54⟩ ∧ P ⟨46, 4, 0⟩ ∧ P ⟨50, 4, 0⟩ := by
  simp [requiredFields]

theorem requiredField_value_lt {len : Nat} (hl : len < 2147483648) :
    ∀ f ∈ requiredFields len, f.value < 256 ^ f.width := by
  rw [forall_requiredFields]
  and_intros <;> dsimp only <;> omega

/-- The required fields lie in the header and leave W, H and the two resolutions free. -/
theorem not_freeField_of_covers (len : Nat) :
    ∀ f ∈ requiredFields len, ∀ x, f.Covers x → x < 54 ∧ ¬ freeField x := by
  simp only [forall_requiredFields, RequiredField.Covers, freeField]
  and_intros <;> intro x hx <;> omega

/-- Every other offset of the header lies in a required field. -/
theorem exists_requiredField (len : Nat) {x : Nat} (hx : x < 54) (hf : ¬ freeField x) :
    ∃ f ∈ requiredFields len, f.Covers x := by
  simp only [requiredFields, RequiredField.Covers, freeField, List.mem_cons, List.not_mem_nil, or_false,
    exists_eq_or_imp, exists_eq_left] at *
  omega

/-- The bytes of `rawHeader` are those of the required values. -/
theorem rawHeader_of_covers (len : Nat) : ∀ f ∈ requiredFields len, ∀ x, f.Covers x →
    rawHeader len x = BitVec.ofNat 8 (f.value / 256 ^ (x - f.offset)) := by
  simp only [forall_requiredFields, RequiredField.Covers, rawHeader]
  and_intros <;> rintro x ⟨h1, h2⟩ <;> interval_cases x <;> rfl

/-- Header bytes that are those of some value in each required field: byte by byte, or field by field. -/
theorem headerBytes_iff {len : Nat} {rd b : Nat → Byte} {v : RequiredField → Nat}
    (hb : ∀ f ∈ requiredFields len, ∀ x, f.Covers x → b x = BitVec.ofNat 8 (v f / 256 ^ (x - f.offset)))
    (hv : ∀ f ∈ requiredFields len, v f < 256 ^ f.width) :
    (∀ a, a < 54 → ¬ freeField a → rd a = b a)
      ↔ ∀ f ∈ requiredFields len, readLE rd f.offset f.width = v f := by
  constructor
  · intro h f hf
    rw [readLE_eq_iff (hv f hf)]
    intro x h1 h2
    obtain ⟨hx, hfree⟩ := not_freeField_of_covers len f hf x ⟨h1, h2⟩
    rw [h x hx hfree, hb f hf x ⟨h1, h2⟩]
  · intro h a ha hfree
    obtain ⟨f, hf, h1, h2⟩ := exists_requiredField len ha hfree
    rw [hb f hf a ⟨h1, h2⟩]
    exact (readLE_eq_iff (hv f hf)).1 (h f hf) a h1 h2

theorem rawHeader_iff {len : Nat} (hl : len < 2147483648) {rd : Nat → Byte} :
    (∀ a, a < 54 → ¬ freeField a → rd a = rawHeader len a)
      ↔ ∀ f ∈ requiredFields len, readLE rd f.offset f.width = f.value :=
  headerBytes_iff (rawHeader_of_covers len) (requiredField_value_lt hl)

theorem zeroHeader_iff (len : Nat) {rd : Nat → Byte} :
    (∀ a, a < 54 → ¬ freeField a → rd a = 0#8)
      ↔ ∀ f ∈ requiredFields len, readLE rd f.offset f.width = 0 :=
  headerBytes_iff (b := fun _ => 0#8) (v := fun _ => 0) (fun _ _ _ _ => by simp) fun _ _ => by positivity

/-! ### The checks -/

theorem byte_eq_iff_readLE (rd : Nat → Byte) (a : Nat) (b : Byte) : rd a = b ↔ readLE rd a 1 = b.toNat := by
  rw [readLE_one, BitVec.toNat_inj]

/-- AcceptFwd: GeomOK and the required fields (40_header.md R71). -/
theorem acceptFwd_iff_fields {s : State} (hl : s.len.toNat < 2147483648) :
    acceptFwd s = true ↔ geomOK s = true
      ∧ ∀ f ∈ requiredFields s.len.toNat, readLE (s.byte .buf) f.offset f.width = f.value := by
  have byte := byte_eq_iff_readLE (s.byte .buf)
  have field := @get32_eq_iff_readLE (s.byte .buf)
  rw [acceptFwd_iff, geomOK_iff, forall_requiredFields]
  dsimp only
  constructor
  · rintro ⟨h54, b0, b1, f6, f10, f14, f26, f28, f30, f46, f50, hw, hh, f2, f34, hlen⟩
    have hgeom : 54 + s.geom.h * s.geom.stride = s.len.toNat := by
      rw [f2] at hlen
      exact_mod_cast hlen
    rw [show s.geom.h * s.geom.stride = s.len.toNat - 54 by omega] at f34
    exact ⟨⟨h54, hw, hh, hgeom⟩, (byte 0 _).1 b0, (byte 1 _).1 b1, (field hl).1 hlen,
      (field (by omega)).1 f6, (field (by omega)).1 f10, (field (by omega)).1 f14, Int.ofNat.inj f26,
      Int.ofNat.inj f28, (field (by omega)).1 f30, (field (by omega)).1 f34, (field (by omega)).1 f46,
      (field (by omega)).1 f50⟩
  · rintro ⟨⟨h54, hw, hh, hgeom⟩, b0, b1, f2, f6, f10, f14, f26, f28, f30, f34, f46, f50⟩
    rw [hgeom, show s.geom.h * s.geom.stride = s.len.toNat - 54 by omega]
    exact ⟨h54, (byte 0 _).2 b0, (byte 1 _).2 b1, (field (by decide)).2 f6, (field (by decide)).2 f10,
      (field (by decide)).2 f14, congrArg Int.ofNat f26, congrArg Int.ofNat f28, (field (by decide)).2 f30,
      (field (by decide)).2 f46, (field (by decide)).2 f50, hw, hh, (field hl).2 f2, (field (by omega)).2 f34,
      (field hl).2 f2⟩

/-- AcceptInv: GeomOK, and zero in the required fields (40_header.md R73). -/
theorem acceptInv_iff_fields (s : State) :
    acceptInv s = true ↔ geomOK s = true
      ∧ ∀ f ∈ requiredFields s.len.toNat, readLE (s.byte .buf) f.offset f.width = 0 := by
  have byte (a : Nat) : s.byte .buf a = 0#8 ↔ readLE (s.byte .buf) a 1 = 0 := byte_eq_iff_readLE _ a _
  have field (a : Nat) : get32 (s.byte .buf) a = 0 ↔ readLE (s.byte .buf) a 4 = 0 :=
    get32_eq_iff_readLE (v := 0) (by omega)
  have field16 (a : Nat) : get16 (s.byte .buf) a = 0 ↔ readLE (s.byte .buf) a 2 = 0 := Int.ofNat_inj
  rw [acceptInv_iff, forall_requiredFields, byte, byte, field, field, field, field, field, field, field, field,
    field16, field16]
  constructor
  · rintro ⟨-, b0, b1, f2, f6, f10, f14, f26, f28, f30, f34, f46, f50, hg⟩
    exact ⟨hg, b0, b1, f2, f6, f10, f14, f26, f28, f30, f34, f46, f50⟩
  · rintro ⟨hg, b0, b1, f2, f6, f10, f14, f26, f28, f30, f34, f46, f50⟩
    exact ⟨geomOK_len_ge hg, b0, b1, f2, f6, f10, f14, f26, f28, f30, f34, f46, f50, hg⟩

theorem len_lt_of_fits {s : State} (h : s.len.toNat ≤ s.params.bufCap) : s.len.toNat < 2147483648 := by
  have := s.params.bufCap_le
  omega

/-- Settles O24: the bytes of the required fields are those of `rawHeader`. -/
theorem validatorAcceptsTheBmpSubset : Obligations.ValidatorAcceptsTheBmpSubset := by
  intro s hl
  have hlt := len_lt_of_fits hl
  rw [acceptFwd_iff_fields hlt, rawHeader_iff hlt]

/-- Settles O26: the fields are at least 1, so the naturals of the geometry are their values. -/
theorem geometryFitsTheBuffer : Obligations.GeometryFitsTheBuffer := by
  intro s
  constructor
  · intro h
    obtain ⟨h54, hw, hh, hlen⟩ := (geomOK_iff s).1 h
    exact ⟨h54, hw, hh, (geomOK_width h).1, (geomOK_height h).1, hlen, s.geom.stride_mod, s.geom.stride_ge,
      s.geom.stride_lt⟩
  · rintro ⟨h54, hw, hh, -, -, hlen, -, -, -⟩
    exact (geomOK_iff s).2 ⟨h54, hw, hh, hlen⟩

/-! ### The two transforms -/

/-- Both transforms of component B: `e` times the required values added to their fields, and `e` times the
x-resolution added to the y-resolution. -/
def shiftedHeader (rd : Nat → Byte) (len : Nat) (e : Int) (m : Memory) : Memory :=
  headerWith m ((rd 0).toNat + e * 0x42) ((rd 1).toNat + e * 0x4D) (get32 rd 2 + e * len)
    (get32 rd 10 + e * 54) (get32 rd 14 + e * 40) (get16 rd 26 + e * 1) (get16 rd 28 + e * 24)
    (get32 rd 34 + e * (len - 54 : Nat)) (get32 rd 42 + e * get32 rd 38)

theorem stageNeutralise_byte {s : State} (hg : geomOK s = true) :
    (stageNeutralise s).byte .buf
      = Memory.read (s.unwritten .buf) (shiftedHeader (s.byte .buf) s.len.toNat (-1) s.buf) := by
  have hlen := geomOK_len hg
  funext a
  rw [stageNeutralise, State.setMem_byte_self, neutraliseHeader_eq, Nat.add_comm _ 54, hlen,
    show s.geom.h * s.geom.stride = s.len.toNat - 54 by omega]
  simp only [shiftedHeader, neg_one_mul]
  rfl

theorem stageRestore_byte {s : State} (hg : geomOK s = true) :
    (stageRestore s).byte .buf
      = Memory.read (s.unwritten .buf) (shiftedHeader (s.byte .buf) s.len.toNat 1 s.buf) := by
  have hlen := geomOK_len hg
  funext a
  rw [stageRestore, State.setMem_byte_self, restoreHeader_eq, Nat.add_comm _ 54, hlen,
    show s.geom.h * s.geom.stride = s.len.toNat - 54 by omega]
  simp only [shiftedHeader, one_mul]
  rfl

/-- The required fields after the nine writes: each is written at most once, and no write meets another. -/
theorem readLE_shiftedHeader (u : Nat → Byte) (len : Nat) (e : Int) (m : Memory) :
    ∀ f ∈ requiredFields len,
      (readLE (Memory.read u (shiftedHeader (Memory.read u m) len e m)) f.offset f.width : Int)
        = (readLE (Memory.read u m) f.offset f.width + e * f.value) % 256 ^ f.width := by
  have hkept (a : Nat) : (readLE (Memory.read u m) a 4 : Int)
      = (readLE (Memory.read u m) a 4 + e * (0 : Nat)) % 256 ^ 4 := by
    have := readLE_lt (Memory.read u m) a 4
    omega
  rw [forall_requiredFields]
  simp (disch := decide) only [shiftedHeader, headerWith, readLE_writeLE_ne, readLE_of_writeLE, get32_add_emod,
    get16, ← readLE_one (Memory.read u m)]
  exact ⟨rfl, rfl, trivial, hkept 6, rfl, rfl, rfl, rfl, hkept 30, trivial, hkept 46, hkept 50⟩

theorem readLE_shiftedHeader_yres (u : Nat → Byte) (len : Nat) (e : Int) (m : Memory) :
    (readLE (Memory.read u (shiftedHeader (Memory.read u m) len e m)) 42 4 : Int)
      = (readLE (Memory.read u m) 42 4 + e * readLE (Memory.read u m) 38 4) % 256 ^ 4 := by
  rw [shiftedHeader, headerWith, readLE_of_writeLE, get32_add_mul_emod]

/-- What component B forward leaves on an accepted header (30_encoding.md R60). -/
theorem stageNeutralise_headerNeutralised {s : State} (hl : s.len.toNat ≤ s.params.bufCap)
    (ha : acceptFwd s = true) : HeaderNeutralised s (stageNeutralise s) := by
  obtain ⟨hg, hreq⟩ := (acceptFwd_iff_fields (len_lt_of_fits hl)).1 ha
  refine ⟨(zeroHeader_iff s.len.toNat).2 fun f hf => ?_, fun a _ _ => stageNeutralise_frame s (by omega),
    fun a _ _ => stageNeutralise_frame s (by omega), ?_⟩
  · have h : (readLE ((stageNeutralise s).byte .buf) f.offset f.width : Int)
        = (readLE (s.byte .buf) f.offset f.width + -1 * f.value) % 256 ^ f.width := by
      rw [stageNeutralise_byte hg]
      exact readLE_shiftedHeader _ _ _ _ f hf
    rw [hreq f hf, neg_one_mul, add_neg_cancel, Int.zero_emod] at h
    exact_mod_cast h
  · have h : (readLE ((stageNeutralise s).byte .buf) 42 4 : Int)
        = (readLE (s.byte .buf) 42 4 + -1 * readLE (s.byte .buf) 38 4) % 256 ^ 4 := by
      rw [stageNeutralise_byte hg]
      exact readLE_shiftedHeader_yres _ _ _ _
    have := readLE_lt (s.byte .buf) 38 4
    omega

/-- What component B inverse leaves on an accepted neutralised header (40_header.md R76). -/
theorem stageRestore_headerRestored {s : State} (hl : s.len.toNat ≤ s.params.bufCap)
    (ha : acceptInv s = true) : HeaderRestored s (stageRestore s) := by
  obtain ⟨hg, hzero⟩ := (acceptInv_iff_fields s).1 ha
  have hlt := len_lt_of_fits hl
  refine ⟨(rawHeader_iff hlt).2 fun f hf => ?_, fun a _ _ => stageRestore_frame s (by omega),
    fun a _ _ => stageRestore_frame s (by omega), ?_⟩
  · have h : (readLE ((stageRestore s).byte .buf) f.offset f.width : Int)
        = (readLE (s.byte .buf) f.offset f.width + 1 * f.value) % 256 ^ f.width := by
      rw [stageRestore_byte hg]
      exact readLE_shiftedHeader _ _ _ _ f hf
    have hv : (f.value : Int) < 256 ^ f.width := by exact_mod_cast requiredField_value_lt hlt f hf
    rw [hzero f hf, one_mul, Nat.cast_zero, zero_add, Int.emod_eq_of_lt (by positivity) hv] at h
    exact_mod_cast h
  · have h : (readLE ((stageRestore s).byte .buf) 42 4 : Int)
        = (readLE (s.byte .buf) 42 4 + 1 * readLE (s.byte .buf) 38 4) % 256 ^ 4 := by
      rw [stageRestore_byte hg]
      exact readLE_shiftedHeader_yres _ _ _ _
    omega

/-! ### The two commands -/

theorem HeaderNeutralised.setCode {s t : State} (h : HeaderNeutralised s t) (c : Code) :
    HeaderNeutralised s (t.setCode c) := by
  rwa [HeaderNeutralised, State.setCode_byte]

theorem HeaderRestored.setCode {s t : State} (h : HeaderRestored s t) (c : Code) :
    HeaderRestored s (t.setCode c) := by
  rwa [HeaderRestored, State.setCode_byte]

theorem KeptOutside.setCode {m : MemId} {lo hi : Nat} {s t : State} (h : KeptOutside m lo hi s t) (c : Code) :
    KeptOutside m lo hi s (t.setCode c) := by
  rwa [KeptOutside, State.setCode_byte]

/-- A command that has run a transform of BUF alone changes BUF and STATUS. -/
theorem State.setCode_ok_of_keeps_buf {s t : State} (h : t = { s with buf := t.buf }) :
    t.setCode .ok = { s with buf := (t.setCode .ok).buf, status := 0#8 } :=
  congrArg (State.setCode · .ok) h

/-- Settles O27: the checks pass, and the transform subtracts from each required field its value. -/
theorem hdrnNeutralisesTheHeader : Obligations.HdrnNeutralisesTheHeader := by
  intro s hl ha
  have hrun := guarded_run stageNeutralise hl (geomOK_len_ge (acceptFwd_geomOK ha)) ha
  obtain ⟨-, -, -, hkept⟩ := stageNeutralise_onlyBuf s
  exact ⟨_, hrun, (stageNeutralise_headerNeutralised hl ha).setCode .ok, hkept.setCode .ok,
    State.setCode_ok_of_keeps_buf (stageNeutralise_keeps s)⟩

/-- Settles O28: the checks pass, and the transform adds to each required field, which is zero, its value. -/
theorem hdrrRestoresTheHeader : Obligations.HdrrRestoresTheHeader := by
  intro s hl ha
  have hrun := guarded_run stageRestore hl (geomOK_len_ge (acceptInv_geomOK ha)) ha
  obtain ⟨-, -, -, hkept⟩ := stageRestore_onlyBuf s
  exact ⟨_, hrun, (stageRestore_headerRestored hl ha).setCode .ok, hkept.setCode .ok,
    State.setCode_ok_of_keeps_buf (stageRestore_keeps s)⟩

end Sys2Proof.Machine
end

section
/-!
PROOF. Component D: the butterfly as a permutation of bits, and what BMTF leaves in BUF (30_encoding.md R62,
42_bit_transpose.md R91 to R94).
-/

namespace Sys2Proof.Machine

/-! ### The butterfly, bit by bit -/

/-- The bit that a layer of the butterfly moves to place `p`: a masked place and the one `k` above it swap. -/
def swapSource (k : Nat) (mask : BitVec 64) (p : Nat) : Nat :=
  if mask.getLsbD p then p + k else if k ≤ p ∧ mask.getLsbD (p - k) then p - k else p

/-- A layer permutes the bits when no masked place is the partner of another. -/
theorem getLsbD_swapLayer {k : Nat} {mask : BitVec 64}
    (hmask : ∀ p, p < 64 → mask.getLsbD p = true → k ≤ p → mask.getLsbD (p - k) = false) (x : BitVec 64)
    {p : Nat} (hp : p < 64) : (swapLayer k mask x).getLsbD p = x.getLsbD (swapSource k mask p) := by
  simp only [swapLayer, swapSource, BitVec.getLsbD_xor, BitVec.getLsbD_and, BitVec.getLsbD_ushiftRight,
    BitVec.getLsbD_shiftLeft, hp, decide_true, Bool.true_and]
  cases hm : mask.getLsbD p with
  | true =>
    -- a masked place takes the bit above it
    have hlow := hmask p hp hm
    by_cases hk : k ≤ p
    · simp [hlow hk, Nat.add_comm k p]
    · simp [Nat.lt_of_not_le hk, Nat.add_comm k p]
  | false =>
    by_cases hk : k ≤ p
    · cases mask.getLsbD (p - k) <;> simp [hk, Nat.not_lt.2 hk, Bool.xor_comm (x.getLsbD (p - k))]
    · simp [hk, Nat.lt_of_not_le hk]

/-- The place that the three layers read for place `p`. -/
def transposeSource (p : Nat) : Nat :=
  swapSource 7 0x00AA00AA00AA00AA#64 (swapSource 14 0x0000CCCC0000CCCC#64 (swapSource 28 0x00000000F0F0F0F0#64 p))

theorem getLsbD_transpose8_source (x : BitVec 64) {p : Nat} (hp : p < 64) :
    (transpose8 x).getLsbD p = x.getLsbD (transposeSource p) := by
  have h28 : swapSource 28 0x00000000F0F0F0F0#64 p < 64 := by revert p; decide
  have h14 : swapSource 14 0x0000CCCC0000CCCC#64 (swapSource 28 0x00000000F0F0F0F0#64 p) < 64 := by
    revert p; decide
  rw [transpose8, getLsbD_swapLayer (by decide) _ hp, getLsbD_swapLayer (by decide) _ h28,
    getLsbD_swapLayer (by decide) _ h14, transposeSource]

/-- Row and column change places (42_bit_transpose.md R91). -/
theorem transposeSource_eq : ∀ j, j < 8 → ∀ i, i < 8 → transposeSource (8 * j + i) = 8 * i + j := by
  decide

/-- The butterfly is the transpose (42_bit_transpose.md R91). -/
theorem getLsbD_transpose8 (x : BitVec 64) {i j : Nat} (hi : i < 8) (hj : j < 8) :
    (transpose8 x).getLsbD (8 * j + i) = x.getLsbD (8 * i + j) := by
  rw [getLsbD_transpose8_source x (by omega), transposeSource_eq j hj i hi]

/-! ### Bits of slabs -/

theorem getLsbD_wordByte (z : BitVec 64) (j : Nat) {b : Nat} (hb : b < 8) :
    (wordByte z j).getLsbD b = z.getLsbD (8 * j + b) := by
  rw [wordByte, BitVec.getLsbD_extractLsb', decide_eq_true hb, Bool.true_and]

/-- Bit `8*b + j` of a group's word is bit `j` of the group's byte `b` (42_bit_transpose.md R92). -/
theorem getLsbD_groupWord (rd : Nat → Byte) (i : Nat) {b j : Nat} (hb : b < 8) (hj : j < 8) :
    (groupWord rd i).getLsbD (8 * b + j) = (rd (8 * i + b)).getLsbD j := by
  rw [groupWord, BitVec.getLsbD_ofNat, decide_eq_true (by omega), Bool.true_and,
    readLE_testBit rd _ _ _ _ hb hj]

/-! ### What the stage leaves -/

/-- The slabs and the remainder (30_encoding.md R62). -/
theorem stageBitTranspose_slabsOf (s : State) : SlabsOf s.geom s (stageBitTranspose s) := by
  refine ⟨fun i j b hi hj hb => ?_, fun k hk => stageBitTranspose_extra s hk⟩
  have haddr : 54 + j * s.geom.groups + i = s.geom.slabAddr j i := by rw [Geom.slabAddr_eq]; omega
  rw [haddr, stageBitTranspose_slab s hj hi, getLsbD_wordByte _ _ hb, getLsbD_transpose8 _ hb hj,
    getLsbD_groupWord _ _ hb hj]

/-- The tail (42_bit_transpose.md R93). -/
theorem stageBitTranspose_tailZero (s : State) : TailZero s.geom (stageBitTranspose s) := by
  intro a h1 h2
  rw [stageBitTranspose_len] at h1
  exact stageBitTranspose_tail s h2 h1

theorem SlabsOf.setCode {g : Geom} {s t : State} (h : SlabsOf g s t) (c : Code) :
    SlabsOf g s (t.setCode c) := by
  rwa [SlabsOf, State.setCode_byte]

theorem TailZero.setCode {g : Geom} {t : State} (h : TailZero g t) (c : Code) : TailZero g (t.setCode c) := by
  rwa [TailZero, State.setCode_byte]

/-- Settles O38: the checks pass, and the stage's bytes are the transposed groups, the remainder and the tail. -/
theorem bmtfWritesBitPlaneSlabs : Obligations.BmtfWritesBitPlaneSlabs := by
  intro s hl hg
  have hrun := guarded_run stageBitTranspose hl (geomOK_len_ge hg) hg
  obtain ⟨-, -, -, hkept⟩ := stageBitTranspose_onlyBuf hg
  exact ⟨_, hrun, (stageBitTranspose_slabsOf s).setCode .ok, (stageBitTranspose_tailZero s).setCode .ok,
    hkept.setCode .ok, State.setCode_ok_of_keeps_buf (stageBitTranspose_keeps s)⟩

end Sys2Proof.Machine
end

section
/-!
PROOF. Component E: the words that a ZENC that runs leaves in DNS and BMAP (30_encoding.md R63,
43_zero_elimination.md R100 to R103).
-/

namespace Sys2Proof.Machine

/-- A word whose bytes a memory lists is read back. -/
theorem readLE_of_lookup {u : Nat → Byte} {m : Memory} {a n v : Nat} (hv : v < 256 ^ n)
    (h : ∀ x, x < n → Memory.lookup m (a + x) = some (BitVec.ofInt 8 ((v : Int) / 256 ^ x))) :
    readLE (Memory.read u m) a n = v := by
  rw [readLE_eq_iff hv]
  intro x h1 h2
  have hx := h (x - a) (by omega)
  rw [Nat.add_sub_cancel' h1] at hx
  rw [Memory.read, hx, ofNat_div_eq_ofInt]

theorem two_pow_wordBits (ty : WordType) : 2 ^ wordBits ty = 256 ^ wordBytes ty := by
  rw [wordBits, pow_mul]; norm_num

/-- A group's bitmap word is a word of its type. -/
theorem groupBits_lt (ty : WordType) (word : Nat → Nat) (n i : Nat) :
    groupBits ty word n i (wordBits ty) < 256 ^ wordBytes ty := by
  rw [← two_pow_wordBits]
  refine Nat.lt_pow_two_of_testBit _ fun j hj => ?_
  rw [testBit_groupBits, decide_eq_false (by omega), Bool.false_and]

/-- An encode that does not fail had the capacity for every nonzero word (43_zero_elimination.md R103). -/
theorem fits_of_zeEncode {ty : WordType} {word : Nat → Nat} {n : Nat} {cap? : Option Nat} {dns bmap : Memory}
    {r : EncodeAcc} (h : zeEncode ty word n cap? dns bmap = some r) :
    ∀ cap, cap? = some cap → nonzeroCount word n ≤ cap := fun cap e => by
  by_contra hlt
  rw [(zeEncode_spec ty word n cap? dns bmap).2 ⟨cap, e, by omega⟩] at h
  cases h

/-- The memories that an encode leaves hold the encoding of the word stream. -/
theorem encodedAs_of_zeEncode {ty : WordType} {s : State} {cap? : Option Nat} {r : EncodeAcc} (v : Word)
    (h : zeEncode ty (s.zeWord ty) s.zn.toNat cap? s.dns s.bmap = some r) :
    EncodedAs ty s { s with dns := r.dns, bmap := r.bmap, zlen := v } := by
  obtain ⟨r', hr', -, hdense, habove, hbits, hbabove, -⟩ := (zeEncode_spec ..).1 (fits_of_zeEncode h)
  obtain rfl : r = r' := Option.some.inj (h.symm.trans hr')
  refine ⟨fun k hk hne => ?_, fun i j hi hj => ?_, fun a ha => ?_, fun a ha => ?_⟩
  · exact readLE_of_lookup (readLE_lt ..) (hdense k hk hne)
  · have hword : State.bitmapWord { s with dns := r.dns, bmap := r.bmap, zlen := v } ty i
        = groupBits ty (s.zeWord ty) s.zn.toNat i (wordBits ty) :=
      readLE_of_lookup (groupBits_lt ..) (hbits i hi)
    rw [hword, testBit_groupBits, decide_eq_true hj, Bool.true_and]
  · exact Memory.read_eq_of_lookup (habove a (ha.resolve_left (Nat.not_lt_zero a)))
  · exact Memory.read_eq_of_lookup (hbabove a (ha.resolve_left (Nat.not_lt_zero a)))

/-- A ZENC that is unchecked or within ZCAP runs the encode. -/
theorem execZenc_run {chk : Bool} {ty : WordType} {s : State}
    (hr : s.zbase.toNat + s.zn.toNat * wordBytes ty ≤ s.params.bufCap)
    (hcap : chk = true → nonzeroBelow s ty s.zn.toNat ≤ s.zcap.toNat) :
    ∃ r, zeEncode ty (s.zeWord ty) s.zn.toNat (s.capOf chk) s.dns s.bmap = some r
      ∧ r.pos = nonzeroBelow s ty s.zn.toNat
      ∧ execZenc chk ty s
          = .next (State.setCode { s with dns := r.dns, bmap := r.bmap, zlen := BitVec.ofNat 32 r.pos } .ok) := by
  rcases execZenc_cases chk ty s with ⟨hlt, -⟩ | ⟨-, hchk, hlt, -⟩ | ⟨-, -, hrun⟩
  · omega
  · exact absurd (hcap hchk) (Nat.not_le.2 hlt)
  · exact hrun

theorem EncodedAs.setCode {ty : WordType} {s t : State} (h : EncodedAs ty s t) (c : Code) :
    EncodedAs ty s (t.setCode c) := h

/-- Settles O44: the command runs the encode, whose memories and dense length are those of the word stream. -/
theorem zencEncodesTheWordStream : Obligations.ZencEncodesTheWordStream := by
  intro s chk ty hr hcap
  obtain ⟨r, hre, hpos, hrun⟩ := execZenc_run hr hcap
  refine ⟨_, hrun, (encodedAs_of_zeEncode _ hre).setCode .ok, ?_, rfl⟩
  have hle : nonzeroBelow s ty s.zn.toNat ≤ s.zn.toNat := nonzeroCount_le _ _
  rw [State.setCode_zlen, hpos, BitVec.toNat_ofNat, Nat.mod_eq_of_lt (by omega)]

end Sys2Proof.Machine
end

section
/-!
PROOF. ENC: the bytes that each of its three stages leaves, carried through the later ones (30_encoding.md R60 and
R62, 41_rowdiff_tcms.md R82 and R86, 44_pipeline.md R110).
-/

namespace Sys2Proof.Machine

/-! ### Component C in byte arithmetic -/

theorem tcms_setWidth (b : Byte) : tcms (b.setWidth 32) = fold8 b := by
  rw [tcms_eq_low, low_of_byte, fold8]

theorem pixelAt_eq (g : Geom) (s : State) (y x : Nat) :
    pixelAt g (s.byte .buf) y x = ⟨pixelByte g s y x 0, pixelByte g s y x 1, pixelByte g s y x 2⟩ := rfl

theorem predictorOf_eq (g : Geom) (s : State) (y x : Nat) :
    predictorOf g (s.byte .buf) y x
      = ⟨predictorByte g s y x 0, predictorByte g s y x 1, predictorByte g s y x 2⟩ := by
  rcases Nat.eq_zero_or_pos x with rfl | hx
  · rcases Nat.eq_zero_or_pos y with rfl | hy
    · simp [predictorOf, firstPredictor, predictorByte]
    · simp [predictorOf, firstPredictor, predictorByte, hy, Nat.ne_of_gt hy, pixelAt_eq]
  · simp [predictorOf, predictorByte, hx, Nat.ne_of_gt hx, pixelAt_eq]

/-- The residuals of a pixel, modulo 256 (41_rowdiff_tcms.md R86). -/
theorem residualOf_eq (g : Geom) (s : State) (y x : Nat) :
    residualOf g (s.byte .buf) y x
      = ⟨fold8 (deltaByte g s y x 0 - deltaByte g s y x 1), fold8 (deltaByte g s y x 1),
          fold8 (deltaByte g s y x 2 - deltaByte g s y x 1)⟩ := by
  rw [residualOf, pixelAt_eq, predictorOf_eq, residual_eq, tcms_setWidth, tcms_setWidth, tcms_setWidth]
  rfl

/-- The residual planes (41_rowdiff_tcms.md R82). -/
theorem stageRowDiff_planesOf (s : State) : PlanesOf s.geom s (stageRowDiff s) := by
  intro y x hy hx
  have plane (k : Nat) (hk : k < 3) := stageRowDiff_plane s hk hy hx
  simp only [Geom.planeAddr, residualOf_eq] at plane
  have h0 := plane 0 (by omega)
  have h1 := plane 1 (by omega)
  rw [Nat.zero_mul, Nat.zero_add] at h0
  rw [Nat.one_mul] at h1
  exact ⟨h0, h1, plane 2 (by omega)⟩

/-! ### Statements carried to states that read the same -/

theorem HeaderNeutralised.congr {s t t' : State} (h : HeaderNeutralised s t)
    (e : ∀ a, a < 54 → t'.byte .buf a = t.byte .buf a) : HeaderNeutralised s t' := by
  obtain ⟨hreq, hsize, hxres, hyres⟩ := h
  refine ⟨fun a ha hf => ?_, fun a h1 h2 => ?_, fun a h1 h2 => ?_, ?_⟩
  · rw [e a ha, hreq a ha hf]
  · rw [e a (by omega), hsize a h1 h2]
  · rw [e a (by omega), hxres a h1 h2]
  · rw [readLE_congr fun a _ _ => e a (by omega), hyres]

theorem PlanesOf.congr {g : Geom} {s s' t t' : State} (h : PlanesOf g s t)
    (hs : ∀ a, 54 ≤ a → s'.byte .buf a = s.byte .buf a) (ht : t'.byte .tmp = t.byte .tmp) :
    PlanesOf g s' t' := by
  have hpixel : pixelByte g s' = pixelByte g s := by
    funext y x c
    exact hs _ (by omega)
  have hdelta : deltaByte g s' = deltaByte g s := by
    funext y x c
    simp only [deltaByte, predictorByte, hpixel]
  rwa [PlanesOf, ht, hdelta]

theorem SlabsOf.congr {g : Geom} {s s' t : State} (h : SlabsOf g s t) (hs : s'.byte .tmp = s.byte .tmp) :
    SlabsOf g s' t := by
  rwa [SlabsOf, hs]

theorem PlanesOf.setCode {g : Geom} {s t : State} (h : PlanesOf g s t) (c : Code) :
    PlanesOf g s (t.setCode c) := by
  rwa [PlanesOf, State.setCode_byte]

/-! ### The three stages -/

/-- The state of ENC after components B and C. -/
def stagesBC (s : State) : State := stageRowDiff (stageNeutralise s)

theorem stagesBC_geom (s : State) : (stagesBC s).geom = s.geom := by
  rw [stagesBC, stageRowDiff_geom, stageNeutralise_geom]

theorem stagesBC_buf (s : State) : (stagesBC s).byte .buf = (stageNeutralise s).byte .buf :=
  stageRowDiff_buf _

theorem stagesBC_n3 {s : State} (hg : geomOK s = true) : 54 + (stagesBC s).geom.n3 ≤ (stagesBC s).len.toNat := by
  rw [stagesBC_geom, stagesBC, stageRowDiff_len, stageNeutralise_len]
  exact geomOK_n3 hg

theorem stagesEncode_headerNeutralised {s : State} (hl : s.len.toNat ≤ s.params.bufCap)
    (ha : acceptFwd s = true) : HeaderNeutralised s (stagesEncode s) :=
  (stageNeutralise_headerNeutralised hl ha).congr fun a h54 => by
    rw [← stagesBC_buf]
    exact stageBitTranspose_outside _ (stagesBC_n3 (acceptFwd_geomOK ha)) (.inl h54)

theorem stagesEncode_planesOf (s : State) : PlanesOf s.geom s (stagesEncode s) := by
  have h := stageRowDiff_planesOf (stageNeutralise s)
  rw [stageNeutralise_geom] at h
  exact h.congr (fun a ha => (stageNeutralise_frame s (by omega)).symm) (stageBitTranspose_tmp _)

theorem stagesEncode_slabsOf (s : State) : SlabsOf s.geom (stagesEncode s) (stagesEncode s) := by
  have h := stageBitTranspose_slabsOf (stagesBC s)
  rw [stagesBC_geom] at h
  exact h.congr (stageBitTranspose_tmp _)

theorem stagesEncode_tailZero (s : State) : TailZero s.geom (stagesEncode s) := by
  have h := stageBitTranspose_tailZero (stagesBC s)
  rwa [stagesBC_geom] at h

theorem State.setCode_ok_of_keeps_buf_tmp {s t : State} (h : t = { s with buf := t.buf, tmp := t.tmp }) :
    t.setCode .ok = { s with buf := (t.setCode .ok).buf, tmp := (t.setCode .ok).tmp, status := 0#8 } :=
  congrArg (State.setCode · .ok) h

/-- Settles O50: the checks pass; component B leaves the header, which the later stages do not write, C the
planes, which D does not write, and D the slabs and the tail. -/
theorem encTransformsTheImage : Obligations.EncTransformsTheImage := by
  intro s hl ha
  have hg := acceptFwd_geomOK ha
  have hrun := guarded_run stagesEncode hl (geomOK_len_ge hg) ha
  obtain ⟨-, -, hbuf, htmp⟩ := stagesEncode_onlyBufAndTmp hg
  have hslabs : SlabsOf s.geom ((stagesEncode s).setCode .ok) (stagesEncode s) :=
    (stagesEncode_slabsOf s).congr (by rw [State.setCode_byte])
  exact ⟨_, hrun, (stagesEncode_headerNeutralised hl ha).setCode .ok, (stagesEncode_planesOf s).setCode .ok,
    hslabs.setCode .ok, (stagesEncode_tailZero s).setCode .ok, hbuf.setCode .ok, htmp.setCode .ok,
    State.setCode_ok_of_keeps_buf_tmp (stagesEncode_keeps s)⟩

end Sys2Proof.Machine
end

section
/-!
PROOF. Component B's law: the two header transforms lead from each accepted set into the other and undo one
another there (40_header.md R73, R77 law 2).
-/

namespace Sys2Proof.Machine

/-- Settles O25: every byte outside the four free fields lies in a required field, and AcceptInv wants each of
those fields zero. -/
theorem inverseCheckIsTheNeutralisedForm : Obligations.InverseCheckIsTheNeutralisedForm := by
  intro s
  rw [acceptInv_iff_fields, zeroHeader_iff]

/-! ### From each accepted set into the other -/

/-- A neutralised header passes the inverse check: the geometry was kept, and the required fields are zero. -/
theorem HeaderNeutralised.acceptInv {s t : State} (h : HeaderNeutralised s t) (hlen : t.len = s.len)
    (hg : geomOK s = true) : acceptInv t = true := by
  obtain ⟨hzero, hgeom, -, -⟩ := h
  exact (inverseCheckIsTheNeutralisedForm t).2 ⟨(geomOK_congr hgeom hlen).trans hg, hzero⟩

/-- A restored header passes the validator: the geometry was kept, and the required fields hold their values. -/
theorem HeaderRestored.acceptFwd {s t : State} (h : HeaderRestored s t) (hlen : t.len = s.len)
    (hl : t.len.toNat ≤ t.params.bufCap) (hg : geomOK s = true) : acceptFwd t = true := by
  obtain ⟨hraw, hgeom, -, -⟩ := h
  exact (validatorAcceptsTheBmpSubset t hl).2 ⟨(geomOK_congr hgeom hlen).trans hg, by rwa [hlen]⟩

/-! ### One transform after the other -/

/-- Two headers agree when their required bytes, their geometry and their resolutions do. -/
theorem header_eq {s r : State} (hreq : ∀ a, a < 54 → ¬ freeField a → r.byte .buf a = s.byte .buf a)
    (hgeom : ∀ a, 18 ≤ a → a < 26 → r.byte .buf a = s.byte .buf a)
    (hxres : ∀ a, 38 ≤ a → a < 42 → r.byte .buf a = s.byte .buf a)
    (hyres : readLE (r.byte .buf) 42 4 = readLE (s.byte .buf) 42 4) {a : Nat} (ha : a < 54) :
    r.byte .buf a = s.byte .buf a := by
  by_cases hfree : freeField a
  · rcases hfree with ⟨h18, h26⟩ | ⟨h38, h46⟩
    · exact hgeom a h18 h26
    · by_cases h42 : a < 42
      · exact hxres a h38 h42
      · obtain ⟨k, rfl⟩ := Nat.exists_eq_add_of_le (not_lt.1 h42)
        exact readLE_injective hyres (by omega)
  · exact hreq a ha hfree

/-- Restoring undoes neutralising: an accepted header has the very bytes that are restored, and the x-resolution
added to the y-resolution is the one that was subtracted. -/
theorem HeaderNeutralised.restored_eq {s t r : State} (hn : HeaderNeutralised s t) (hr : HeaderRestored t r)
    (hlen : t.len = s.len) (hl : s.len.toNat ≤ s.params.bufCap) (ha : acceptFwd s = true) {a : Nat}
    (h : a < 54) : r.byte .buf a = s.byte .buf a := by
  obtain ⟨-, hgeom, hxres, hyres⟩ := hn
  obtain ⟨hraw, hgeom', hxres', hyres'⟩ := hr
  obtain ⟨-, hreq⟩ := (validatorAcceptsTheBmpSubset s hl).1 ha
  refine header_eq (fun a h hfree => ?_) (fun a h1 h2 => (hgeom' a h1 h2).trans (hgeom a h1 h2))
    (fun a h1 h2 => (hxres' a h1 h2).trans (hxres a h1 h2)) ?_ h
  · rw [hraw a h hfree, hreq a h hfree, hlen]
  · have hx : readLE (t.byte .buf) 38 4 = readLE (s.byte .buf) 38 4 := readLE_congr hxres
    have := readLE_lt (s.byte .buf) 38 4
    have := readLE_lt (s.byte .buf) 42 4
    omega

/-- Neutralising undoes restoring: an accepted header has zero in the required bytes, and the x-resolution
subtracted from the y-resolution is the one that was added. -/
theorem HeaderRestored.neutralised_eq {s t r : State} (hr : HeaderRestored s t) (hn : HeaderNeutralised t r)
    (ha : acceptInv s = true) {a : Nat} (h : a < 54) : r.byte .buf a = s.byte .buf a := by
  obtain ⟨-, hgeom, hxres, hyres⟩ := hr
  obtain ⟨hzero, hgeom', hxres', hyres'⟩ := hn
  obtain ⟨-, hreq⟩ := (inverseCheckIsTheNeutralisedForm s).1 ha
  refine header_eq (fun a h hfree => (hzero a h hfree).trans (hreq a h hfree).symm)
    (fun a h1 h2 => (hgeom' a h1 h2).trans (hgeom a h1 h2))
    (fun a h1 h2 => (hxres' a h1 h2).trans (hxres a h1 h2)) ?_ h
  have hx : readLE (t.byte .buf) 38 4 = readLE (s.byte .buf) 38 4 := readLE_congr hxres
  have := readLE_lt (s.byte .buf) 38 4
  have := readLE_lt (s.byte .buf) 42 4
  omega

/-- Bytes kept twice outside a range and restored inside it are restored everywhere. -/
theorem KeptOutside.eq_of_restored {m : MemId} {hi : Nat} {s t r : State} (h : KeptOutside m 0 hi s t)
    (h' : KeptOutside m 0 hi t r) (hin : ∀ a, a < hi → r.byte m a = s.byte m a) (a : Nat) :
    r.byte m a = s.byte m a := by
  by_cases ha : a < hi
  · exact hin a ha
  · have hout : a < 0 ∨ hi ≤ a := .inr (not_lt.1 ha)
    exact (h' a hout).trans (h a hout)

/-- Settles O29: O27 and O28 run the two commands, each from the accepted set that the other leads into. -/
theorem headerNeutralisationIsBijective : Obligations.HeaderNeutralisationIsBijective := by
  constructor
  · intro s hl ha
    obtain ⟨t, hrun, hn, hkept, heq⟩ := hdrnNeutralisesTheHeader s hl ha
    have hlen : t.len = s.len := (congrArg State.len heq :)
    have hparams : t.params = s.params := (congrArg State.params heq :)
    have hacc := hn.acceptInv hlen (acceptFwd_geomOK ha)
    obtain ⟨r, hrun', hr, hkept', -⟩ := hdrrRestoresTheHeader t (by rwa [hlen, hparams]) hacc
    exact ⟨t, r, hrun, hacc, hrun', hkept.eq_of_restored hkept' fun _ => hn.restored_eq hr hlen hl ha⟩
  · intro s hl ha
    obtain ⟨t, hrun, hr, hkept, heq⟩ := hdrrRestoresTheHeader s hl ha
    have hlen : t.len = s.len := (congrArg State.len heq :)
    have hparams : t.params = s.params := (congrArg State.params heq :)
    have hl' : t.len.toNat ≤ t.params.bufCap := by rwa [hlen, hparams]
    have hacc := hr.acceptFwd hlen hl' (acceptInv_geomOK ha)
    obtain ⟨r, hrun', hn, hkept', -⟩ := hdrnNeutralisesTheHeader t hl' hacc
    exact ⟨t, r, hrun, hacc, hrun', hkept.eq_of_restored hkept' fun _ => hr.neutralised_eq hn ha⟩

end Sys2Proof.Machine
end

section
/-!
PROOF. The TCMS fold on bytes: the signed value that each direction maps to, and from these that the two undo
one another (41_rowdiff_tcms.md R80, R81, R88 law 4).
-/

namespace Sys2Proof.Machine

/-! ### The fold of a byte -/

/-- The fold by the sign bit: the doubled byte, complemented for a negative one (41_rowdiff_tcms.md R80). -/
theorem fold8_eq (b : Byte) : fold8 b = if b.msb then ~~~(b <<< 1) else b <<< 1 := by
  rw [fold8, BitVec.msb_eq_getLsbD_last]
  split
  · exact BitVec.xor_allOnes
  · exact BitVec.xor_zero

/-- The unfold by the lowest bit: the halved byte, complemented for an odd one (41_rowdiff_tcms.md R81). -/
theorem itcms_eq (u : Byte) : itcms u = if u.toNat % 2 = 0 then u >>> 1 else ~~~(u >>> 1) := by
  have hodd : u.getLsbD 0 = decide (u.toNat % 2 = 1) := Nat.testBit_zero u.toNat
  rw [itcms, hodd]
  rcases Nat.mod_two_eq_zero_or_one u.toNat with h | h
  · simp [h]
  · simp only [h, decide_true, if_true, one_ne_zero, if_false]
    exact BitVec.xor_allOnes

theorem toNat_fold8 (b : Byte) :
    ((fold8 b).toNat : Int) = if 0 ≤ b.toInt then 2 * b.toInt else -2 * b.toInt - 1 := by
  have hlt := b.isLt
  have hdouble : (b <<< 1).toNat = 2 * b.toNat % 256 := by
    rw [BitVec.toNat_shiftLeft, Nat.shiftLeft_eq, pow_one, Nat.mul_comm]
  rw [fold8_eq, BitVec.toInt_eq_msb_cond]
  cases hs : b.msb with
  | false =>
    rw [BitVec.msb_eq_false_iff_two_mul_lt] at hs
    simp only [Bool.false_eq_true, if_false, hdouble]
    omega
  | true =>
    rw [BitVec.msb_eq_true_iff_two_mul_ge] at hs
    simp only [if_true, BitVec.toNat_not, hdouble]
    omega

theorem toInt_itcms (u : Byte) :
    (itcms u).toInt = if u.toNat % 2 = 0 then (u.toNat : Int) / 2 else -(((u.toNat : Int) + 1) / 2) := by
  have hlt := u.isLt
  have hhalf : (u >>> 1).toNat = u.toNat / 2 := by
    rw [BitVec.toNat_ushiftRight, Nat.shiftRight_eq_div_pow, pow_one]
  rw [itcms_eq, BitVec.toInt_eq_toNat_cond]
  split
  · rw [hhalf]
    omega
  · rw [BitVec.toNat_not, hhalf]
    omega

/-- `ITCMS` undoes the fold: an even fold comes from a byte that is not negative, an odd one from a negative. -/
@[simp] theorem itcms_fold8 (b : Byte) : itcms (fold8 b) = b := by
  apply BitVec.eq_of_toInt_eq
  have hfold := toNat_fold8 b
  rw [toInt_itcms]
  split at hfold <;> omega

/-- The fold undoes `ITCMS`: the fold of `u/2` is even, that of `-(u+1)/2` odd. -/
@[simp] theorem fold8_itcms (u : Byte) : fold8 (itcms u) = u := by
  apply BitVec.eq_of_toNat_eq
  have hfold := toNat_fold8 (itcms u)
  rw [toInt_itcms] at hfold
  have := u.isLt
  split at hfold <;> omega

/-! ### Arguments of 32 bits -/

theorem tcms_eq_fold8 (p : BitVec 32) : tcms p = fold8 (p.setWidth 8) := by
  rw [tcms_eq_low, fold8]

theorem low_signExtend (b : Byte) : (b.signExtend 32).setWidth 8 = b := by
  ext i hi
  simp [BitVec.getElem_signExtend, hi, Nat.lt_trans hi (by decide : 8 < 32)]

theorem low_ofInt (d : Int) : (BitVec.ofInt 32 d).setWidth 8 = BitVec.ofInt 8 d := by
  apply BitVec.eq_of_toNat_eq
  simp only [BitVec.toNat_setWidth, BitVec.toNat_ofInt]
  omega

/-- Settles O30: only the low byte reaches TCMS, which folds it. -/
theorem tcmsFoldsTheSignedLowByte : Obligations.TcmsFoldsTheSignedLowByte := by
  intro p
  rw [tcms_eq_fold8, toNat_fold8]

/-- Settles O31: the formula is the definition, and on the low bytes the two folds undo one another. -/
theorem itcmsUndoesTcms : Obligations.ItcmsUndoesTcms := by
  refine ⟨fun u => ⟨rfl, toInt_itcms u, ?_⟩, fun p => ?_⟩
  · rw [tcms_eq_fold8, low_signExtend, fold8_itcms]
  · rw [tcms_eq_fold8, itcms_fold8]

/-! ### Equal deltas -/

/-- The difference of two bytes, modulo 256. -/
theorem byte_sub_eq_ofInt {n p : Byte} {d : Int} (h : (n.toNat : Int) = p.toNat + d) :
    n - p = BitVec.ofInt 8 d := by
  apply BitVec.eq_of_toNat_eq
  have := p.isLt
  rw [BitVec.toNat_sub, BitVec.toNat_ofInt]
  omega

/-- Settles O36: the three deltas are one byte, so that the channel differences vanish. -/
theorem equalDeltasLeaveOneResidual : Obligations.EqualDeltasLeaveOneResidual := by
  intro n p d h0 h1 h2
  have hzero : tcms ((0#8).setWidth 32) = 0#8 := by decide
  have hd : tcms ((BitVec.ofInt 8 d).setWidth 32) = tcms (BitVec.ofInt 32 d) := by
    rw [tcms_setWidth, tcms_eq_fold8, low_ofInt]
  rw [residual_eq, byte_sub_eq_ofInt h0, byte_sub_eq_ofInt h1, byte_sub_eq_ofInt h2, BitVec.sub_self, hzero, hd]

end Sys2Proof.Machine
end

section
/-!
PROOF. Component C: what RCDF leaves in TMP and RCDI in BUF, each said once per channel by the difference that
the channel's residual folds, and from these that the two undo one another (41_rowdiff_tcms.md R82 to R88).
-/

namespace Sys2Proof.Machine

/-! ### The difference that each residual folds -/

/-- What the residual of channel `k` folds: the delta of channel 1 itself, of the others the excess over it
(41_rowdiff_tcms.md R86). -/
def channelDelta (g : Geom) (s : State) (k y x : Nat) : Byte :=
  if k = 1 then deltaByte g s y x 1 else deltaByte g s y x k - deltaByte g s y x 1

theorem PlanesOf.plane {g : Geom} {s t : State} (h : PlanesOf g s t) {k y x : Nat} (hk : k < 3) (hy : y < g.h)
    (hx : x < g.w) : t.byte .tmp (g.planeAddr k y x) = fold8 (channelDelta g s k y x) := by
  obtain ⟨h0, h1, h2⟩ := h y x hy hx
  obtain rfl | rfl | rfl : k = 0 ∨ k = 1 ∨ k = 2 := by omega
  · rwa [Geom.planeAddr, Nat.zero_mul, Nat.zero_add]
  · rwa [Geom.planeAddr, Nat.one_mul]
  · exact h2

theorem unfolded_eq (g : Geom) (s : State) (k y x : Nat) :
    unfolded g s k y x = itcms (s.byte .tmp (g.planeAddr k y x)) := rfl

theorem PixelsOf.channelDelta_eq {g : Geom} {s t : State} (h : PixelsOf g s t) {k y x : Nat} (hk : k < 3)
    (hy : y < g.h) (hx : x < g.w) : channelDelta g t k y x = itcms (s.byte .tmp (g.planeAddr k y x)) := by
  obtain ⟨hpixel, -⟩ := h
  obtain ⟨h0, h1, h2⟩ := hpixel y x hy hx
  have d1 : deltaByte g t y x 1 = unfolded g s 1 y x := by rw [deltaByte, h1, add_sub_cancel_left]
  rw [← unfolded_eq, channelDelta, d1]
  obtain rfl | rfl | rfl : k = 0 ∨ k = 1 ∨ k = 2 := by omega
  · rw [if_neg (by decide), deltaByte, h0, add_sub_cancel_left, add_sub_cancel_right]
  · rfl
  · rw [if_neg (by decide), deltaByte, h2, add_sub_cancel_left, add_sub_cancel_right]

theorem PixelsOf.paddingZero {g : Geom} {s t : State} (h : PixelsOf g s t) : PaddingZero g t := by
  obtain ⟨-, hpad⟩ := h
  exact fun y hy i hi hw => hpad y i hy hw hi

theorem PixelsOf.setCode {g : Geom} {s t : State} (h : PixelsOf g s t) (c : Code) :
    PixelsOf g s (t.setCode c) := by
  rw [PixelsOf, State.setCode_byte]
  exact h

/-- The differences of a pixel determine its deltas. -/
theorem deltaByte_eq_of_channelDelta {g : Geom} {s t : State} {y x : Nat}
    (h : ∀ k, k < 3 → channelDelta g t k y x = channelDelta g s k y x) {c : Nat} (hc : c < 3) :
    deltaByte g t y x c = deltaByte g s y x c := by
  have h1 : deltaByte g t y x 1 = deltaByte g s y x 1 := h 1 (by omega)
  have hk := h c hc
  unfold channelDelta at hk
  split at hk
  · rename_i e
    rw [e, h1]
  · rwa [h1, sub_left_inj] at hk

/-- The deltas determine the pixels: each follows from its predictor, which comes before it in its row or, in
column 0, in the row before (41_rowdiff_tcms.md R87). -/
theorem pixelByte_eq_of_deltaByte {g : Geom} {s t : State} {c : Nat}
    (h : ∀ y x, y < g.h → x < g.w → deltaByte g t y x c = deltaByte g s y x c) {y x : Nat} (hy : y < g.h)
    (hx : x < g.w) : pixelByte g t y x c = pixelByte g s y x c := by
  have step {y x : Nat} (hy : y < g.h) (hx : x < g.w) (hp : predictorByte g t y x c = predictorByte g s y x c) :
      pixelByte g t y x c = pixelByte g s y x c := by
    have hd := h y x hy hx
    rwa [deltaByte, deltaByte, hp, sub_left_inj] at hd
  induction x with
  | zero =>
    induction y with
    | zero => exact step hy hx rfl
    | succ y ihy => exact step hy hx (ihy (by omega))
  | succ x ihx => exact step hy hx (ihx (by omega))

/-! ### RCDF -/

theorem State.setCode_ok_of_keeps_tmp {s t : State} (h : t = { s with tmp := t.tmp }) :
    t.setCode .ok = { s with tmp := (t.setCode .ok).tmp, status := 0#8 } :=
  congrArg (State.setCode · .ok) h

/-- Settles O32: the checks pass, and the stage writes the planes. -/
theorem rcdfWritesResidualPlanes : Obligations.RcdfWritesResidualPlanes := by
  intro s hl hg
  have hrun := guarded_run stageRowDiff hl (geomOK_len_ge hg) hg
  obtain ⟨-, -, -, hkept⟩ := stageRowDiff_onlyTmp s
  exact ⟨_, hrun, (stageRowDiff_planesOf s).setCode .ok, hkept.setCode .ok,
    State.setCode_ok_of_keeps_tmp (stageRowDiff_keeps s)⟩

/-! ### RCDI -/

/-- The predictor of a pixel in the inverse direction: the rebuilt pixel before it (41_rowdiff_tcms.md R84, R87). -/
def rebuiltBefore (g : Geom) (rd : Nat → Byte) (y x : Nat) : Triple :=
  if x = 0 then rowPredictor g rd y else rebuiltAt g rd y (x - 1)

theorem rebuiltAt_eq_rebuild (g : Geom) (rd : Nat → Byte) (y x : Nat) :
    rebuiltAt g rd y x = rebuild (residualAt g rd y x) (rebuiltBefore g rd y x) := by
  cases x <;> rfl

/-- The pixels that the stage leaves (41_rowdiff_tcms.md R84). -/
theorem stageRowDiffInv_pixelAt (s : State) {y x : Nat} (hy : y < s.geom.h) (hx : x < s.geom.w) :
    pixelAt s.geom ((stageRowDiffInv s).byte .buf) y x = rebuiltAt s.geom (s.byte .tmp) y x := by
  have channel {c : Nat} (hc : c < 3) := stageRowDiffInv_pixel s hy hx hc
  have h0 := channel (c := 0) (by omega)
  rw [Nat.add_zero] at h0
  rw [pixelAt, h0, channel (c := 1) (by omega), channel (c := 2) (by omega)]
  rfl

/-- The pixels that the stage has rebuilt are the predictors of those after them (41_rowdiff_tcms.md R87). -/
theorem stageRowDiffInv_predictorOf (s : State) {y x : Nat} (hy : y < s.geom.h) (hx : x < s.geom.w) :
    predictorOf s.geom ((stageRowDiffInv s).byte .buf) y x = rebuiltBefore s.geom (s.byte .tmp) y x := by
  cases x with
  | zero =>
    cases y with
    | zero => rfl
    | succ y => exact stageRowDiffInv_pixelAt s (y := y) (by omega) hx
  | succ x => exact stageRowDiffInv_pixelAt s hy (x := x) (by omega)

theorem stageRowDiffInv_rebuild (s : State) {y x : Nat} (hy : y < s.geom.h) (hx : x < s.geom.w) :
    pixelAt s.geom ((stageRowDiffInv s).byte .buf) y x
      = rebuild (residualAt s.geom (s.byte .tmp) y x)
          (predictorOf s.geom ((stageRowDiffInv s).byte .buf) y x) := by
  rw [stageRowDiffInv_pixelAt s hy hx, stageRowDiffInv_predictorOf s hy hx, rebuiltAt_eq_rebuild]

theorem stageRowDiffInv_pixelsOf {s : State} (hg : geomOK s = true) :
    PixelsOf s.geom s (stageRowDiffInv s) := by
  refine ⟨fun y x hy hx => ?_, fun y i hy h1 h2 => stageRowDiffInv_padding s (geomOK_width hg).2 hy h1 h2⟩
  have hpixel := stageRowDiffInv_rebuild s hy hx
  rw [pixelAt_eq, predictorOf_eq] at hpixel
  exact ⟨congrArg Triple.c0 hpixel, congrArg Triple.c1 hpixel, congrArg Triple.c2 hpixel⟩

/-- Settles O34: the checks pass, and the stage rebuilds the pixels. -/
theorem rcdiRebuildsPixels : Obligations.RcdiRebuildsPixels := by
  intro s hl hg
  have hrun := guarded_run stageRowDiffInv hl (geomOK_len_ge hg) hg
  obtain ⟨-, -, -, hkept⟩ := stageRowDiffInv_onlyBuf hg
  exact ⟨_, hrun, (stageRowDiffInv_pixelsOf hg).setCode .ok, hkept.setCode .ok,
    State.setCode_ok_of_keeps_buf (stageRowDiffInv_keeps s)⟩

/-! ### One after the other -/

/-- Pixels rebuilt from the residual planes of an image are the pixels of that image (41_rowdiff_tcms.md R88
law 1). -/
theorem PixelsOf.pixelByte_eq {g : Geom} {s t r : State} (hr : PixelsOf g t r) (ht : PlanesOf g s t) {y x c : Nat}
    (hy : y < g.h) (hx : x < g.w) (hc : c < 3) : pixelByte g r y x c = pixelByte g s y x c := by
  refine pixelByte_eq_of_deltaByte (fun y x hy hx => deltaByte_eq_of_channelDelta (fun k hk => ?_) hc) hy hx
  rw [hr.channelDelta_eq hk hy hx, ht.plane hk hy hx, itcms_fold8]

/-- The residual planes of the pixels rebuilt from TMP are those of TMP (41_rowdiff_tcms.md R88 law 2). -/
theorem PlanesOf.tmp_eq {g : Geom} {s t r : State} (hr : PlanesOf g t r) (ht : PixelsOf g s t) {a : Nat}
    (ha : a < g.n3) : r.byte .tmp a = s.byte .tmp a := by
  obtain ⟨k, y, x, hk, hy, hx, rfl⟩ := g.exists_planeAddr ha
  rw [hr.plane hk hy hx, ht.channelDelta_eq hk hy hx, fold8_itcms]

/-- Settles O35: neither command changes the header or LEN, so the other one runs after it on the same
geometry. -/
theorem rcdfAndRcdiAreInverse : Obligations.RcdfAndRcdiAreInverse := by
  intro s hl hg
  constructor
  · obtain ⟨t, hrun, hplanes, -, heq⟩ := rcdfWritesResidualPlanes s hl hg
    have hlen : t.len = s.len := (congrArg State.len heq :)
    have hparams : t.params = s.params := (congrArg State.params heq :)
    have hbuf : t.byte .buf = s.byte .buf := (congrArg (State.byte · .buf) heq :)
    have hgeom : t.geom = s.geom := (geom_congr fun a _ _ => congrFun hbuf a).2.2
    have hg' : geomOK t = true := (geomOK_congr (fun a _ _ => congrFun hbuf a) hlen).trans hg
    obtain ⟨r, hrun', hpixels, -, -⟩ := rcdiRebuildsPixels t (by rwa [hlen, hparams]) hg'
    rw [hgeom] at hpixels
    exact ⟨t, r, hrun, hrun', fun y x c hy hx hc => hpixels.pixelByte_eq hplanes hy hx hc, hpixels.paddingZero⟩
  · obtain ⟨t, hrun, hpixels, hkept, heq⟩ := rcdiRebuildsPixels s hl hg
    have hlen : t.len = s.len := (congrArg State.len heq :)
    have hparams : t.params = s.params := (congrArg State.params heq :)
    have hheader (a : Nat) (_ : 18 ≤ a) (h : a < 26) : t.byte .buf a = s.byte .buf a := hkept a (.inl (by omega))
    have hgeom : t.geom = s.geom := (geom_congr hheader).2.2
    have hg' : geomOK t = true := (geomOK_congr hheader hlen).trans hg
    obtain ⟨r, hrun', hplanes, -, -⟩ := rcdfWritesResidualPlanes t (by rwa [hlen, hparams]) hg'
    rw [hgeom] at hplanes
    exact ⟨t, r, hrun, hrun', fun a ha => hplanes.tmp_eq hpixels ha⟩

end Sys2Proof.Machine
end

section
/-!
PROOF. Component D, both directions: the butterfly is an involution, what BMTI leaves in TMP, that BMTF and BMTI
undo one another, and what the transpose says of small residuals and of the number of 1 bits
(42_bit_transpose.md R91 and R95 to R97).
-/

namespace Sys2Proof.Machine

/-! ### The butterfly twice -/

/-- Transposing twice puts every bit back (42_bit_transpose.md R91). -/
theorem transpose8_transpose8 (x : BitVec 64) : transpose8 (transpose8 x) = x := by
  refine BitVec.eq_of_getLsbD_eq fun p hp => ?_
  have hrow : p / 8 < 8 := by omega
  have hcol : p % 8 < 8 := by omega
  have hsplit : p = 8 * (p / 8) + p % 8 := by omega
  rw [hsplit, getLsbD_transpose8 _ hcol hrow, getLsbD_transpose8 _ hrow hcol]

/-- Settles O37: bit by bit the butterfly exchanges row and column, so doing it twice changes nothing. -/
theorem butterflyTransposesTheBitMatrix : Obligations.ButterflyTransposesTheBitMatrix :=
  fun x => ⟨fun _ _ hi hj => getLsbD_transpose8 x hi hj, transpose8_transpose8 x⟩

/-! ### BMTI -/

/-- Bit `8*j + b` of the word that a group gathers is bit `b` of the group's byte of slab `j`
(42_bit_transpose.md R95). -/
theorem getLsbD_slabWord (g : Geom) (rd : Nat → Byte) (i : Nat) {b j : Nat} (hb : b < 8) (hj : j < 8) :
    (slabWord g rd i).getLsbD (8 * j + b) = (rd (g.slabAddr j i)).getLsbD b := by
  rw [slabWord, BitVec.getLsbD_ofNat, decide_eq_true (by omega), Bool.true_and,
    readLE_testBit _ _ _ _ _ hj hb, Nat.zero_add]

theorem Geom.slabAddr_eq_add (g : Geom) (j i : Nat) : g.slabAddr j i = 54 + j * g.groups + i := by
  rw [Geom.slabAddr_eq, Nat.add_assoc]

/-- The residual bytes that the stage rebuilds (42_bit_transpose.md R95). -/
theorem stageBitTransposeInv_scratchOf (s : State) : ScratchOf s.geom s (stageBitTransposeInv s) := by
  refine ⟨fun i j b hi hj hb => ?_, fun k hk => stageBitTransposeInv_extra s hk⟩
  rw [stageBitTransposeInv_word s hi hb, getLsbD_wordByte _ _ hj, getLsbD_transpose8 _ hj hb,
    getLsbD_slabWord _ _ _ hb hj, Geom.slabAddr_eq_add]

theorem ScratchOf.setCode {g : Geom} {s t : State} (h : ScratchOf g s t) (c : Code) :
    ScratchOf g s (t.setCode c) := by
  rwa [ScratchOf, State.setCode_byte]

/-- Settles O39: the checks pass, and the stage's bytes are the transposed slabs and the remainder. -/
theorem bmtiRebuildsScratch : Obligations.BmtiRebuildsScratch := by
  intro s hl hg
  have hrun := guarded_run stageBitTransposeInv hl (geomOK_len_ge hg) hg
  obtain ⟨-, -, -, hkept⟩ := stageBitTransposeInv_onlyTmp s
  exact ⟨_, hrun, (stageBitTransposeInv_scratchOf s).setCode .ok, hkept.setCode .ok,
    State.setCode_ok_of_keeps_tmp (stageBitTransposeInv_keeps s)⟩

/-! ### One after the other -/

/-- Every residual byte of TMP is a byte of a group or of the remainder (42_bit_transpose.md R90). -/
theorem Geom.group_or_extra (g : Geom) {a : Nat} (ha : a < g.n3) :
    (∃ i b, i < g.groups ∧ b < 8 ∧ a = 8 * i + b) ∨ ∃ k, k < g.extra ∧ a = g.esize + k := by
  have hn := g.esize_add_extra
  have he := g.esize_eq
  by_cases h : a < g.esize
  · exact .inl ⟨a / 8, a % 8, by omega, by omega, by omega⟩
  · exact .inr ⟨a - g.esize, by omega, by omega⟩

/-- Residual bytes rebuilt from the slabs of TMP are those of TMP. -/
theorem ScratchOf.tmp_eq {g : Geom} {s t r : State} (hr : ScratchOf g t r) (ht : SlabsOf g s t) {a : Nat}
    (ha : a < g.n3) : r.byte .tmp a = s.byte .tmp a := by
  obtain ⟨hword, hextra⟩ := hr
  obtain ⟨hslab, hextra'⟩ := ht
  obtain ⟨i, b, hi, hb, rfl⟩ | ⟨k, hk, rfl⟩ := g.group_or_extra ha
  · refine BitVec.eq_of_getLsbD_eq fun j hj => ?_
    rw [hword i j b hi hj hb, hslab i j b hi hj hb]
  · rw [hextra k hk, hextra' k hk]

/-- The slabs of the residual bytes rebuilt from BUF are those of BUF. -/
theorem SlabsOf.buf_eq {g : Geom} {s t r : State} (hr : SlabsOf g t r) (ht : ScratchOf g s t) {a : Nat}
    (h54 : 54 ≤ a) (ha : a < 54 + g.n3) : r.byte .buf a = s.byte .buf a := by
  obtain ⟨hslab, hextra⟩ := hr
  obtain ⟨hword, hextra'⟩ := ht
  obtain ⟨j, i, hj, hi, rfl⟩ | ⟨k, hk, rfl⟩ := g.slab_or_extra h54 ha
  · rw [Geom.slabAddr_eq_add]
    refine BitVec.eq_of_getLsbD_eq fun b hb => ?_
    rw [hslab i j b hi hj hb, hword i j b hi hj hb]
  · rw [hextra k hk, hextra' k hk]

/-- A command that leaves LEN, the parameters and the header's W and H as they were leaves the geometry, and the
checks pass again. -/
theorem checks_pass_of_same_header {s t : State} (hlen : t.len = s.len) (hparams : t.params = s.params)
    (hheader : ∀ a, 18 ≤ a → a < 26 → t.byte .buf a = s.byte .buf a)
    (hl : s.len.toNat ≤ s.params.bufCap) (hg : geomOK s = true) :
    t.geom = s.geom ∧ t.len.toNat ≤ t.params.bufCap ∧ geomOK t = true :=
  ⟨(geom_congr hheader).2.2, by rwa [hlen, hparams], (geomOK_congr hheader hlen).trans hg⟩

/-- Settles O40: neither command changes the header or LEN, so the other one runs after it on the same
geometry, and each rebuilds the bytes that the other one read. -/
theorem bmtfAndBmtiAreInverse : Obligations.BmtfAndBmtiAreInverse := by
  intro s hl hg
  constructor
  · obtain ⟨t, hrun, hslabs, -, hkept, heq⟩ := bmtfWritesBitPlaneSlabs s hl hg
    have htmp : t.byte .tmp = s.byte .tmp := (congrArg (State.byte · .tmp) heq :)
    obtain ⟨hgeom, hl', hg'⟩ := checks_pass_of_same_header (s := s) (t := t) (congrArg State.len heq :)
      (congrArg State.params heq :) (fun a _ _ => hkept a (.inl (by omega))) hl hg
    obtain ⟨r, hrun', hscratch, habove, -⟩ := bmtiRebuildsScratch t hl' hg'
    rw [hgeom] at hscratch habove
    refine ⟨t, r, hrun, hrun', fun a => ?_⟩
    rcases Nat.lt_or_ge a s.geom.n3 with ha | ha
    · exact hscratch.tmp_eq hslabs ha
    · rw [habove a (.inr ha), htmp]
  · obtain ⟨t, hrun, hscratch, -, heq⟩ := bmtiRebuildsScratch s hl hg
    have hbuf : t.byte .buf = s.byte .buf := (congrArg (State.byte · .buf) heq :)
    obtain ⟨hgeom, hl', hg'⟩ := checks_pass_of_same_header (s := s) (t := t) (congrArg State.len heq :)
      (congrArg State.params heq :) (fun a _ _ => congrFun hbuf a) hl hg
    obtain ⟨r, hrun', hslabs, htail, hkept, -⟩ := bmtfWritesBitPlaneSlabs t hl' hg'
    rw [hgeom] at hslabs htail
    refine ⟨t, r, hrun, hrun', fun a ha => ?_, htail⟩
    rcases Nat.lt_or_ge a 54 with h54 | h54
    · rw [hkept a (.inl h54), hbuf]
    · exact hslabs.buf_eq hscratch h54 ha

/-! ### Small residuals -/

/-- Slab `j` collects bit `j` of the residuals, which is 0 when they are below `2^m` and `m ≤ j`
(42_bit_transpose.md R97 law 4). -/
theorem SlabsOf.slab_eq_zero {g : Geom} {s t : State} (h : SlabsOf g s t) {m j i : Nat}
    (hsmall : ∀ a, a < g.n3 → (s.byte .tmp a).toNat < 2 ^ m) (hm : m ≤ j) (hj : j < 8) (hi : i < g.groups) :
    t.byte .buf (g.slabAddr j i) = 0#8 := by
  obtain ⟨hslab, -⟩ := h
  have hn := g.esize_add_extra
  have he := g.esize_eq
  rw [Geom.slabAddr_eq_add]
  refine BitVec.eq_of_getLsbD_eq fun b hb => ?_
  have hlt : (s.byte .tmp (8 * i + b)).toNat < 2 ^ j :=
    (hsmall _ (by omega)).trans_le (Nat.pow_le_pow_right (by omega) hm)
  rw [hslab i j b hi hj hb, BitVec.getLsbD_zero, BitVec.getLsbD, Nat.testBit_lt_two_pow hlt]

/-- Settles O41: an offset at or above slab `m` is in a slab `j` with `m ≤ j`. -/
theorem smallResidualsLeaveHighSlabsZero : Obligations.SmallResidualsLeaveHighSlabsZero := by
  intro s m hl hg hsmall
  obtain ⟨t, hrun, hslabs, -⟩ := bmtfWritesBitPlaneSlabs s hl hg
  refine ⟨t, hrun, fun a hlo hhi => ?_⟩
  have hn := s.geom.esize_add_extra
  have he := s.geom.esize_eq
  obtain ⟨j, i, hj, hi, rfl⟩ | ⟨k, hk, rfl⟩ := s.geom.slab_or_extra (a := a) (by omega) (by omega)
  · have hm : m ≤ j := by
      by_contra hlt
      have := mul_add_lt hi (Nat.lt_of_not_le hlt)
      rw [Geom.slabAddr_eq] at hlo
      omega
    exact hslabs.slab_eq_zero hsmall hm hj hi
  · omega

/-! ### Counting bits -/

theorem countP_range_eq_sum (p : Nat → Bool) (n : Nat) :
    (List.range n).countP p = ∑ i ∈ Finset.range n, (p i).toNat := by
  induction n with
  | zero => rfl
  | succ n ih =>
    rw [List.range_succ, List.countP_append, ih, Finset.sum_range_succ]
    cases h : p n <;> simp [h]

theorem ones_eq_sum (b : Byte) : ones b = ∑ i ∈ Finset.range 8, (b.getLsbD i).toNat :=
  countP_range_eq_sum _ 8

/-- A sum over the offsets of `m` rows of length `n`, row by row. -/
theorem sum_range_mul_eq_sum_sum (f : Nat → Nat) (m n : Nat) :
    ∑ a ∈ Finset.range (m * n), f a
      = ∑ j ∈ Finset.range m, ∑ i ∈ Finset.range n, f (j * n + i) := by
  induction m with
  | zero => simp
  | succ m ih => rw [Nat.add_mul, Nat.one_mul, Finset.sum_range_add, ih, Finset.sum_range_succ]

/-- The slabs of a group hold the bits of the group's bytes (42_bit_transpose.md R92). -/
theorem SlabsOf.ones_group {g : Geom} {s t : State} (h : SlabsOf g s t) {i : Nat} (hi : i < g.groups) :
    ∑ j ∈ Finset.range 8, ones (t.byte .buf (54 + (j * g.groups + i)))
      = ∑ b ∈ Finset.range 8, ones (s.byte .tmp (i * 8 + b)) := by
  obtain ⟨hslab, -⟩ := h
  simp only [ones_eq_sum]
  rw [Finset.sum_comm]
  refine Finset.sum_congr rfl fun b hb => Finset.sum_congr rfl fun j hj => ?_
  rw [← Nat.add_assoc, hslab i j b hi (Finset.mem_range.1 hj) (Finset.mem_range.1 hb), Nat.mul_comm i 8]

/-- Slab by slab or group by group, the same bits are counted. -/
theorem SlabsOf.sum_ones_esize {g : Geom} {s t : State} (h : SlabsOf g s t) :
    ∑ a ∈ Finset.range g.esize, ones (t.byte .buf (54 + a))
      = ∑ a ∈ Finset.range g.esize, ones (s.byte .tmp a) := by
  calc ∑ a ∈ Finset.range g.esize, ones (t.byte .buf (54 + a))
      = ∑ j ∈ Finset.range 8, ∑ i ∈ Finset.range g.groups, ones (t.byte .buf (54 + (j * g.groups + i))) := by
        rw [g.esize_eq, sum_range_mul_eq_sum_sum]
    _ = ∑ i ∈ Finset.range g.groups, ∑ j ∈ Finset.range 8, ones (t.byte .buf (54 + (j * g.groups + i))) :=
        Finset.sum_comm
    _ = ∑ i ∈ Finset.range g.groups, ∑ b ∈ Finset.range 8, ones (s.byte .tmp (i * 8 + b)) :=
        Finset.sum_congr rfl fun i hi => h.ones_group (Finset.mem_range.1 hi)
    _ = ∑ a ∈ Finset.range g.esize, ones (s.byte .tmp a) := by
        rw [g.esize_eq, Nat.mul_comm, sum_range_mul_eq_sum_sum]

/-- The slabs and the remainder hold as many 1 bits as the residual bytes (42_bit_transpose.md R97 law 5). -/
theorem SlabsOf.sum_ones {g : Geom} {s t : State} (h : SlabsOf g s t) :
    ∑ a ∈ Finset.range g.n3, ones (t.byte .buf (54 + a)) = ∑ a ∈ Finset.range g.n3, ones (s.byte .tmp a) := by
  have hslabs := h.sum_ones_esize
  obtain ⟨-, hextra⟩ := h
  rw [← g.esize_add_extra, Finset.sum_range_add, Finset.sum_range_add, hslabs]
  refine congrArg _ (Finset.sum_congr rfl fun k hk => ?_)
  rw [← Nat.add_assoc, hextra k (Finset.mem_range.1 hk)]

/-- Settles O42: the slabs hold the bits of the groups, and the remainder is copied. -/
theorem bmtfKeepsTheNumberOfOneBits : Obligations.BmtfKeepsTheNumberOfOneBits := by
  intro s hl hg
  obtain ⟨t, hrun, hslabs, -⟩ := bmtfWritesBitPlaneSlabs s hl hg
  exact ⟨t, hrun, hslabs.sum_ones⟩

end Sys2Proof.Machine
end

section
/-!
PROOF. Component E: the errors of ZENC and ZDEC, what an OK ZENC says of its bitmap, and that ZDEC reads the
encoded word stream back (43_zero_elimination.md R100 to R106).
-/

namespace Sys2Proof.Machine

/-! ### Errors -/

theorem execZenc_paramError {chk : Bool} {ty : WordType} {s : State}
    (h : s.params.bufCap < s.zbase.toNat + s.zn.toNat * wordBytes ty) :
    execZenc chk ty s = .next (s.setCode .paramError) := by
  rcases execZenc_cases chk ty s with ⟨-, hrun⟩ | ⟨hr, -⟩ | ⟨hr, -⟩
  · exact hrun
  · omega
  · omega

theorem execZdec_paramError {ty : WordType} {s : State}
    (h : s.params.bufCap < s.zbase.toNat + s.zn.toNat * wordBytes ty) :
    execZdec ty s = .next (s.setCode .paramError) := by
  rcases execZdec_cases ty s with ⟨-, hrun⟩ | ⟨hr, -⟩
  · exact hrun
  · omega

/-- Settles O17: the range check comes first in both commands. -/
theorem zeRangeErrorOnlySetsStatus : Obligations.ZeRangeErrorOnlySetsStatus :=
  fun _ _ _ h => ⟨execZenc_paramError h, execZdec_paramError h⟩

theorem execZenc_capacityExceeded {ty : WordType} {s : State}
    (hr : s.zbase.toNat + s.zn.toNat * wordBytes ty ≤ s.params.bufCap)
    (hcap : s.zcap.toNat < nonzeroBelow s ty s.zn.toNat) :
    execZenc true ty s = .next ((overflowState ty s).setCode .capacityExceeded) := by
  rcases execZenc_cases true ty s with ⟨hlt, -⟩ | ⟨-, -, -, hrun⟩ | ⟨-, hfit, -⟩
  · omega
  · exact hrun
  · exact absurd (hfit rfl) (Nat.not_le.2 hcap)

/-- Filling the first bytes of a memory keeps those above. -/
theorem read_fillFirst_above (u : Nat → Byte) (n : Nat) (v : Nat → Byte) (m : Memory) {a : Nat} (ha : n ≤ a) :
    Memory.read u (fillFirst n v m) a = Memory.read u m a :=
  Memory.read_eq_of_lookup ((lookup_fillFirst n v m a).trans (if_neg (Nat.not_lt.2 ha)))

theorem overflowState_dns_kept (ty : WordType) (s : State) :
    KeptOutside .dns 0 (s.zcap.toNat * wordBytes ty) s (overflowState ty s) :=
  fun _ ha => read_fillFirst_above _ _ _ _ (ha.resolve_left (Nat.not_lt_zero _))

theorem overflowState_bmap_kept (ty : WordType) (s : State) :
    KeptOutside .bmap 0 (bitmapWords ty s.zn.toNat * wordBytes ty) s (overflowState ty s) :=
  fun _ ha => read_fillFirst_above _ _ _ _ (ha.resolve_left (Nat.not_lt_zero _))

/-- Settles O45: the encode fails, and the free values fill the first bytes of DNS and BMAP only. -/
theorem checkedZencFailsBeyondZcap : Obligations.CheckedZencFailsBeyondZcap :=
  fun s ty hr hcap => ⟨_, execZenc_capacityExceeded hr hcap, (overflowState_dns_kept ty s).setCode _,
    (overflowState_bmap_kept ty s).setCode _, rfl⟩

/-! ### A ZENC that ends with OK -/

/-- A ZENC that ends with OK ran the encode: the stream lies in BUF and is encoded in DNS and BMAP. -/
theorem execZenc_ok {chk : Bool} {ty : WordType} {s t : State} (h : execZenc chk ty s = .next t)
    (hok : t.status = 0#8) :
    s.zbase.toNat + s.zn.toNat * wordBytes ty ≤ s.params.bufCap ∧ EncodedAs ty s t
      ∧ t.zlen.toNat = nonzeroBelow s ty s.zn.toNat := by
  rcases execZenc_cases chk ty s with ⟨-, hrun⟩ | ⟨-, -, -, hrun⟩ | ⟨hr, hfit, -⟩
  · cases hrun.symm.trans h
    exact absurd (statusOf_injective (d := .ok) hok) (by decide)
  · cases hrun.symm.trans h
    exact absurd (statusOf_injective (d := .ok) hok) (by decide)
  · obtain ⟨t', hrun, henc, hzlen, -⟩ := zencEncodesTheWordStream s chk ty hr hfit
    cases hrun.symm.trans h
    exact ⟨hr, henc, hzlen⟩

/-! ### The bitmap of an encoded stream -/

theorem nonzeroBelow_succ (s : State) (ty : WordType) (k : Nat) :
    nonzeroBelow s ty (k + 1) = nonzeroBelow s ty k + if s.zeWord ty k = 0 then 0 else 1 :=
  nonzeroCount_succ (s.zeWord ty) k

theorem setBelow_succ (s : State) (ty : WordType) (k : Nat) :
    setBelow s ty (k + 1) = setBelow s ty k + if bitmapBit ty (s.bitmapWord ty) k then 1 else 0 :=
  setCount_succ ty (s.bitmapWord ty) k

/-- The bitmap bit of an index tells whether it names a nonzero word of the stream (43_zero_elimination.md
R101). -/
theorem EncodedAs.bitmapBit_eq {ty : WordType} {s t : State} (h : EncodedAs ty s t) {k : Nat}
    (hk : k < bitmapWords ty s.zn.toNat * wordBits ty) :
    bitmapBit ty (t.bitmapWord ty) k = (decide (k < s.zn.toNat) && (s.zeWord ty k != 0)) := by
  obtain ⟨-, hbits, -, -⟩ := h
  have hb := wordBits_pos ty
  rw [bitmapBit, hbits _ _ ((Nat.div_lt_iff_lt_mul hb).2 hk) (Nat.mod_lt k hb), Nat.div_add_mod']

/-- Below any index there are as many set bits as nonzero words. -/
theorem EncodedAs.setBelow_eq {ty : WordType} {s t : State} (h : EncodedAs ty s t) {k : Nat}
    (hk : k ≤ bitmapWords ty s.zn.toNat * wordBits ty) :
    setBelow t ty k = nonzeroBelow s ty (min k s.zn.toNat) := by
  induction k with
  | zero => rw [Nat.zero_min]; rfl
  | succ k ih =>
    rw [setBelow_succ, ih (by omega), h.bitmapBit_eq (by omega)]
    rcases Nat.lt_or_ge k s.zn.toNat with hn | hn
    · rw [Nat.min_eq_left hn.le, Nat.min_eq_left hn, nonzeroBelow_succ]
      by_cases hw : s.zeWord ty k = 0 <;> simp [hn, hw]
    · rw [Nat.min_eq_right hn, Nat.min_eq_right (by omega)]
      simp [Nat.not_lt.2 hn]

/-- Settles O47: ZLEN is the number of nonzero words, and the bitmap has one set bit for each. -/
theorem zlenIsThePopcountOfTheBitmap : Obligations.ZlenIsThePopcountOfTheBitmap := by
  intro s t chk ty hrun hok
  obtain ⟨-, henc, hzlen⟩ := execZenc_ok hrun hok
  rw [hzlen, henc.setBelow_eq (Nat.le_refl _), Nat.min_eq_right (le_bitmapWords_mul ty s.zn.toNat)]
  exact ⟨rfl, nonzeroCount_le _ _⟩

/-! ### ZDEC -/

/-- Every decoded word is a word of its type. -/
theorem decodedWord_lt (s : State) (ty : WordType) (k : Nat) :
    decodedWord ty (s.bitmapWord ty) (s.denseWord ty) k < 256 ^ wordBytes ty := by
  unfold decodedWord
  split
  · exact readLE_lt ..
  · positivity

/-- The words that the stage leaves in BUF (43_zero_elimination.md R104). -/
theorem stageZeDecode_zeWord (s : State) (ty : WordType) {k : Nat} (hk : k < s.zn.toNat) :
    (stageZeDecode ty s).zeWord ty k = decodedWord ty (s.bitmapWord ty) (s.denseWord ty) k :=
  readLE_of_lookup (decodedWord_lt s ty k) fun _ hx => lookup_zeDecode _ _ _ _ _ _ hk hx

theorem execZdec_run {ty : WordType} {s : State}
    (hr : s.zbase.toNat + s.zn.toNat * wordBytes ty ≤ s.params.bufCap) :
    execZdec ty s = .next ((stageZeDecode ty s).setCode .ok) := by
  rcases execZdec_cases ty s with ⟨hlt, -⟩ | ⟨-, hrun⟩
  · omega
  · exact hrun

/-- Settles O48: the stream lies in BUF, so the loop of R104 runs, and it writes the words of the stream alone. -/
theorem zdecDecodesTheWordStream : Obligations.ZdecDecodesTheWordStream := by
  intro s ty hr
  obtain ⟨-, -, -, hkept⟩ := stageZeDecode_onlyBuf ty s
  exact ⟨_, execZdec_run hr, fun _ hk => stageZeDecode_zeWord s ty hk, hkept.setCode .ok,
    State.setCode_ok_of_keeps_buf (stageZeDecode_keeps ty s)⟩

/-! ### ZDEC after ZENC -/

/-- Decoding the encoding of a stream gives the stream's words (43_zero_elimination.md R106 law 3). -/
theorem EncodedAs.decodedWord_eq {ty : WordType} {s t : State} (h : EncodedAs ty s t) {k : Nat}
    (hk : k < s.zn.toNat) : decodedWord ty (t.bitmapWord ty) (t.denseWord ty) k = s.zeWord ty k := by
  have hcover := le_bitmapWords_mul ty s.zn.toNat
  have hbit := h.bitmapBit_eq (k := k) (by omega)
  have hindex : setCount ty (t.bitmapWord ty) k = nonzeroBelow s ty k := by
    have hset := h.setBelow_eq (k := k) (by omega)
    rwa [Nat.min_eq_left hk.le] at hset
  obtain ⟨hdense, -, -, -⟩ := h
  rw [decodedWord, hbit, hindex, decide_eq_true hk, Bool.true_and]
  by_cases hw : s.zeWord ty k = 0
  · simp [hw]
  · simpa [hw] using hdense k hk hw

/-- Two streams of the same words at the same place are the same bytes. -/
theorem stream_byte_eq {s r : State} {ty : WordType} (hbase : r.zbase = s.zbase) {n : Nat}
    (hwords : ∀ k, k < n → r.zeWord ty k = s.zeWord ty k) {a : Nat} (h1 : s.zbase.toNat ≤ a)
    (h2 : a < s.zbase.toNat + n * wordBytes ty) : r.byte .buf a = s.byte .buf a := by
  have hs := wordBytes_pos ty
  obtain ⟨d, rfl⟩ := Nat.exists_eq_add_of_le h1
  have hk : d / wordBytes ty < n := (Nat.div_lt_iff_lt_mul hs).2 (by omega)
  have hbyte := readLE_injective (hwords _ hk) (Nat.mod_lt d hs)
  rwa [hbase, Nat.add_assoc, Nat.div_add_mod'] at hbyte

/-- Settles O49: ZDEC reads DNS and BMAP alone, which hold the encoding of the stream. -/
theorem zdecUndoesZenc : Obligations.ZdecUndoesZenc := by
  intro s t chk ty overwritten hrun hok
  obtain ⟨hr, henc, -⟩ := execZenc_ok hrun hok
  obtain ⟨-, -, hbase, hn, -, hparams, -⟩ := commandsKeepOperandRegisters _ s t hrun
  obtain ⟨r, hrun', hwords, -, hkeeps⟩ := zdecDecodesTheWordStream { t with buf := overwritten } ty
    (by simpa only [hbase, hn, hparams] using hr)
  refine ⟨r, hrun', fun a => stream_byte_eq ?_ fun k hk => ?_⟩
  · rw [hkeeps]
    exact hbase
  · exact (hwords k (by rwa [hn])).trans (henc.decodedWord_eq hk)

end Sys2Proof.Machine
end

section
/-!
PROOF. DEC after ENC: what the three inverse stages leave, that together they rebuild the image that ENC
transformed, and the whole flow with component E between the two (44_pipeline.md R111, R113 and R114).
-/

namespace Sys2Proof.Machine

/-! ### The three inverse stages -/

/-- The state of DEC after the inverses of components D and C. -/
def stagesDC (s : State) : State := stageRowDiffInv (stageBitTransposeInv s)

@[simp] theorem stagesDC_len (s : State) : (stagesDC s).len = s.len := by simp [stagesDC]

@[simp] theorem stagesDC_params (s : State) : (stagesDC s).params = s.params := by simp [stagesDC]

/-- The inverses of D and C leave the header to component B (44_pipeline.md R111). -/
theorem stagesDC_header {s : State} (hg : geomOK s = true) {a : Nat} (ha : a < 54) :
    (stagesDC s).byte .buf a = s.byte .buf a := by
  have hw := (geomOK_width hg).2
  rw [stagesDC, stageRowDiffInv_outside _ (by rwa [stageBitTransposeInv_geom]) (.inl ha), stageBitTransposeInv_buf]

@[simp] theorem stageRestore_tmp (s : State) : (stageRestore s).byte .tmp = s.byte .tmp :=
  State.byte_congr (stageRestore_tmp_memory s) (stageRestore_epoch s)

theorem stagesDecode_tmp (s : State) : (stagesDecode s).byte .tmp = (stageBitTransposeInv s).byte .tmp := by
  rw [stagesDecode, stageRestore_tmp, stageRowDiffInv_tmp]

/-- A header restored from one state is restored from every state with the same header and LEN. -/
theorem HeaderRestored.congr {s s' t : State} (h : HeaderRestored s t) (hlen : s'.len = s.len)
    (e : ∀ a, a < 54 → s'.byte .buf a = s.byte .buf a) : HeaderRestored s' t := by
  obtain ⟨hraw, hgeom, hxres, hyres⟩ := h
  refine ⟨fun a ha hf => ?_, fun a h1 h2 => ?_, fun a h1 h2 => ?_, ?_⟩
  · rw [hlen, hraw a ha hf]
  · rw [e a (by omega), hgeom a h1 h2]
  · rw [e a (by omega), hxres a h1 h2]
  · rw [hyres, readLE_congr (a := 42) (n := 4) fun a _ _ => e a (by omega),
      readLE_congr (a := 38) (n := 4) fun a _ _ => e a (by omega)]

/-- Rebuilt pixels are a function of the residual planes and the pixel region. -/
theorem PixelsOf.congr {g : Geom} {s s' t t' : State} (h : PixelsOf g s t)
    (hs : ∀ a, a < g.n3 → s'.byte .tmp a = s.byte .tmp a)
    (ht : ∀ a, 54 ≤ a → t'.byte .buf a = t.byte .buf a) : PixelsOf g s' t' := by
  obtain ⟨hpixels, hpad⟩ := h
  have hpixel : pixelByte g t' = pixelByte g t := by
    funext y x c
    exact ht _ (by omega)
  have hpredictor : predictorByte g t' = predictorByte g t := by
    funext y x c
    simp only [predictorByte, hpixel]
  refine ⟨fun y x hy hx => ?_, fun y i hy h1 h2 => (ht _ (by omega)).trans (hpad y i hy h1 h2)⟩
  have hres (k : Nat) (hk : k < 3) : unfolded g s' k y x = unfolded g s k y x := by
    rw [unfolded_eq, unfolded_eq, hs _ (g.planeAddr_lt hk hy hx)]
  rw [hpixel, hpredictor, hres 0 (by omega), hres 1 (by omega), hres 2 (by omega)]
  exact hpixels y x hy hx

theorem stagesDecode_headerRestored {s : State} (hl : s.len.toNat ≤ s.params.bufCap)
    (ha : acceptInv s = true) : HeaderRestored s (stagesDecode s) := by
  have hheader (a : Nat) (h : a < 54) := stagesDC_header (acceptInv_geomOK ha) h
  have hacc : acceptInv (stagesDC s) = true := (acceptInv_congr (stagesDC_len s) hheader).trans ha
  have hrestored : HeaderRestored (stagesDC s) (stagesDecode s) :=
    stageRestore_headerRestored (by rwa [stagesDC_len, stagesDC_params]) hacc
  exact hrestored.congr (stagesDC_len s).symm fun a h => (hheader a h).symm

theorem stagesDecode_scratchOf (s : State) : ScratchOf s.geom s (stagesDecode s) := by
  rw [ScratchOf, stagesDecode_tmp]
  exact stageBitTransposeInv_scratchOf s

theorem stagesDecode_pixelsOf {s : State} (hg : geomOK s = true) :
    PixelsOf s.geom (stagesDecode s) (stagesDecode s) := by
  have h := stageRowDiffInv_pixelsOf (stageBitTransposeInv_lawful.keeps_geomOK hg)
  rw [stageBitTransposeInv_geom] at h
  exact h.congr (fun _ _ => by rw [stagesDecode_tmp]) fun a _ => stageRestore_frame _ (by omega)

/-! ### The image that ENC transformed -/

/-- BUF of `r` holds the header and the pixels that BUF of `s` holds, and the same bytes at and above LEN: all
of BUF but the padding. -/
structure SameImage (s r : State) : Prop where
  header : ∀ a, a < 54 → r.byte .buf a = s.byte .buf a
  pixels : ∀ y x c, y < s.geom.h → x < s.geom.w → c < 3 → pixelByte s.geom r y x c = pixelByte s.geom s y x c
  above_len : ∀ a, s.len.toNat ≤ a → r.byte .buf a = s.byte .buf a

theorem SameImage.setCode {s r : State} (h : SameImage s r) (c : Code) : SameImage s (r.setCode c) where
  header := by rw [State.setCode_byte]; exact h.header
  pixels := h.pixels
  above_len := by rw [State.setCode_byte]; exact h.above_len

/-- With zero padding on both sides the same image is the same buffer. -/
theorem SameImage.buf_eq {s r : State} (h : SameImage s r) (hg : geomOK s = true) (hs : PaddingZero s.geom s)
    (hr : PaddingZero s.geom r) (a : Nat) : r.byte .buf a = s.byte .buf a := by
  rcases Nat.lt_or_ge a 54 with h54 | h54
  · exact h.header a h54
  · rcases Nat.lt_or_ge a s.len.toNat with hlen | hlen
    · obtain ⟨y, i, hy, hi, rfl⟩ := s.geom.exists_row h54 (by rwa [geomOK_len hg])
      rcases Nat.lt_or_ge i (3 * s.geom.w) with hpix | hpad
      · have hpixel := h.pixels y (i / 3) (i % 3) hy (by omega) (by omega)
        rwa [pixelByte, pixelByte, Nat.add_assoc, Nat.div_add_mod] at hpixel
      · rw [hr y hy i hi hpad, hs y hy i hi hpad]
    · exact h.above_len a hlen

theorem HeaderNeutralised.geom_eq {s t : State} (h : HeaderNeutralised s t) : t.geom = s.geom := by
  obtain ⟨-, hsize, -, -⟩ := h
  exact (geom_congr hsize).2.2

/-- What DEC does with a buffer that reads as ENC left it, whatever TMP holds by then (44_pipeline.md R114). -/
theorem exec_dec_after_enc {s d : State} (hl : s.len.toNat ≤ s.params.bufCap) (ha : acceptFwd s = true)
    (hlen : d.len = s.len) (hparams : d.params = s.params)
    (hbuf : ∀ a, d.byte .buf a = (stagesEncode s).byte .buf a) :
    ∃ r, exec .dec d = .next r ∧ r.status = 0#8 ∧ SameImage s r ∧ PaddingZero s.geom r := by
  have hg := acceptFwd_geomOK ha
  have hneutral : HeaderNeutralised s d := (stagesEncode_headerNeutralised hl ha).congr fun a _ => hbuf a
  have hacc := hneutral.acceptInv hlen hg
  have hl' : d.len.toNat ≤ d.params.bufCap := by rwa [hlen, hparams]
  have hgd := acceptInv_geomOK hacc
  have hgeom := hneutral.geom_eq
  have hrun := guarded_run stagesDecode hl' (geomOK_len_ge hgd) hacc
  have hrestored := stagesDecode_headerRestored hl' hacc
  have hscratch := stagesDecode_scratchOf d
  have hpixels := stagesDecode_pixelsOf hgd
  rw [hgeom] at hscratch hpixels
  -- the slabs that DEC reads are those of the planes that ENC left in TMP
  have hslabs : SlabsOf s.geom (stagesEncode s) d := by
    rw [SlabsOf, funext hbuf]
    exact stagesEncode_slabsOf s
  have hpixels' : PixelsOf s.geom (stagesEncode s) (stagesDecode d) :=
    hpixels.congr (fun a h => (hscratch.tmp_eq hslabs h).symm) fun _ _ => rfl
  have hsame : SameImage s (stagesDecode d) :=
    { header := fun a h => hneutral.restored_eq hrestored hlen hl ha h
      pixels := fun y x c hy hx hc => hpixels'.pixelByte_eq (stagesEncode_planesOf s) hy hx hc
      above_len := fun a h => by
        rw [stagesDecode_lawful.above_len hgd a (by rwa [hlen]), hbuf, stagesEncode_lawful.above_len hg a h] }
  exact ⟨_, hrun, State.setCode_status _ _, hsame.setCode .ok, (hpixels.setCode .ok).paddingZero⟩

/-! ### The whole flow -/

/-- An ENC of an accepted buffer ran its stages, of which LEN, the parameters and BUF are what DEC needs. -/
theorem exec_enc_next {s t : State} (hl : s.len.toNat ≤ s.params.bufCap) (ha : acceptFwd s = true)
    (h : exec .enc s = .next t) :
    t.len = s.len ∧ t.params = s.params ∧ t.byte .buf = (stagesEncode s).byte .buf := by
  have hrun := guarded_run stagesEncode hl (geomOK_len_ge (acceptFwd_geomOK ha)) ha
  rw [exec_enc, hrun] at h
  rw [← Host.Outcome.next.inj h, State.setCode_len, State.setCode_params, State.setCode_byte]
  exact ⟨stagesEncode_len s, stagesEncode_params s, rfl⟩

/-- ZENC, anything written over the stream, and ZDEC: BUF reads as it did, and LEN and the parameters are kept
(43_zero_elimination.md R106 law 3, 44_pipeline.md R113). -/
theorem exec_zdec_after_zenc {s z : State} {chk : Bool} {ty : WordType} {overwritten : Memory}
    (hrun : exec (.zenc chk ty) s = .next z) (hok : z.status = 0#8)
    (hout : ∀ a, a < s.zbase.toNat ∨ s.zbase.toNat + s.zn.toNat * wordBytes ty ≤ a →
      ({ z with buf := overwritten } : State).byte .buf a = z.byte .buf a) :
    ∃ d, exec (.zdec ty) { z with buf := overwritten } = .next d
      ∧ d.len = s.len ∧ d.params = s.params ∧ ∀ a, d.byte .buf a = s.byte .buf a := by
  obtain ⟨d, hrun', hin⟩ := zdecUndoesZenc s z chk ty overwritten hrun hok
  obtain ⟨-, hlen, hbase, hn, -, hparams, -, -, hepoch, -⟩ := commandsKeepOperandRegisters _ s z hrun
  obtain ⟨-, hlen', -, -, -, hparams', -⟩ := commandsKeepOperandRegisters _ _ d hrun'
  obtain ⟨hzbuf, -⟩ := execZenc_memories hrun
  obtain ⟨-, -, -, hkept⟩ := execZdec_onlyBuf hrun'
  refine ⟨d, hrun', hlen'.trans hlen, hparams'.trans hparams, fun a => ?_⟩
  by_cases ha : a < s.zbase.toNat ∨ s.zbase.toNat + s.zn.toNat * wordBytes ty ≤ a
  · calc d.byte .buf a = ({ z with buf := overwritten } : State).byte .buf a := hkept a (by rwa [hbase, hn])
      _ = z.byte .buf a := hout a ha
      _ = s.byte .buf a := congrFun (State.byte_congr (m := .buf) hzbuf hepoch) a
  · exact hin a (by omega) (by omega)

/-- Settles O57: ZENC and ZDEC give DEC back the buffer that ENC left, with which DEC rebuilds the image. -/
theorem wholeFlowRestoresTheImage : Obligations.WholeFlowRestoresTheImage := by
  intro s t z base n cap chk ty overwritten hl ha hpad henc hzenc hok hout
  obtain ⟨htlen, htparams, htbuf⟩ := exec_enc_next hl ha henc
  obtain ⟨d, hzdec, hlen, hparams, hbuf⟩ := exec_zdec_after_zenc hzenc hok hout
  obtain ⟨r, hdec, hok', hsame, hpad'⟩ := exec_dec_after_enc hl ha (hlen.trans htlen) (hparams.trans htparams)
    fun a => (hbuf a).trans (congrFun htbuf a)
  exact ⟨d, r, hzdec, hdec, hok', hsame.buf_eq (acceptFwd_geomOK ha) hpad hpad'⟩

end Sys2Proof.Machine
end

section
/-!
PROOF. The pipeline's transforms as a whole: what DEC leaves, that what ENC leaves follows from the header and the
pixels alone, and that ENC and DEC undo one another (44_pipeline.md R110, R111 and R114).
-/

namespace Sys2Proof.Machine

/-! ### What DEC leaves -/

/-- Settles O52: the checks pass; component D leaves the planes, which the later stages do not write, C the pixels,
which B does not write, and B the header. -/
theorem decRestoresTheImage : Obligations.DecRestoresTheImage := by
  intro s hl ha
  have hg := acceptInv_geomOK ha
  have hrun := guarded_run stagesDecode hl (geomOK_len_ge hg) ha
  obtain ⟨-, -, hbuf, htmp⟩ := stagesDecode_onlyBufAndTmp hg
  have hpixels : PixelsOf s.geom ((stagesDecode s).setCode .ok) (stagesDecode s) :=
    (stagesDecode_pixelsOf hg).congr (fun _ _ => by rw [State.setCode_byte]) fun _ _ => rfl
  exact ⟨_, hrun, (stagesDecode_headerRestored hl ha).setCode .ok, (stagesDecode_scratchOf s).setCode .ok,
    hpixels.setCode .ok, hbuf.setCode .ok, htmp.setCode .ok,
    State.setCode_ok_of_keeps_buf_tmp (stagesDecode_keeps s)⟩

/-! ### What ENC leaves follows from what it encodes -/

/-- A neutralised header follows from the header it was made from. -/
theorem HeaderNeutralised.header_eq {s s' t t' : State} (h : HeaderNeutralised s t)
    (h' : HeaderNeutralised s' t') (e : ∀ a, a < 54 → s'.byte .buf a = s.byte .buf a) {a : Nat} (ha : a < 54) :
    t'.byte .buf a = t.byte .buf a := by
  obtain ⟨hzero, hgeom, hxres, hyres⟩ := h
  obtain ⟨hzero', hgeom', hxres', hyres'⟩ := h'
  refine Machine.header_eq (fun a h hfree => (hzero' a h hfree).trans (hzero a h hfree).symm)
    (fun a h1 h2 => ?_) (fun a h1 h2 => ?_) ?_ ha
  · rw [hgeom' a h1 h2, hgeom a h1 h2, e a (by omega)]
  · rw [hxres' a h1 h2, hxres a h1 h2, e a (by omega)]
  · rw [hyres', hyres, readLE_congr (a := 42) (n := 4) fun a _ _ => e a (by omega),
      readLE_congr (a := 38) (n := 4) fun a _ _ => e a (by omega)]

/-- The deltas of an image follow from its pixels. -/
theorem deltaByte_eq_of_pixelByte {g : Geom} {s t : State} {c : Nat}
    (h : ∀ y x, y < g.h → x < g.w → pixelByte g t y x c = pixelByte g s y x c) {y x : Nat} (hy : y < g.h)
    (hx : x < g.w) : deltaByte g t y x c = deltaByte g s y x c := by
  have hpredictor : predictorByte g t y x c = predictorByte g s y x c := by
    unfold predictorByte
    rw [h y (x - 1) hy (by omega), h (y - 1) 0 (by omega) (by omega)]
  rw [deltaByte, deltaByte, h y x hy hx, hpredictor]

/-- The residual planes follow from the pixels. -/
theorem PlanesOf.tmp_eq_of_pixelByte {g : Geom} {s s' t t' : State} (h : PlanesOf g s t) (h' : PlanesOf g s' t')
    (e : ∀ y x c, y < g.h → x < g.w → c < 3 → pixelByte g s' y x c = pixelByte g s y x c) {a : Nat}
    (ha : a < g.n3) : t'.byte .tmp a = t.byte .tmp a := by
  obtain ⟨k, y, x, hk, hy, hx, rfl⟩ := g.exists_planeAddr ha
  have hdelta {c : Nat} (hc : c < 3) : deltaByte g s' y x c = deltaByte g s y x c :=
    deltaByte_eq_of_pixelByte (fun y x hy hx => e y x c hy hx hc) hy hx
  rw [h'.plane hk hy hx, h.plane hk hy hx, channelDelta, channelDelta, hdelta hk, hdelta (c := 1) (by omega)]

/-- The slabs and the remainder follow from the residual planes. -/
theorem SlabsOf.buf_eq_of_tmp {g : Geom} {s s' t t' : State} (h : SlabsOf g s t) (h' : SlabsOf g s' t')
    (e : ∀ a, a < g.n3 → s'.byte .tmp a = s.byte .tmp a) {a : Nat} (h54 : 54 ≤ a) (ha : a < 54 + g.n3) :
    t'.byte .buf a = t.byte .buf a := by
  have hn := g.esize_add_extra
  have he := g.esize_eq
  obtain ⟨hslab, hextra⟩ := h
  obtain ⟨hslab', hextra'⟩ := h'
  obtain ⟨j, i, hj, hi, rfl⟩ | ⟨k, hk, rfl⟩ := g.slab_or_extra h54 ha
  · rw [Geom.slabAddr_eq_add]
    refine BitVec.eq_of_getLsbD_eq fun b hb => ?_
    rw [hslab' i j b hi hj hb, hslab i j b hi hj hb, e _ (by omega)]
  · rw [hextra' k hk, hextra k hk, e _ (by omega)]

/-- Two encoded buffers agree below LEN when their headers and the residual planes of their slabs do: the tail is
zero in both. -/
theorem encoded_buf_eq {g : Geom} {s s' t t' : State} (hlen : t'.len = t.len)
    (hheader : ∀ a, a < 54 → t'.byte .buf a = t.byte .buf a) (hslabs : SlabsOf g s t) (hslabs' : SlabsOf g s' t')
    (htmp : ∀ a, a < g.n3 → s'.byte .tmp a = s.byte .tmp a) (htail : TailZero g t) (htail' : TailZero g t')
    {a : Nat} (ha : a < t.len.toNat) : t'.byte .buf a = t.byte .buf a := by
  rcases Nat.lt_or_ge a 54 with h54 | h54
  · exact hheader a h54
  · rcases Nat.lt_or_ge a (54 + g.n3) with hn | hn
    · exact hslabs.buf_eq_of_tmp hslabs' htmp h54 hn
    · rw [htail' a (by rwa [hlen]) hn, htail a ha hn]

/-- Two accepted buffers with the same header and the same pixels are encoded alike: by O50 both runs leave the
header, the planes and their slabs that these determine, and a zero tail. -/
theorem exec_enc_of_same_image {s s' : State} (hlen : s'.len = s.len) (hparams : s'.params = s.params)
    (htmp : s'.byte .tmp = s.byte .tmp) (hl : s.len.toNat ≤ s.params.bufCap) (ha : acceptFwd s = true)
    (hheader : ∀ a, a < 54 → s'.byte .buf a = s.byte .buf a)
    (hpixels : ∀ y x c, y < s.geom.h → x < s.geom.w → c < 3 →
      pixelByte s.geom s' y x c = pixelByte s.geom s y x c) :
    ∃ t t', exec .enc s = .next t ∧ exec .enc s' = .next t' ∧ t'.status = 0#8
      ∧ (∀ a, a < s.len.toNat → t'.byte .buf a = t.byte .buf a) ∧ ∀ a, t'.byte .tmp a = t.byte .tmp a := by
  have hgeom : s'.geom = s.geom := (geom_congr fun a _ _ => hheader a (by omega)).2.2
  obtain ⟨t, hrun, hneutral, hplanes, hslabs, htail, -, hkept, heq⟩ := encTransformsTheImage s hl ha
  obtain ⟨t', hrun', hneutral', hplanes', hslabs', htail', -, hkept', heq'⟩ :=
    encTransformsTheImage s' (by rwa [hlen, hparams]) ((acceptFwd_congr hlen hheader).trans ha)
  rw [hgeom] at hplanes' hslabs' htail' hkept'
  have htlen : t.len = s.len := (congrArg State.len heq :)
  have htlen' : t'.len = t.len := (congrArg State.len heq' :).trans (hlen.trans htlen.symm)
  have hplane (a : Nat) (h : a < s.geom.n3) : t'.byte .tmp a = t.byte .tmp a :=
    hplanes.tmp_eq_of_pixelByte hplanes' hpixels h
  refine ⟨t, t', hrun, hrun', (congrArg State.status heq' :), fun a h => ?_, fun a => ?_⟩
  · exact encoded_buf_eq htlen' (fun _ => hneutral.header_eq hneutral' hheader) hslabs hslabs' hplane htail htail'
      (by rwa [htlen])
  · rcases Nat.lt_or_ge a s.geom.n3 with h | h
    · exact hplane a h
    · rw [hkept' a (.inr h), hkept a (.inr h), htmp]

/-- Settles O51: the two states differ in BUF alone, and there below LEN in the padding alone. -/
theorem encIgnoresThePadding : Obligations.EncIgnoresThePadding := by
  intro s other hl ha hheader hpixels
  exact exec_enc_of_same_image rfl rfl rfl hl ha hheader hpixels

/-! ### One after the other -/

/-- Settles O55: DEC finds BUF as ENC left it, and with zero padding on both sides the same image is the same
buffer. -/
theorem decUndoesEnc : Obligations.DecUndoesEnc := by
  intro s hl ha
  have hg := acceptFwd_geomOK ha
  have hrun : exec .enc s = .next ((stagesEncode s).setCode .ok) :=
    guarded_run stagesEncode hl (geomOK_len_ge hg) ha
  obtain ⟨hlen, hparams, hbuf⟩ := exec_enc_next hl ha hrun
  obtain ⟨r, hrun', hok, hsame, hpad⟩ := exec_dec_after_enc hl ha hlen hparams (congrFun hbuf)
  exact ⟨_, r, hrun, hrun', hok, hsame.header, hsame.pixels, hpad, fun hs => hsame.buf_eq hg hs hpad⟩

/-- The slabs that residual bytes were rebuilt from are the slabs of those bytes (42_bit_transpose.md R95). -/
theorem ScratchOf.slabsOf {g : Geom} {s t : State} (h : ScratchOf g s t) : SlabsOf g t s := by
  obtain ⟨hword, hextra⟩ := h
  exact ⟨fun i j b hi hj hb => (hword i j b hi hj hb).symm, fun k hk => (hextra k hk).symm⟩

theorem HeaderRestored.geom_eq {s t : State} (h : HeaderRestored s t) : t.geom = s.geom := by
  obtain ⟨-, hsize, -, -⟩ := h
  exact (geom_congr hsize).2.2

/-- Settles O56: by O52 DEC leaves an image whose residual planes are those of the slabs it read, and by O50 ENC
writes the slabs of that image's planes. -/
theorem encUndoesDec : Obligations.EncUndoesDec := by
  intro s hl ha htail
  have hg := acceptInv_geomOK ha
  obtain ⟨t, hrun, hrestored, hscratch, hpixels, hkept, -, heq⟩ := decRestoresTheImage s hl ha
  have hlen : t.len = s.len := (congrArg State.len heq :)
  have hparams : t.params = s.params := (congrArg State.params heq :)
  have hl' : t.len.toNat ≤ t.params.bufCap := by rwa [hlen, hparams]
  have ha' := hrestored.acceptFwd hlen hl' hg
  obtain ⟨r, hrun', hneutral, hplanes, hslabs, htail', hkept', -, heq'⟩ := encTransformsTheImage t hl' ha'
  rw [hrestored.geom_eq] at hplanes hslabs htail'
  rw [hlen] at hkept'
  have hlen' : r.len = s.len := (congrArg State.len heq' :).trans hlen
  refine ⟨t, r, hrun, hrun', (congrArg State.status heq' :), ?_⟩
  exact hkept.eq_of_restored hkept' fun _ =>
    encoded_buf_eq hlen' (fun _ => hrestored.neutralised_eq hneutral ha) hscratch.slabsOf hslabs
      (fun _ => hplanes.tmp_eq hpixels) htail htail'

end Sys2Proof.Machine
end

section
/-!
PROOF. The pipeline commands against the commands of their stages: a stage neither reads nor writes CMD and STATUS,
so it does the same in a command of its own as inside ENC or DEC (10_state.md R11 and R12, 44_pipeline.md R112).
-/

namespace Sys2Proof.Machine

/-! ### Running past CMD and STATUS -/

/-- Neither the check `accept` nor the transform `tr` reads or writes CMD or STATUS. -/
structure CommandFree (accept : State → Bool) (tr : State → State) : Prop where
  accept_eq : ∀ s c d, accept { s with cmd := c, status := d } = accept s
  tr_eq : ∀ s c d, tr { s with cmd := c, status := d } = { tr s with cmd := c, status := d }

/-- A guarded command whose checks pass runs its transform whatever CMD and STATUS hold, and ends with that CMD and
with OK. -/
theorem CommandFree.run {accept : State → Bool} {tr : State → State} (h : CommandFree accept tr) {s : State}
    (hl : s.len.toNat ≤ s.params.bufCap) (hg : geomOK s = true) (ha : accept s = true) (c d : Byte) :
    guarded accept tr { s with cmd := c, status := d } = .next { tr s with cmd := c, status := 0#8 } := by
  have hacc := (h.accept_eq s c d).trans ha
  rw [guarded_run (s := { s with cmd := c, status := d }) tr hl (geomOK_len_ge hg) hacc, h.tr_eq]
  rfl

theorem stageNeutralise_commandFree : CommandFree acceptFwd stageNeutralise :=
  ⟨fun _ _ _ => rfl, stageNeutralise_command_free⟩
theorem stageRestore_commandFree : CommandFree acceptInv stageRestore :=
  ⟨fun _ _ _ => rfl, stageRestore_command_free⟩
theorem stageRowDiff_commandFree : CommandFree geomOK stageRowDiff :=
  ⟨fun _ _ _ => rfl, stageRowDiff_command_free⟩
theorem stageRowDiffInv_commandFree : CommandFree geomOK stageRowDiffInv :=
  ⟨fun _ _ _ => rfl, stageRowDiffInv_command_free⟩
theorem stageBitTranspose_commandFree : CommandFree geomOK stageBitTranspose :=
  ⟨fun _ _ _ => rfl, stageBitTranspose_command_free⟩
theorem stageBitTransposeInv_commandFree : CommandFree geomOK stageBitTransposeInv :=
  ⟨fun _ _ _ => rfl, stageBitTransposeInv_command_free⟩

/-! ### Three stages in one command or in three -/

/-- A command that runs three stages one after the other, against the three commands that run one stage each and
whose checks pass on what the stage before left: the same end but for CMD (44_pipeline.md R112). -/
theorem guarded_eq_three_guarded {accept accept₁ accept₂ accept₃ : State → Bool} {f g h : State → State}
    (hf : CommandFree accept₁ f) (hg : CommandFree accept₂ g) (hh : CommandFree accept₃ h)
    (lf : LawfulStage f) (lg : LawfulStage g) {s : State} (hl : s.len.toNat ≤ s.params.bufCap)
    (hgeom : geomOK s = true) (ha : accept s = true) (ha₁ : accept₁ s = true) (ha₂ : accept₂ (f s) = true)
    (ha₃ : accept₃ (g (f s)) = true) (c₁ c₂ c₃ : Byte) :
    ∃ t a b c,
      guarded accept (fun r => h (g (f r))) s = .next t
      ∧ guarded accept₁ f { s with cmd := c₁ } = .next a ∧ a.status = 0#8
      ∧ guarded accept₂ g { a with cmd := c₂ } = .next b ∧ b.status = 0#8
      ∧ guarded accept₃ h { b with cmd := c₃ } = .next c
      ∧ c = { t with cmd := c₃ } ∧ t.status = 0#8 := by
  have hgeom₂ := lf.keeps_geomOK hgeom
  have hgeom₃ := lg.keeps_geomOK hgeom₂
  have hl₂ : (f s).len.toNat ≤ (f s).params.bufCap := by rwa [lf.len_eq, lf.params_eq]
  have hl₃ : (g (f s)).len.toNat ≤ (g (f s)).params.bufCap := by rwa [lg.len_eq, lg.params_eq]
  exact ⟨_, _, _, _, guarded_run _ hl (geomOK_len_ge hgeom) ha, hf.run hl hgeom ha₁ c₁ s.status, rfl,
    hg.run hl₂ hgeom₂ ha₂ c₂ 0#8, rfl, hh.run hl₃ hgeom₃ ha₃ c₃ 0#8, rfl, rfl⟩

/-- Settles O53: each command passes its checks on what the one before it left and runs its stage of ENC. -/
theorem encEqualsItsThreeStages : Obligations.EncEqualsItsThreeStages := by
  intro s hl ha
  have hg := acceptFwd_geomOK ha
  have hgB := stageNeutralise_lawful.keeps_geomOK hg
  exact guarded_eq_three_guarded stageNeutralise_commandFree stageRowDiff_commandFree stageBitTranspose_commandFree
    stageNeutralise_lawful stageRowDiff_lawful hl hg ha ha hgB (stageRowDiff_lawful.keeps_geomOK hgB)
    0x01#8 0x03#8 0x05#8

/-- Settles O54: each command passes its checks on what the one before it left, HDRR because the first two stages
leave the header alone, and runs its stage of DEC. -/
theorem decEqualsItsThreeStages : Obligations.DecEqualsItsThreeStages := by
  intro s hl ha
  have hg := acceptInv_geomOK ha
  have haDC : acceptInv (stagesDC s) = true :=
    (acceptInv_congr (stagesDC_len s) fun _ => stagesDC_header hg).trans ha
  exact guarded_eq_three_guarded stageBitTransposeInv_commandFree stageRowDiffInv_commandFree stageRestore_commandFree
    stageBitTransposeInv_lawful stageRowDiffInv_lawful hl hg ha hg (stageBitTransposeInv_lawful.keeps_geomOK hg) haDC
    0x06#8 0x04#8 0x02#8

end Sys2Proof.Machine
end

section
/-!
PROOF. How a command ends: the order of the header commands' checks, the codes each command can leave in STATUS, and
the idle engine (60_exceptions.md R120 to R123 and R131).
-/

namespace Sys2Proof.Machine

/-! ### The order of the checks -/

/-- Settles O16: the eight commands share one opening, and each of its checks is reached when those before it
passed. -/
theorem headerChecksComeInOrder : Obligations.HeaderChecksComeInOrder := by
  intro i accept s hacc
  obtain ⟨tr, -, e⟩ := exec_eq_guarded hacc
  rw [e]
  exact ⟨guarded_paramError, guarded_inputTooSmall, guarded_unsupportedFormat⟩

/-! ### The codes of each command -/

/-- The eight commands that check the header share one row of R121's table. -/
theorem codesOf_of_acceptOf {i : Instr} {accept : State → Bool} (h : acceptOf i = some accept) :
    codesOf i = [.ok, .inputTooSmall, .unsupportedFormat, .paramError] := by
  cases i with
  | zenc chk ty => cases h
  | zdec ty => cases h
  | _ => rfl

theorem guarded_code {accept : State → Bool} {tr : State → State} {s t : State} (h : guarded accept tr s = .next t) :
    ∃ c ∈ [Code.ok, .inputTooSmall, .unsupportedFormat, .paramError], t.status = statusOf c := by
  rcases guarded_next h with ⟨c, hc, rfl⟩ | ⟨-, -, -, rfl⟩
  · exact ⟨c, by revert hc; cases c <;> decide, rfl⟩
  · exact ⟨.ok, by decide, rfl⟩

/-- Only a checked ZENC can end with CAPACITY_EXCEEDED (43_zero_elimination.md R103). -/
theorem execZenc_code {chk : Bool} {ty : WordType} {s t : State} (h : execZenc chk ty s = .next t) :
    ∃ c ∈ codesOf (.zenc chk ty), t.status = statusOf c := by
  rcases execZenc_cases chk ty s with ⟨-, e⟩ | ⟨-, rfl, -, e⟩ | ⟨-, -, r, -, -, e⟩ <;> rw [e] at h <;> cases h
  · exact ⟨.paramError, by cases chk <;> simp [codesOf], rfl⟩
  · exact ⟨.capacityExceeded, by simp [codesOf], rfl⟩
  · exact ⟨.ok, by cases chk <;> simp [codesOf], rfl⟩

theorem execZdec_code {ty : WordType} {s t : State} (h : execZdec ty s = .next t) :
    ∃ c ∈ codesOf (.zdec ty), t.status = statusOf c := by
  rcases execZdec_cases ty s with ⟨-, e⟩ | ⟨-, e⟩ <;> rw [e] at h <;> cases h
  · exact ⟨.paramError, by simp [codesOf], rfl⟩
  · exact ⟨.ok, by simp [codesOf], rfl⟩

/-- Settles O18: by the three kinds of command, the eight that check the header, ZENC and ZDEC. -/
theorem commandsEndWithTheirCodes : Obligations.CommandsEndWithTheirCodes := by
  intro i s t h
  rcases instr_guarded_or_codec i with ⟨accept, hacc⟩ | ⟨chk, ty, rfl⟩ | ⟨ty, rfl⟩
  · obtain ⟨tr, -, e⟩ := exec_eq_guarded hacc
    rw [codesOf_of_acceptOf hacc]
    exact guarded_code (congrFun e s ▸ h)
  · exact execZenc_code h
  · exact execZdec_code h

/-! ### The idle engine -/

/-- Settles O10: with no access pending there is nothing to serve. -/
theorem idleEngineChangesNothing : Obligations.IdleEngineChangesNothing :=
  fun _ => step_of_nil

end Sys2Proof.Machine
end

section
/-!
PROOF. Every command ends in a next state (70_reset_and_hazards.md R147): each way a command can go, an error of
60_exceptions.md R122 or its transform, is a next state.
-/

namespace Sys2Proof.Machine

theorem guarded_terminates (accept : State → Bool) (tr : State → State) (s : State) :
    ∃ t, guarded accept tr s = .next t := by
  rcases guarded_cases accept tr s with ⟨-, e⟩ | ⟨-, -, e⟩ | ⟨-, -, -, e⟩ | ⟨-, -, -, e⟩
  · exact ⟨_, e⟩
  · exact ⟨_, e⟩
  · exact ⟨_, e⟩
  · exact ⟨_, e⟩

theorem execZenc_terminates (chk : Bool) (ty : WordType) (s : State) : ∃ t, execZenc chk ty s = .next t := by
  rcases execZenc_cases chk ty s with ⟨-, e⟩ | ⟨-, -, -, e⟩ | ⟨-, -, _, -, -, e⟩
  · exact ⟨_, e⟩
  · exact ⟨_, e⟩
  · exact ⟨_, e⟩

theorem execZdec_terminates (ty : WordType) (s : State) : ∃ t, execZdec ty s = .next t := by
  rcases execZdec_cases ty s with ⟨-, e⟩ | ⟨-, e⟩
  · exact ⟨_, e⟩
  · exact ⟨_, e⟩

/-- Settles O15: by the three kinds of command, the eight that check the header, ZENC and ZDEC. -/
theorem everyCommandTerminates : Obligations.EveryCommandTerminates := by
  intro i s
  rcases instr_guarded_or_codec i with ⟨accept, hacc⟩ | ⟨chk, ty, rfl⟩ | ⟨ty, rfl⟩
  · obtain ⟨tr, -, e⟩ := exec_eq_guarded hacc
    rw [e]
    exact guarded_terminates accept tr s
  · exact execZenc_terminates chk ty s
  · exact execZdec_terminates ty s

end Sys2Proof.Machine
end
